-- ==== Sys2Proof/Word.lean ====
section
/-! DEFINITION. The widths of the block: R10 (`CMD_W`, `IMM_W`, `RSP_W`, `LEN_W`, `CH_W`), R12 (a byte),
R21 (the checksum). Every value is unsigned (R11, R72): nothing in this package sign-extends. -/

namespace Sys2Proof

/-- A byte: an unsigned 8-bit value (R12). -/
abbrev Byte := BitVec 8

/-- The width of `ACC`, `REM` and the Size field: `ACC_W` = 16 (R9). -/
abbrev Half := BitVec 16

/-- The operand field of a command, `LEN` and a character code: 24 bits (R10). -/
abbrev Imm := BitVec 24

/-- A command word or a READ response: 32 bits (R10, R70). -/
abbrev Word := BitVec 32

end Sys2Proof
end

