-- ==== Sys2Proof/Config.lean ====
section
/-! DEFINITION. The implementation parameters of R9 and R10 as named constants, and the two parameters the
spec leaves OPEN (`READ_TIMEOUT`, `FLUSH_ERR_KIND`) and the port, as constants with no body. -/

namespace Sys2Proof.Config

/-! ### R9, fixed by the document -/

/-- `CK_MOD` = `2^ACC_W`: the modulus of the checksum. -/
def ckMod : Nat := 65536
/-- `NAME_LEN`: bytes of the FileName field. -/
def nameLen : Nat := 12
/-- `HDR_COVERED`: header bytes that the HeaderChecksum covers. -/
def hdrCovered : Nat := 14
/-- `HDR_LEN`: bytes of the Header. -/
def hdrLen : Nat := 16
/-- `SIZE_BYTES`: bytes of the Size field. -/
def sizeBytes : Nat := 2
/-- `CK_BYTES`: bytes of each checksum field. -/
def ckBytes : Nat := 2
/-- `MAX_DATA`: the largest payload length a frame can carry. -/
def maxData : Nat := 65535
/-- `ASCII_MAX`: the largest character code a name may hold. -/
def asciiMax : Nat := 0x7F
/-- The largest length SETLEN can be given: 24 bits (R10 `LEN_W`, R85, R215, W9). -/
def maxSetlen : Nat := 0xFFFFFF
/-- `BAUD`: line rate of the sink. -/
def baud : Nat := 900
/-- `DATA_BITS`. -/
def dataBits : Nat := 8
/-- `STOP_BITS`. -/
def stopBits : Nat := 1
/-- `THROUGHPUT_BPS`: divisor of the settle delay, bytes per second (R9, R163, U4). -/
def throughputBps : Rat := 90
/-- `GUARD_S`: constant term of the settle delay, in seconds (R9, R163, U4). -/
def guardS : Rat := 1 / 2

/-- `N_REGS` (R10): the registers READ can name are 0 to 6. -/
def nRegs : Nat := 7

/-! ### The line discipline of the sink (R9, R153) and what is OPEN -/

/-- `PARITY`: the document fixes "no parity"; the other values are what the argument could say. -/
inductive Parity where
  | none | even | odd
  deriving DecidableEq, Repr

/-- The document's error taxonomy of the sink, `TransmissionError::Open/Write` (R159), with the "third
kind" that R155 and D21 allow for a failed flush. -/
inductive TransmissionError where
  | openFailed | writeFailed | other
  deriving DecidableEq, Repr, Inhabited

/-- `READ_TIMEOUT`, in seconds: OPEN ("bounded", no value; R10, R153, D24, U3). No rule reads it. -/
opaque readTimeout : Rat

/-- The port a sink opens when nobody gives it another one: opaque (R151, N22, D24; entry 8, DEDUCED, safe). -/
opaque port : Nat

/-- `FLUSH_ERR_KIND`: which TransmissionError a failed flush becomes: OPEN (R10, R155, D21, U5; entry 8, DEDUCED,
safe). -/
opaque flushErrKind : TransmissionError

/-- The arguments of the sink's `open` primitive (R152). -/
structure OpenArgs where
  port : Nat
  baud : Nat
  dataBits : Nat
  parity : Parity
  stopBits : Nat
  timeout : Rat
  deriving DecidableEq, Repr

/-- `sink_config` (R151): it "names the port to open", and the document gives it no more structure. -/
structure SinkConfig where
  port : Nat
  deriving DecidableEq, Repr

/-- The `sink_config` of a `send` that is not scheduled with another. -/
def sinkConfig : SinkConfig := ⟨port⟩

/-- What `send` opens the byte sink with (R153): the port of its `sink_config`, 900 baud, 8 data bits, no parity,
1 stop bit, a bounded read timeout. -/
def openArgs (c : SinkConfig) : OpenArgs where
  port := c.port
  baud := baud
  dataBits := dataBits
  parity := .none
  stopBits := stopBits
  timeout := readTimeout

/-- The settle delay of R156, in seconds, as a function of the number of bytes of the frame: real division,
no rounding. R212: the model carries it as a function and compares it with nothing. -/
def settleSeconds (frameLen : Nat) : Rat := frameLen / throughputBps + guardS

end Sys2Proof.Config
end

