-- ==== Sys2Proof/Syntax.lean ====
section
/-! DEFINITION. The nine commands of R73, one constructor per row of spec/opcode_table.json. -/

namespace Sys2Proof

/-- A command (R73). The operand is the value R72 assembles: a byte for form B, 24 bits for form W. -/
inductive Instr where
  /-- NOP (R140), form Z. -/
  | nop
  /-- CLR (R141), form Z. -/
  | clr
  /-- CKCLR (R102), form Z. -/
  | ckclr
  /-- CKADD `b` (R103), form B. -/
  | ckadd (b : Byte)
  /-- NAMECH `c` (R110), form W. -/
  | namech (c : Imm)
  /-- SETLEN `n` (R111), form W. -/
  | setlen (n : Imm)
  /-- START (R112), form Z. -/
  | start
  /-- DATA `b` (R123), form B. -/
  | data (b : Byte)
  /-- READ `r` (R142), form B; well-formed only for `r <= 6` (R74). -/
  | read (r : Byte)
  deriving DecidableEq, Repr

/-- The three operand forms of R71. -/
inductive Form where
  | Z | B | W
  deriving DecidableEq, Repr

end Sys2Proof
end

