-- ==== Sys2Proof/WellFormed.lean ====
section
/-! DEFINITION. When an `Instr` is a command of R73: the operand widths are in the types, so the one check
left is condition (3) of R74, the register number of READ. -/

namespace Sys2Proof

/-- Register numbers 0 to 6 exist; 7 to 255 do not (R34, R51). -/
def Instr.registerExists (r : Byte) : Bool := decide (r.toNat < Config.nRegs)

/-- R74 on the syntax. -/
def Instr.wellFormed : Instr → Bool
  | .nop => true
  | .clr => true
  | .ckclr => true
  | .ckadd _ => true
  | .namech _ => true
  | .setlen _ => true
  | .start => true
  | .data _ => true
  | .read r => Instr.registerExists r

end Sys2Proof
end

