-- ==== Sys2Proof/Decode.lean ====
section
/-! DEFINITION. Command words: R70 to R75. The decoder is total and rejects by name; the encoder is written
from the same tables (R71, R73). A word is presented whole (R56): there is no byte order here. -/

namespace Sys2Proof

/-! ### Fields (R70) -/

/-- `op = w[31:24]`. -/
def opField (w : Word) : BitVec 8 := w.extractLsb' 24 8
/-- `imm = w[23:0]`. -/
def immField (w : Word) : Imm := w.extractLsb' 0 24
/-- `imm[23:8]`, which form B wants to be zero (R71). -/
def immHigh (imm : Imm) : BitVec 16 := imm.extractLsb' 8 16
/-- `imm[7:0]`, the operand of form B (R72). -/
def immByte (imm : Imm) : Byte := imm.extractLsb' 0 8

/-- The pseudocode `WellFormed(w)` of R74, on the word. -/
def wellFormedWord (w : Word) : Bool :=
  let op := (opField w).toNat
  let imm := immField w
  if op ∈ [0x00, 0x01, 0x02, 0x06] then imm == 0
  else if op ∈ [0x03, 0x07] then immHigh imm == 0
  else if op ∈ [0x04, 0x05] then true
  else if op = 0x08 then immHigh imm == 0 && decide ((immByte imm).toNat ≤ 6)
  else false

/-! ### Decoder -/

/-- Why a word is malformed: the three kinds of R75. All of them fault alike (ILL). -/
inductive Malformed where
  /-- Opcodes 0x09 to 0xFF. -/
  | undefinedOpcode
  /-- A must-be-zero bit of the form is one. -/
  | reservedBits
  /-- READ of a register 7 to 255. -/
  | noSuchRegister
  deriving DecidableEq, Repr

/-- Form Z: no operand, all of `imm` zero (R71). -/
def formZ (i : Instr) (imm : Imm) : Except Malformed Instr :=
  if imm = 0 then .ok i else .error .reservedBits

/-- Form B: `imm[7:0]` is the operand, `imm[23:8]` zero (R71). -/
def formB (f : Byte → Instr) (imm : Imm) : Except Malformed Instr :=
  if immHigh imm = 0 then .ok (f (immByte imm)) else .error .reservedBits

/-- Form W: all of `imm` is the operand (R71). -/
def formW (f : Imm → Instr) (imm : Imm) : Except Malformed Instr := .ok (f imm)

/-- Condition (3) of R74 on what form B gave. -/
def checkRegister : Except Malformed Instr → Except Malformed Instr
  | .ok i => if i.wellFormed then .ok i else .error .noSuchRegister
  | .error e => .error e

/-- R73: the command a word is, or why it is none. -/
def decode (w : Word) : Except Malformed Instr :=
  let imm := immField w
  match (opField w).toNat with
  | 0x00 => formZ .nop imm
  | 0x01 => formZ .clr imm
  | 0x02 => formZ .ckclr imm
  | 0x03 => formB .ckadd imm
  | 0x04 => formW .namech imm
  | 0x05 => formW .setlen imm
  | 0x06 => formZ .start imm
  | 0x07 => formB .data imm
  | 0x08 => checkRegister (formB .read imm)
  | _ => .error .undefinedOpcode

/-- The host's view of the decoder. A command is one 32-bit word (R70), so the bits `w` of the first `nbits`
are the whole word; every bit above them is 0 (entry 11, DEDUCED, safe). -/
def decodeTableWord (nbits w : Nat) : Option Instr :=
  match decode (BitVec.ofNat 32 (w % 2 ^ nbits)) with
  | .ok i => some i
  | .error _ => none

/-! ### Encoder -/

/-- The `op` column of R73. -/
def Instr.opcode : Instr → BitVec 8
  | .nop => 0x00
  | .clr => 0x01
  | .ckclr => 0x02
  | .ckadd _ => 0x03
  | .namech _ => 0x04
  | .setlen _ => 0x05
  | .start => 0x06
  | .data _ => 0x07
  | .read _ => 0x08

/-- The `imm` field of each form (R71): zero for Z, the byte with zeros above it for B, all 24 bits for W. -/
def Instr.operand : Instr → Imm
  | .nop => 0
  | .clr => 0
  | .ckclr => 0
  | .ckadd b => b.zeroExtend 24
  | .namech c => c
  | .setlen n => n
  | .start => 0
  | .data b => b.zeroExtend 24
  | .read r => r.zeroExtend 24

/-- The word of a command: `op << 24 | operand` (R70, R84). -/
def encode (i : Instr) : Word := i.opcode ++ i.operand

/-! ### The opcode map of R73 as a table -/

/-- One row of R73: a word `w` matches the row when `w & mask = pattern`. -/
structure OpcodeRow where
  mnemonic : String
  form : Form
  pattern : Word
  mask : Word
  deriving DecidableEq, Repr

/-- The nine rows of R73. -/
def opcodeRows : List OpcodeRow :=
  [ ⟨"NOP", .Z, 0x00000000, 0xFFFFFFFF⟩, ⟨"CLR", .Z, 0x01000000, 0xFFFFFFFF⟩,
    ⟨"CKCLR", .Z, 0x02000000, 0xFFFFFFFF⟩, ⟨"CKADD", .B, 0x03000000, 0xFFFFFF00⟩,
    ⟨"NAMECH", .W, 0x04000000, 0xFF000000⟩, ⟨"SETLEN", .W, 0x05000000, 0xFF000000⟩,
    ⟨"START", .Z, 0x06000000, 0xFFFFFFFF⟩, ⟨"DATA", .B, 0x07000000, 0xFFFFFF00⟩,
    ⟨"READ", .B, 0x08000000, 0xFFFFFF00⟩ ]

/-- A word matches a row (R73). -/
def OpcodeRow.accepts (row : OpcodeRow) (w : Word) : Bool := w &&& row.mask == row.pattern

/-- The row a command belongs to, by its place in `opcodeRows`. -/
def Instr.row (i : Instr) : OpcodeRow :=
  opcodeRows.getD i.opcode.toNat ⟨"", .Z, 0, 0⟩

end Sys2Proof
end

