-- ==== Sys2Proof/Machine/State.lean ====
section
/-! DEFINITION. The state: the ten items of R20, the three channels of R59 with what has passed over them, the
sink of 45_transmitter.md, and the schedule that says which agent moves next. Plain data throughout. -/

namespace Sys2Proof.Machine

/-! ### The block (R20) -/

/-- `PHASE` (R26). Codes 5 and 6 are left out of the type (W6). -/
inductive Phase where
  /-- 0: loading name and length, or using the accumulator alone. -/
  | idle
  /-- 1: sending the 16 header bytes. -/
  | hdr
  /-- 2: passing payload bytes through. -/
  | data
  /-- 3: sending the two bytes of DataChecksum. -/
  | dck
  /-- 4: the frame is complete. -/
  | done
  /-- 7: a fault was taken. -/
  | err
  deriving DecidableEq, Repr

/-- The ten items of R20, 166 bits (C7), and nothing else. -/
structure Block where
  /-- `ACC` (R21): the running wraparound sum. -/
  acc : Half
  /-- `LEN` (R22): the declared payload length. -/
  len : Imm
  /-- `NAME[0..11]` (R23): the encoded FileName field. -/
  name : Vector Byte 12
  /-- `NCNT` (R24): the name write index. -/
  ncnt : BitVec 4
  /-- `REM` (R25): payload bytes still to be accepted. -/
  rem : Half
  /-- `PHASE` (R26): the sequencer's phase. -/
  phase : Phase
  /-- `IDX` (R27): the byte index inside phase HDR or DCK. -/
  idx : BitVec 4
  /-- `ENC` (R29): a non-ASCII name character was presented. -/
  enc : Bool
  /-- `SEQ` (R31): a command was issued in a phase where it is not legal. -/
  seq : Bool
  /-- `ILL` (R32): a malformed word was issued. -/
  ill : Bool
  deriving DecidableEq, Repr

/-- The values of R39 and R201, the same after hardware reset and after CLR. -/
def Block.reset : Block where
  acc := 0
  len := 0
  name := Vector.replicate 12 0
  ncnt := 0
  rem := 0
  phase := .idle
  idx := 0
  enc := false
  seq := false
  ill := false

/-- One transfer on the output channel: the byte and the `last` marker (R13, R59, R60). -/
structure OutByte where
  byte : Byte
  last : Bool
  deriving DecidableEq, Repr

/-! ### The sink: the document's Transmitter (R150 to R164) -/

/-- The states of R158, `Idle → Open → Writing → Settling → Closed`. -/
inductive SinkState where
  | idle | opened | writing | settling | closed
  deriving DecidableEq, Repr

/-- The result of `send` (R151, R159). -/
inductive SendResult where
  | ok
  | failed (e : Config.TransmissionError)
  deriving DecidableEq, Repr

/-- What the `open` primitive gives (R152): the byte sink, configured as it was opened. -/
structure ByteSink where
  /-- The port, the line discipline and the read timeout it was opened with (R152, R153). -/
  args : Config.OpenArgs
  deriving DecidableEq, Repr

/-- The Transmitter joined to the output channel by R161. -/
structure Sink where
  /-- Where `send` is (R158). -/
  state : SinkState
  /-- The byte sink that is acquired (R152, R153), until it is released (R157). -/
  acquired : Option ByteSink
  /-- Whether the sink would take a byte now, for its own reasons (R61: an input the block does not control). -/
  ready : Bool
  /-- `n` of R161: bytes taken for this frame. -/
  count : Nat
  /-- Whether the byte with `last = 1` has been taken (R161: it ends the frame). -/
  ended : Bool
  /-- Bytes taken that have not left on the line, oldest first (R155, U7). -/
  uart : List Byte
  /-- Every byte that has left on the line, oldest first. -/
  line : List Byte
  /-- What `send` returned, once it has (R151). -/
  result : Option SendResult
  deriving DecidableEq, Repr

/-- A Transmitter before its `send`: state `Idle` (R158), nothing acquired. -/
def Sink.fresh : Sink where
  state := .idle
  acquired := none
  ready := false
  count := 0
  ended := false
  uart := []
  line := []
  result := none

/-! ### Who moves next -/

/-- What the host may do at the command channel (R59, R215). -/
inductive HostMove where
  /-- Issue one more word, after those already issued. -/
  | issue (w : Word)
  /-- Stop presenting the word that is held (R77, "still presented"; entry 13, DEDUCED, safe). -/
  | retract
  deriving DecidableEq, Repr

/-- What the sink may do of itself, besides taking a byte that the block presents. -/
inductive SinkMove where
  /-- Step 1 of `send`, with its `sink_config` (R151) and whether the byte sink could be acquired (R153). -/
  | openSink (c : Config.SinkConfig) (ok : Bool)
  /-- `Open → Writing` (R158). -/
  | beginWrite
  /-- Raise or lower the ready line (R61, R161). -/
  | setReady (b : Bool)
  /-- The oldest byte inside the UART leaves on the line (R155, U7). -/
  | drain
  /-- A write fails or is partial (R154). -/
  | writeFails
  /-- Step 3 of `send`, with whether the flush succeeded (R155). -/
  | flush (ok : Bool)
  /-- The settle delay of R156 has run. -/
  | settleDone
  /-- The sink is restarted: a fresh Transmitter for the next `send` (R164, R205). -/
  | restart
  deriving DecidableEq, Repr

/-- One move of one agent (R15, R63). -/
inductive Move where
  /-- The block takes the step it is enabled for, or waits. -/
  | block
  /-- Hardware reset (R200). -/
  | hardReset
  /-- The host. -/
  | host (m : HostMove)
  /-- The sink. -/
  | sink (m : SinkMove)
  deriving DecidableEq, Repr

/-! ### The whole -/

/-- The block and its environment. -/
structure State extends Block where
  /-- The command channel: the words the host has issued and the block has not accepted, oldest first. The
  head is the word presented (R59 (1)). -/
  cmd : List Word
  /-- The response channel: every value responded, oldest first (R59 (2), R143). An observation. -/
  responses : List Word
  /-- The trace `T` of R60, oldest first. An observation. -/
  trace : List OutByte
  /-- The sink on the output channel (R59 (3)). -/
  sink : Sink
  /-- Premise (d) of R216, R213: with nothing scheduled, the sink goes on by itself. The model's own field
  (entry 2, DESIGN CHOICE, unsafe). -/
  sinkFair : Bool
  /-- The moves the agents make next, oldest first: which of them moves is not the block's to say (R63). The
  model's own field (entry 1, DESIGN CHOICE, unsafe). -/
  schedule : List Move
  deriving DecidableEq, Repr

/-- The machine right after hardware reset (R39, R201): no word presented, nothing emitted or responded, the
sink not yet opened, nothing scheduled. The values that are not the block's: entries 2 and 3 (DESIGN CHOICE,
unsafe). -/
def State.reset : State where
  toBlock := Block.reset
  cmd := []
  responses := []
  trace := []
  sink := Sink.fresh
  sinkFair := true
  schedule := []

/-! ### Stops -/

/-- The machine never stops with a fault: the four faults of R170 are entries to phase ERR, which is a next
state. Nobody raises a value of this type, so it has none. -/
inductive Fault where
  deriving DecidableEq, Repr

/-- Why there is no next state. -/
inductive Refusal where
  /-- Raised by no arm of this model: every command has its meaning. Safe. -/
  | notModelled (mnemonic : String)
  /-- Raised by the block's own move from a state that W6 and W7 say to refuse: `NCNT` above 12, `IDX` above 1
  in DCK, `REM` above `LEN`, or `REM = 0` in DATA (R105). No such state is reached (R33). Safe (entry 4,
  DEDUCED). -/
  | unreachableState
  deriving DecidableEq, Repr

end Sys2Proof.Machine
end

