-- ==== Sys2Proof/Machine/Operands.lean ====
section
/-! DEFINITION. Operand and index reads: zero extension (R72), the name buffer (R23, R52), the header byte of
R121, the three 16-bit fields' bytes (R12, R55). -/

namespace Sys2Proof.Machine

/-- `zext_16(b)` (R72, R100). -/
def zext16 (b : Byte) : Half := b.zeroExtend 16

/-- Bits 7:0 of a 16-bit value: the byte sent first (R55). -/
def lowByte (v : Half) : Byte := v.extractLsb' 0 8

/-- Bits 15:8 of a 16-bit value: the byte sent second (R55). -/
def highByte (v : Half) : Byte := v.extractLsb' 8 8

/-- `le16(v) = [v[7:0], v[15:8]]` (R12). -/
def le16 (v : Half) : List Byte := [lowByte v, highByte v]

/-- `LEN[15:0]`: the Size field (R79). -/
def Block.size (b : Block) : Half := b.len.extractLsb' 0 16

/-- Reading `NAME[i]` (R13), `i` in 0..11. -/
def Block.nameByte (b : Block) (i : Nat) : Byte := b.name.toList.getD i 0

/-- `hdr(i)` of R121, `i` in 0..15. -/
def Block.headerByte (b : Block) (i : Nat) : Byte :=
  if i = 0 then lowByte b.size
  else if i = 1 then highByte b.size
  else if i ≤ 13 then b.nameByte (i - 2)
  else if i = 14 then lowByte b.acc
  else highByte b.acc

/-- One word of three views `NAMEw` of R37: the byte sent first in bits 7:0. -/
def Block.nameView (b : Block) (w : Nat) : Word :=
  b.nameByte (4 * w + 3) ++ b.nameByte (4 * w + 2) ++ b.nameByte (4 * w + 1) ++ b.nameByte (4 * w)

end Sys2Proof.Machine
end

