-- ==== Sys2Proof/Machine/Flags.lean ====
section
/-! DEFINITION. The derived flag `BIG` (R30), STATUS (R35), the register views (R34, R36, R37, R142), the
status outputs (R41) and the frame offset `OFS` (R28). All are functions of the state and are not state. -/

namespace Sys2Proof.Machine

/-- The codes of R26. -/
def Phase.code : Phase → BitVec 3
  | .idle => 0
  | .hdr => 1
  | .data => 2
  | .dck => 3
  | .done => 4
  | .err => 7

/-- One flag as a bit. -/
def flagBit (b : Bool) : BitVec 1 := BitVec.ofBool b

/-- `BIG` (R30): `LEN > 65535`. -/
def Block.big (b : Block) : Bool := decide (Config.maxData < b.len.toNat)

/-- STATUS, register 0 (R35), from bit 31 down: reserved 31:12, `NCNT` 11:8, `ILL`, `SEQ`, `BIG`, `ENC`,
reserved 3, `PHASE` 2:0. The reserved bits read as 0, always (W8). -/
def Block.status (b : Block) : Word :=
  (0 : BitVec 20) ++ b.ncnt ++ flagBit b.ill ++ flagBit b.seq ++ flagBit b.big ++ flagBit b.enc ++
    (0 : BitVec 1) ++ b.phase.code

/-- `RegView(r)` of R142, `r` in 0..6. -/
def Block.regView (b : Block) (r : Nat) : Word :=
  match r with
  | 0 => b.status
  | 1 => b.acc.zeroExtend 32
  | 2 => b.len.zeroExtend 32
  | 3 => b.rem.zeroExtend 32
  | r + 4 => b.nameView r

/-- The output `done` (R41): 1 exactly in phase DONE. -/
def Block.doneOut (b : Block) : Bool := decide (b.phase = .done)

/-- The output `fault` (R41): 1 exactly in phase ERR. -/
def Block.faultOut (b : Block) : Bool := decide (b.phase = .err)

/-- `OFS` (R28): the offset of the next byte to emit, in every phase but ERR. -/
def Block.ofs (b : Block) : Option Nat :=
  match b.phase with
  | .idle => some 0
  | .hdr => some b.idx.toNat
  | .data => some (16 + (b.len.toNat - b.rem.toNat))
  | .dck => some (16 + b.len.toNat + b.idx.toNat)
  | .done => if b.len = 0 then some 16 else some (18 + b.len.toNat)
  | .err => none

/-- The states from which a rule of the block starts: W6 and W7 refuse the others, and R105 says DATA finds
`REM >= 1` (entry 4, DEDUCED, safe). -/
def Block.inRange (b : Block) : Bool :=
  decide (b.ncnt.toNat ≤ Config.nameLen) &&
  (decide (b.phase ≠ .dck) || decide (b.idx.toNat ≤ 1)) &&
  decide (b.rem.toNat ≤ b.len.toNat) &&
  (decide (b.phase ≠ .data) || decide (1 ≤ b.rem.toNat))

end Sys2Proof.Machine
end

