-- ==== Sys2Proof/Machine/Sink.lean ====
section
/-! DEFINITION. The sink: the document's Transmitter (R150 to R164) joined to the output channel (R161). A move
that the sink's state does not allow changes nothing. -/

namespace Sys2Proof.Machine

/-- `out_ready` (R61, R161): raised only in `Writing`, at times of the sink's own choosing, and not after the
byte that ended the frame (entry 6, DEDUCED, unsafe). -/
def Sink.outReady (k : Sink) : Bool := decide (k.state = .writing) && k.ready && !k.ended

/-- Whether the byte sink is acquired (R157). -/
def Sink.held (k : Sink) : Bool := k.acquired.isSome

/-- The `open` primitive (R152): a byte sink configured with its six arguments, or an error. -/
def ByteSink.acquire (args : Config.OpenArgs) (ok : Bool) : Except Config.TransmissionError ByteSink :=
  if ok then .ok ⟨args⟩ else .error .openFailed

/-- Taking one byte from the output channel (R161): it goes to the opened sink (the `write` primitive of R152 with
no error), and `last = 1` ends the frame. -/
def Sink.take (k : Sink) (o : OutByte) : Sink :=
  { k with count := k.count + 1, uart := k.uart ++ [o.byte], ended := k.ended || o.last }

/-- Step 5, release (R157), with the result `send` returns: the `close` primitive (R152), which cannot fail. Bytes
still inside the UART are lost: "closing the sink before this elapses truncates the transmission on the wire"
(R156, R210; entry 9, DEDUCED, unsafe). -/
def Sink.release (k : Sink) (r : SendResult) : Sink :=
  { k with state := .closed, acquired := none, ready := false, uart := [], result := some r }

/-- Step 1, open (R153): acquire a byte sink on the port of the `sink_config`, configured for the fixed line
discipline, or end `Closed` with `Open` (R158). -/
def Sink.openSink (k : Sink) (c : Config.SinkConfig) (ok : Bool) : Sink :=
  if k.state = .idle then
    match ByteSink.acquire (Config.openArgs c) ok with
    | .ok b => { k with state := .opened, acquired := some b }
    | .error e => k.release (.failed e)
  else k

/-- `Open → Writing` (R158). -/
def Sink.beginWrite (k : Sink) : Sink :=
  if k.state = .opened then { k with state := .writing } else k

/-- The ready line (R61, R161). -/
def Sink.setReady (k : Sink) (b : Bool) : Sink :=
  if k.state = .writing then { k with ready := b } else k

/-- One byte leaves the UART on the line (R155, U7; entry 9, DEDUCED, unsafe). -/
def Sink.drain (k : Sink) : Sink :=
  match k.uart with
  | [] => k
  | b :: bs => { k with uart := bs, line := k.line ++ [b] }

/-- `n` bytes, or all there are, leave the UART one after another. -/
def Sink.drains (n : Nat) (k : Sink) : Sink :=
  match n with
  | 0 => k
  | n + 1 => (k.drain).drains n

/-- A failed or partial write (R154, R158): `Closed` with `Write`, the sink released. How much of the frame had
left on the line is what `drain` had let out (U9). -/
def Sink.writeFails (k : Sink) : Sink :=
  if k.state = .writing then k.release (.failed .writeFailed) else k

/-- Step 3, flush, at the end of `Writing` (R155, R158; entry 17, DEDUCED, safe). It delivers nothing by itself
(U7). -/
def Sink.flush (k : Sink) (ok : Bool) : Sink :=
  if k.state = .writing ∧ k.ended = true then
    if ok then { k with state := .settling, ready := false } else k.release (.failed Config.flushErrKind)
  else k

/-- Steps 4 and 5 on success (R156, R157, R160): the settle delay has run, every byte has left the transmitter,
and the sink is released. -/
def Sink.settleDone (k : Sink) : Sink :=
  if k.state = .settling then ({ k with line := k.line ++ k.uart } : Sink).release .ok else k

/-- A fresh Transmitter: "constructed fresh per invocation", "one operation per process invocation" (R164,
R205). What has left on the line stays there. -/
def Sink.restart (k : Sink) : Sink := { Sink.fresh with line := k.line }

/-- The settle delay of this frame (R156, R161): a function of the bytes taken (entry 10, DEDUCED, safe). -/
def Sink.settleSeconds (k : Sink) : Rat := Config.settleSeconds k.count

/-- One move of the sink. A move that the state does not allow changes nothing (entry 20, DEDUCED, safe). -/
def Sink.move (k : Sink) : SinkMove → Sink
  | .openSink c ok => k.openSink c ok
  | .beginWrite => k.beginWrite
  | .setReady b => k.setReady b
  | .drain => k.drain
  | .writeFails => k.writeFails
  | .flush ok => k.flush ok
  | .settleDone => k.settleDone
  | .restart => k.restart

/-- The move a fair sink makes of itself (R213): it finishes the frame whose last byte it has taken, and while
the block presents a byte (`wanted`) it works its way to raising the ready line. A sink whose `send` failed does
nothing more of itself: "there is no retry" (R159), and `out_ready` stays false (R161, R206; entry 7, DEDUCED,
safe). When a fair sink opens: entry 15 (DESIGN CHOICE, unsafe). That its acquisition, its writes and its flush
succeed: R213 asks of a fair sink only that it raises `out_ready` until the last byte is taken, and leaves the
flush open; the choice is the model's (entry 21, DESIGN CHOICE, unsafe). A scheduled move can fail any of them. -/
def Sink.fairMove (k : Sink) (wanted : Bool) : Option SinkMove :=
  match k.state with
  | .writing =>
    if k.ended then some (.flush true)
    else if wanted && !k.ready then some (.setReady true) else none
  | .settling => some .settleDone
  | .idle => if wanted then some (.openSink Config.sinkConfig true) else none
  | .opened => some .beginWrite
  | .closed => if wanted && decide (k.result = some .ok) then some .restart else none

/-- `send(sink_config, frame)` (R151, R153 to R158) as one function of the sink, with the outcomes of the byte
sink's primitives: the five steps in order, the frame's bytes taken one at a time (R161). Only the first
`written` bytes are taken before a write that fails. Of the bytes taken, `delivered` (or all, if fewer) have left
on the line when the write fails or the flush returns: how many is open (U7, U9: "any value"), so it is an
argument and nothing is chosen for it. That the rest is lost at a release and goes out by the end of the settle
delay is entry 9 (DEDUCED, unsafe). -/
def Sink.send (k : Sink) (c : Config.SinkConfig) (f : List OutByte) (openOk writeOk flushOk : Bool)
    (written delivered : Nat) : Sink :=
  let k := ((k.openSink c openOk).beginWrite).setReady true
  if k.outReady then
    if writeOk then (((f.foldl Sink.take k).drains delivered).flush flushOk).settleDone
    else (((f.take written).foldl Sink.take k).drains delivered).writeFails
  else k

end Sys2Proof.Machine
end

