-- ==== Sys2Proof/Machine/Ops.lean ====
section
/-! DEFINITION. The named operations of R13 (`Emit`, `Respond`, `raise Fault`), the adder of R100, the readiness
rules R61 and R62, and the legality table R77 with the dispatch of R76. -/

namespace Sys2Proof.Machine

/-- `add8` (R100): `(a + zext_16(b)) mod 65536`. -/
def add8 (a : Half) (b : Byte) : Half := a + zext16 b

/-- `NAME[NCNT] <- c; NCNT <- NCNT + 1` (R110, R52). -/
def Block.storeName (b : Block) (c : Byte) : Block :=
  { b with name := b.name.setIfInBounds b.ncnt.toNat c, ncnt := b.ncnt + 1 }

/-! ### Channels -/

/-- `out_ready` (R61). -/
def State.outReady (s : State) : Bool := s.sink.outReady

/-- `Emit(b, last)` (R13, R60): one transfer on the output channel. -/
def State.emit (s : State) (b : Byte) (last : Bool) : State :=
  { s with trace := s.trace ++ [⟨b, last⟩], sink := s.sink.take ⟨b, last⟩ }

/-- `Respond(v)` (R13, R143). -/
def State.respond (s : State) (v : Word) : State := { s with responses := s.responses ++ [v] }

/-- A word is a well-formed DATA command (R62, R73). -/
def isDataWord (w : Word) : Bool := w &&& 0xFFFFFF00 == 0x07000000

/-- `cmd_ready` (R62), for the word presented. -/
def State.cmdReady (s : State) (w : Word) : Bool :=
  match s.phase with
  | .hdr => false
  | .dck => false
  | .data => if isDataWord w then s.outReady else true
  | .idle => true
  | .done => true
  | .err => true

/-! ### Faults: entry and return -/

/-- The four faults of R170. -/
inductive FaultKind where
  | enc | big | seq | ill
  deriving DecidableEq, Repr

/-- Fault entry, `raise Fault(k)` (R176): the flag of SEQ or ILL, `PHASE <- ERR`, and nothing else (entry 16,
DEDUCED, safe). -/
def State.raiseFault (s : State) (k : FaultKind) : State :=
  match k with
  | .enc => { s with phase := .err }
  | .big => { s with phase := .err }
  | .seq => { s with seq := true, phase := .err }
  | .ill => { s with ill := true, phase := .err }

/-- CLR's effect (R141), the return from a fault (R180): every item of R20 to its reset value. -/
def State.clear (s : State) : State := { s with toBlock := Block.reset }

/-! ### Legality (R77) and dispatch (R76) -/

/-- The rows of R77 that differ. -/
inductive CmdClass where
  /-- NOP, CLR, READ. -/
  | system
  /-- CKCLR, CKADD, NAMECH, SETLEN, START. -/
  | load
  /-- DATA. -/
  | payload
  /-- A malformed word. -/
  | malformed
  deriving DecidableEq, Repr

/-- The entries of R77. -/
inductive Verdict where
  | legal | hold | seq | ill | drop
  deriving DecidableEq, Repr

/-- The table of R77, column by column; `ready` is `out_ready`, which a DATA in phase DATA needs (R61). NOP in
ERR is "drop (same as legal)". -/
def verdict (c : CmdClass) (p : Phase) (ready : Bool) : Verdict :=
  match p, c with
  | .hdr, _ => .hold
  | .dck, _ => .hold
  | .err, .system => .legal
  | .err, _ => .drop
  | _, .malformed => .ill
  | _, .system => .legal
  | .idle, .load => .legal
  | .idle, .payload => .seq
  | .data, .load => .seq
  | .data, .payload => if ready then .legal else .hold
  | .done, .load => .seq
  | .done, .payload => .seq

/-- R76: a command step of one word of class `c`, whose effect where it is legal is `effect`. A held word and a
dropped word change nothing (entry 5, DEDUCED, safe). -/
def runCommand (c : CmdClass) (effect : State → State) (s : State) : Host.Outcome State Fault Refusal :=
  match verdict c s.phase s.outReady with
  | .legal => .next (effect s)
  | .hold => .next s
  | .drop => .next s
  | .seq => .next (s.raiseFault .seq)
  | .ill => .next (s.raiseFault .ill)

/-- A malformed word (R74, R174, R179): ILL in IDLE, DATA and DONE, dropped in ERR, held in HDR and DCK. -/
def takeMalformed (s : State) : Host.Outcome State Fault Refusal := runCommand .malformed (fun t => t) s

end Sys2Proof.Machine
end

