-- ==== Sys2Proof/Machine/Checksum.lean ====
section
/-! DEFINITION. The checksum accumulator alone: CKCLR and CKADD (40_checksum.md). -/

namespace Sys2Proof.Machine

/-- R102: `ACC <- 0`. -/
def ckclrEffect (s : State) : State := { s with acc := 0 }

/-- CKCLR (R102). -/
def execCkclr (s : State) : Host.Outcome State Fault Refusal := runCommand .load ckclrEffect s

/-- R103: `ACC <- add8(ACC, b)`. -/
def ckaddEffect (b : Byte) (s : State) : State := { s with acc := add8 s.acc b }

/-- CKADD `b` (R103). -/
def execCkadd (b : Byte) (s : State) : Host.Outcome State Fault Refusal := runCommand .load (ckaddEffect b) s

end Sys2Proof.Machine
end

