-- ==== Sys2Proof/Machine/Load.lean ====
section
/-! DEFINITION. Loading a frame: NAMECH, SETLEN, START (41_frame_load.md). -/

namespace Sys2Proof.Machine

/-- R110: the test on the code comes before the test on `NCNT`; a 13th or later ASCII character is dropped. -/
def namechEffect (c : Imm) (s : State) : State :=
  if Config.asciiMax < c.toNat then { s with enc := true }
  else if s.ncnt.toNat < Config.nameLen then { s with toBlock := s.toBlock.storeName (immByte c) }
  else s

/-- NAMECH `c` (R110). -/
def execNamech (c : Imm) (s : State) : Host.Outcome State Fault Refusal :=
  runCommand .load (namechEffect c) s

/-- R111: `LEN <- n`. -/
def setlenEffect (n : Imm) (s : State) : State := { s with len := n }

/-- SETLEN `n` (R111). -/
def execSetlen (n : Imm) (s : State) : Host.Outcome State Fault Refusal := runCommand .load (setlenEffect n) s

/-- R112: ENC before BIG (R178), and otherwise the header begins. `IDX` is not written (C8). -/
def startEffect (s : State) : State :=
  if s.enc then s.raiseFault .enc
  else if s.big then s.raiseFault .big
  else { s with acc := 0, phase := .hdr }

/-- START (R112). -/
def execStart (s : State) : Host.Outcome State Fault Refusal :=
  runCommand .load startEffect s

end Sys2Proof.Machine
end

