-- ==== Sys2Proof/Machine/Sequencer.lean ====
section
/-! DEFINITION. The frame sequencer (42_sequencer.md): the header emit step, DATA, the trailer emit step, and
what the block presents on the output channel. -/

namespace Sys2Proof.Machine

/-- The header emit step (R122), of a state with `PHASE = HDR` and `out_ready`. Every read sees the values from
before the step (R13). -/
def headerEmit (s : State) : State :=
  let i := s.idx.toNat
  let b := s.headerByte i
  let t := s.emit b (decide (i = 15) && decide (s.len = 0))
  if i ≤ 13 then { t with acc := add8 s.acc b, idx := s.idx + 1 }
  else if i < 15 then { t with idx := s.idx + 1 }
  else if s.len = 0 then { t with idx := 0, phase := .done }
  else { t with idx := 0, acc := 0, rem := s.size, phase := .data }

/-- The trailer emit step (R124), of a state with `PHASE = DCK` and `out_ready`. -/
def trailerEmit (s : State) : State :=
  if s.idx = 0 then { s.emit (lowByte s.acc) false with idx := 1 }
  else { s.emit (highByte s.acc) true with idx := 0, phase := .done }

/-- R123: the byte passes through unchanged, is added, and is counted; the last one moves on to DCK. -/
def dataEffect (b : Byte) (s : State) : State :=
  let t := s.emit b false
  if s.rem = 1 then { t with acc := add8 s.acc b, rem := s.rem - 1, phase := .dck }
  else { t with acc := add8 s.acc b, rem := s.rem - 1 }

/-- DATA `b` (R123). -/
def execData (b : Byte) (s : State) : Host.Outcome State Fault Refusal :=
  runCommand .payload (dataEffect b) s

/-- What the block presents to the sink (R59 (3)): the next byte of the header or the trailer, or the byte of
the DATA command that is on the command channel in phase DATA. -/
def State.presented (s : State) : Option OutByte :=
  match s.phase with
  | .hdr =>
    some ⟨s.headerByte s.idx.toNat, decide (s.idx.toNat = 15) && decide (s.len = 0)⟩
  | .dck => some (if s.idx = 0 then ⟨lowByte s.acc, false⟩ else ⟨highByte s.acc, true⟩)
  | .data =>
    match s.cmd with
    | [] => none
    | w :: _ => if isDataWord w then some ⟨immByte (immField w), false⟩ else none
  | .idle => none
  | .done => none
  | .err => none

end Sys2Proof.Machine
end

