-- ==== Sys2Proof/Machine/System.lean ====
section
/-! DEFINITION. The system commands: NOP, CLR, READ (43_system.md). -/

namespace Sys2Proof.Machine

/-- R140: no change to any state, nothing emitted, no response. -/
def nopEffect (s : State) : State := s

/-- NOP (R140). -/
def execNop (s : State) : Host.Outcome State Fault Refusal := runCommand .system nopEffect s

/-- CLR (R141): the reset state of the block; the trace, the responses and the sink are not touched. -/
def execClr (s : State) : Host.Outcome State Fault Refusal := runCommand .system State.clear s

/-- R142: one response, the view the register number names, and no change of state. -/
def readEffect (r : Byte) (s : State) : State := s.respond (s.regView r.toNat)

/-- READ `r` (R142). A register above 6 makes the word malformed: no response (R143; entry 19, DEDUCED, safe). -/
def execRead (r : Byte) (s : State) : Host.Outcome State Fault Refusal :=
  if Instr.registerExists r then runCommand .system (readEffect r) s else takeMalformed s

end Sys2Proof.Machine
end

