-- ==== Sys2Proof/Machine/Dispatch.lean ====
section
/-! DEFINITION. One arm per command of R73: what a command presented at `s` does (R76), a held one included. -/

namespace Sys2Proof.Machine

def exec (i : Instr) (s : State) : Host.Outcome State Fault Refusal :=
  match i with
  | .nop => Sys2Proof.Machine.execNop s
  | .clr => Sys2Proof.Machine.execClr s
  | .ckclr => Sys2Proof.Machine.execCkclr s
  | .ckadd b => Sys2Proof.Machine.execCkadd b s
  | .namech c => Sys2Proof.Machine.execNamech c s
  | .setlen n => Sys2Proof.Machine.execSetlen n s
  | .start => Sys2Proof.Machine.execStart s
  | .data b => Sys2Proof.Machine.execData b s
  | .read r => Sys2Proof.Machine.execRead r s

end Sys2Proof.Machine
end

