-- ==== Sys2Proof/Machine/Agents.lean ====
section
/-! DEFINITION. The agents of R15 and R63: the block (command steps and emit steps), hardware reset, the host,
the sink; and what happens when nothing is scheduled. -/

namespace Sys2Proof.Machine

/-- A word the block accepts: its command, or what a malformed word does (R76). -/
def acceptWord (w : Word) (s : State) : Host.Outcome State Fault Refusal :=
  match decode w with
  | .ok i => exec i s
  | .error _ => takeMalformed s

/-- Whether some step of the block is enabled (R61, R62, R63): an emit step in HDR and DCK, a command step in
the other phases. -/
def State.blockEnabled (s : State) : Bool :=
  match s.phase with
  | .hdr => s.outReady
  | .dck => s.outReady
  | _ =>
    match s.cmd with
    | [] => false
    | w :: _ => s.cmdReady w

/-- The step of the block: the one step that is enabled (R63). Where none is, "the block waits in its present
state with no change" (R61, R206, R207). States that W6 and W7 refuse are refused. -/
def blockMove (s : State) : Host.Outcome State Fault Refusal :=
  if s.inRange then
    if s.blockEnabled then
      match s.phase with
      | .hdr => .next (headerEmit s)
      | .dck => .next (trailerEmit s)
      | _ =>
        match s.cmd with
        | [] => .next s
        | w :: ws => acceptWord w { s with cmd := ws }
    else .next s
  else .refused .unreachableState

/-- Hardware reset (R200): every item of R20 to its value of R201, whatever the state before. The trace starts
empty by definition (R60). A word presented is not accepted; the sink and the responses are not touched (entry
12, DEDUCED, safe). -/
def hardReset (s : State) : State := { s with toBlock := Block.reset, trace := [] }

/-- The host at the command channel (R59, R215). -/
def hostMove (m : HostMove) (s : State) : State :=
  match m with
  | .issue w => { s with cmd := s.cmd ++ [w] }
  | .retract => { s with cmd := s.cmd.tail }

/-- One move of one agent. -/
def runMove (m : Move) (s : State) : Host.Outcome State Fault Refusal :=
  match m with
  | .block => blockMove s
  | .hardReset => .next (hardReset s)
  | .host h => .next (hostMove h s)
  | .sink k => .next { s with sink := s.sink.move k }

/-- Nothing scheduled: the block's step if one is enabled; otherwise the move of a fair sink; otherwise nothing
happens (the block waits for a word, or for a sink that never gets ready: R206, R207). Entries 1 and 2 (DESIGN
CHOICE, unsafe). -/
def defaultMove (s : State) : Host.Outcome State Fault Refusal :=
  if s.blockEnabled then blockMove s
  else if s.sinkFair then
    match s.sink.fairMove s.presented.isSome with
    | some k => .next { s with sink := s.sink.move k }
    | none => .next s
  else .next s

end Sys2Proof.Machine
end

