-- ==== Sys2Proof/Machine/Step.lean ====
section
/-! DEFINITION. One step of the machine: one move of one agent (R15), in one total order (R63). -/

namespace Sys2Proof.Machine

/-- The move at the head of the schedule, or the default. -/
def step (s : State) : Host.Outcome State Fault Refusal :=
  match s.schedule with
  | [] => defaultMove s
  | m :: ms => runMove m { s with schedule := ms }

/-- The word `w` (the bits above `nbits` zero) presented on the command channel before any other, and nothing
scheduled before the block's own step. The block accepts it in the very next step in IDLE, DATA, DONE and ERR
(a DATA in phase DATA needs `out_ready`); in HDR and DCK no word is accepted (R62). Entry 11 (DEDUCED, safe). -/
def State.withFetchWord (s : State) (nbits w : Nat) : State :=
  { s with cmd := BitVec.ofNat 32 (w % 2 ^ nbits) :: s.cmd, schedule := [] }

end Sys2Proof.Machine
end

