-- ==== Sys2Proof/Machine/Assembler.lean ====
section
/-! DEFINITION. The spec's assembler: command lines (R84) and pseudo-instructions (R85). It refuses, with
`none`, a line that is not of that form or whose operand does not fit. -/

namespace Sys2Proof.Machine

/-! ### Pseudo-instructions on values (R85) -/

/-- `NAME "s"`: one NAMECH per character code. -/
def pseudoName (codes : List Imm) : List Instr := codes.map .namech

/-- `PAYLOAD b0, b1, ...`: one DATA per byte. -/
def pseudoPayload (bytes : List Byte) : List Instr := bytes.map .data

/-- `CHECKSUM b0, b1, ...`: CKCLR, one CKADD per byte, `READ ACC`. -/
def pseudoChecksum (bytes : List Byte) : List Instr := .ckclr :: bytes.map .ckadd ++ [.read 1]

/-- `UPLOAD "s", b0, b1, ...`; refused when the number of bytes does not fit SETLEN (R85, R215, W9). -/
def pseudoUpload (codes : List Imm) (bytes : List Byte) : Option (List Instr) :=
  if bytes.length ≤ Config.maxSetlen then
    some (.clr :: pseudoName codes ++ [.setlen (BitVec.ofNat 24 bytes.length), .start] ++ pseudoPayload bytes)
  else none

/-- `DELETE "s"`. -/
def pseudoDelete (codes : List Imm) : List Instr := .clr :: pseudoName codes ++ [.setlen 0, .start]

/-! ### Tokens of a line -/

/-- What a line is made of. -/
inductive Token where
  /-- A mnemonic, a register name or a number, as its characters. -/
  | word (cs : List Char)
  /-- A character in single quotes. -/
  | quoted (c : Char)
  /-- A string in double quotes. -/
  | text (cs : List Char)
  | comma
  deriving DecidableEq, Repr

/-- Where the reading of a line is. Characters read so far are kept in reverse. -/
inductive LexState where
  | between
  | inWord (acc : List Char)
  | quoteOpen
  | quoteClose (c : Char)
  | inText (acc : List Char)
  deriving DecidableEq, Repr

/-- A space or a tab between tokens (entry 14, DESIGN CHOICE, unsafe). -/
def isBlank (c : Char) : Bool := c == ' ' || c == '\t'

/-- The tokens of the rest of a line; `;` outside quotes starts a comment to the end of the line (R84). -/
def lexLine : LexState → List Char → Option (List Token)
  | .between, [] => some []
  | .inWord acc, [] => some [.word acc.reverse]
  | .quoteOpen, [] => none
  | .quoteClose _, [] => none
  | .inText _, [] => none
  | .between, c :: cs =>
    if c == ';' then some []
    else if isBlank c then lexLine .between cs
    else if c == ',' then (lexLine .between cs).map (.comma :: ·)
    else if c == '\'' then lexLine .quoteOpen cs
    else if c == '"' then lexLine (.inText []) cs
    else lexLine (.inWord [c]) cs
  | .inWord acc, c :: cs =>
    if c == ';' then some [.word acc.reverse]
    else if isBlank c then (lexLine .between cs).map (.word acc.reverse :: ·)
    else if c == ',' then (lexLine .between cs).map (fun ts => .word acc.reverse :: .comma :: ts)
    else if c == '\'' || c == '"' then none
    else lexLine (.inWord (c :: acc)) cs
  | .quoteOpen, c :: cs => lexLine (.quoteClose c) cs
  | .quoteClose q, c :: cs => if c == '\'' then (lexLine .between cs).map (.quoted q :: ·) else none
  | .inText acc, c :: cs =>
    if c == '"' then (lexLine .between cs).map (.text acc.reverse :: ·) else lexLine (.inText (c :: acc)) cs

/-! ### Operands (R84) -/

/-- A digit's value in base 16. -/
def digitValue (c : Char) : Option Nat :=
  let n := c.toNat
  if 48 ≤ n ∧ n ≤ 57 then some (n - 48)
  else if 65 ≤ n ∧ n ≤ 70 then some (n - 55)
  else if 97 ≤ n ∧ n ≤ 102 then some (n - 87)
  else none

/-- Digits read in a base, most significant first, after `acc`. -/
def readDigits (base : Nat) : Nat → List Char → Option Nat
  | acc, [] => some acc
  | acc, c :: cs =>
    match digitValue c with
    | none => none
    | some d => if d < base then readDigits base (acc * base + d) cs else none

/-- A decimal number, or `0x` and a hexadecimal number. -/
def readNumber (cs : List Char) : Option Nat :=
  match cs with
  | [] => none
  | '0' :: 'x' :: ds => if ds.isEmpty then none else readDigits 16 0 ds
  | ds => readDigits 10 0 ds

/-- The register names of READ, for 0 to 6 (R84). -/
def registerName (cs : List Char) : Option Nat :=
  if cs = "STATUS".toList then some 0
  else if cs = "ACC".toList then some 1
  else if cs = "LEN".toList then some 2
  else if cs = "REM".toList then some 3
  else if cs = "NAME0".toList then some 4
  else if cs = "NAME1".toList then some 5
  else if cs = "NAME2".toList then some 6
  else none

/-- An operand: a number, or a character for its code. -/
def operandValue : Token → Option Nat
  | .word cs => readNumber cs
  | .quoted c => some c.toNat
  | .text _ => none
  | .comma => none

/-- An operand of READ: a register name too. -/
def readOperand : Token → Option Nat
  | .word cs => (registerName cs).orElse (fun _ => readNumber cs)
  | t => operandValue t

/-- An operand that fits form B. -/
def fitByte (n : Option Nat) : Option Byte :=
  n.bind (fun v => if v < 2 ^ 8 then some (BitVec.ofNat 8 v) else none)

/-- An operand that fits form W. -/
def fitImm (n : Option Nat) : Option Imm :=
  n.bind (fun v => if v < 2 ^ 24 then some (BitVec.ofNat 24 v) else none)

/-- `b0, b1, ...`: bytes with commas between them; nothing for no bytes. -/
def byteList : List Token → Option (List Byte)
  | [] => some []
  | [t] => (fitByte (operandValue t)).map ([·])
  | t :: .comma :: u :: ts =>
    match fitByte (operandValue t), byteList (u :: ts) with
    | some b, some bs => some (b :: bs)
    | _, _ => none
  | _ => none

/-- The codes of a string's characters (R85). -/
def textCodes (cs : List Char) : List Imm := cs.map (fun c => BitVec.ofNat 24 c.toNat)

/-! ### Lines -/

/-- A command with no operand. -/
def noOperand (i : Instr) : List Token → Option (List Instr)
  | [] => some [i]
  | _ => none

/-- A command with one operand. -/
def oneOperand (f : Token → Option Instr) : List Token → Option (List Instr)
  | [t] => (f t).map ([·])
  | _ => none

/-- The payload that may follow a string: nothing, or a comma and bytes. -/
def payloadTail : List Token → Option (List Byte)
  | [] => some []
  | .comma :: t :: ts => byteList (t :: ts)
  | _ => none

/-- What a mnemonic makes of its operands (R84, R85). -/
def assembleWith (m : List Char) (ops : List Token) : Option (List Instr) :=
  if m = "NOP".toList then noOperand .nop ops
  else if m = "CLR".toList then noOperand .clr ops
  else if m = "CKCLR".toList then noOperand .ckclr ops
  else if m = "CKADD".toList then oneOperand (fun t => (fitByte (operandValue t)).map .ckadd) ops
  else if m = "NAMECH".toList then oneOperand (fun t => (fitImm (operandValue t)).map .namech) ops
  else if m = "SETLEN".toList then oneOperand (fun t => (fitImm (operandValue t)).map .setlen) ops
  else if m = "START".toList then noOperand .start ops
  else if m = "DATA".toList then oneOperand (fun t => (fitByte (operandValue t)).map .data) ops
  else if m = "READ".toList then oneOperand (fun t => (fitByte (readOperand t)).map .read) ops
  else if m = "PAYLOAD".toList then (byteList ops).map pseudoPayload
  else if m = "CHECKSUM".toList then (byteList ops).map pseudoChecksum
  else
    match ops with
    | .text cs :: rest =>
      if m = "UPLOAD".toList then (payloadTail rest).bind (pseudoUpload (textCodes cs))
      else if m = "NAME".toList && rest.isEmpty then some (pseudoName (textCodes cs))
      else if m = "DELETE".toList && rest.isEmpty then some (pseudoDelete (textCodes cs))
      else none
    | _ => none

/-- One line: nothing for a blank line or a comment, else a mnemonic and its operands (R84). -/
def assembleLine (cs : List Char) : Option (List Instr) :=
  match lexLine .between cs with
  | some [] => some []
  | some (.word m :: ops) => assembleWith m ops
  | _ => none

/-- A program text, one command a line, as command words: `op << 24 | operand` (R84). -/
def assemble : List (List Char) → Option (List Word)
  | [] => some []
  | l :: ls =>
    match assembleLine l, assemble ls with
    | some is, some ws => some (is.map encode ++ ws)
    | _, _ => none

end Sys2Proof.Machine
end

