-- ==== Sys2Proof/Machine/Frame.lean ====
section
/-! DEFINITION. The frame as functions of bytes, apart from the machine: the checksum (R101), the name (R80),
the frame (R78 to R83), the document's builders and their errors (R83, R114, R170, R181), the inverse of the
frame (R86), and the `last` markers (R125). -/

namespace Sys2Proof.Machine

/-- `sum(s)` (R12): the exact integer sum. -/
def byteSum : List Byte → Nat
  | [] => 0
  | b :: bs => b.toNat + byteSum bs

/-- `checksum(s) = sum(s) mod 65536` (R101). -/
def checksum (s : List Byte) : Half := BitVec.ofNat 16 (byteSum s % Config.ckMod)

/-- `encname(cs)` (R80): defined when every code is at most 0x7F; cut or zero-padded to 12. -/
def encname (cs : List Imm) : Option (List Byte) :=
  if cs.all (fun c => decide (c.toNat ≤ Config.asciiMax)) then
    some ((cs.take Config.nameLen).map immByte ++ List.replicate (Config.nameLen - cs.length) 0)
  else none

/-- The sixteen header bytes of a frame with Size `size` and name `n12` (R78, R79, R81). -/
def frameHeader (size : Half) (n12 : List Byte) : List Byte :=
  le16 size ++ n12 ++ le16 (checksum (le16 size ++ n12))

/-- `frame(n12, data)` (R83), for `len(n12) = 12` and `len(data) <= 65535`. -/
def frame (n12 data : List Byte) : List Byte :=
  let hdr := frameHeader (BitVec.ofNat 16 data.length) n12
  if data.isEmpty then hdr else hdr ++ data ++ le16 (checksum data)

/-- The document's two build errors (R4 (c), R170). -/
inductive BuildError where
  /-- EncodingError, "filename not ASCII-representable". -/
  | encodingError
  /-- FileTooLargeError, "payload exceeds the 65535-byte field capacity". -/
  | fileTooLargeError
  deriving DecidableEq, Repr

/-- `build_upload(name, data)` (R83, R113, R114), the name checked before the size (R178). -/
def buildUpload (name : List Imm) (data : List Byte) : Except BuildError (List Byte) :=
  match encname name with
  | none => .error .encodingError
  | some n12 => if Config.maxData < data.length then .error .fileTooLargeError else .ok (frame n12 data)

/-- `build_delete(name)`: "equivalent to `build_upload(name, empty)`" (R83, R129). -/
def buildDelete (name : List Imm) : Except BuildError (List Byte) := buildUpload name []

/-- A frame's bytes with their markers (R125): `last = 1` on the final byte and on no other. -/
def markLast : List Byte → List OutByte
  | [] => []
  | [b] => [⟨b, true⟩]
  | b :: c :: bs => ⟨b, false⟩ :: markLast (c :: bs)

/-- Bytes that are not the end of a frame. -/
def markNone (bs : List Byte) : List OutByte := bs.map (fun b => ⟨b, false⟩)

/-- Two bytes read little-endian (R86). -/
def fromLe16 (lo hi : Byte) : Half := hi ++ lo

/-- What R86's receiver reads from a frame. -/
structure Parsed where
  name : List Byte
  data : List Byte
  deriving DecidableEq, Repr

/-- The two bytes at the head of a list, if they are `le16(c)`. -/
def checkLe16 (c : Half) (bs : List Byte) : Bool := bs.take Config.ckBytes == le16 c

/-- The inverse of the frame (R86), on the bytes of one frame: the header's length and checksum, the Size, the
payload of that size, its checksum, and nothing after it. The name is cut at its first zero byte. -/
def parseFrame (bs : List Byte) : Option Parsed :=
  let covered := bs.take Config.hdrCovered
  let rest := bs.drop Config.hdrLen
  match bs with
  | lo :: hi :: _ =>
    let size := (fromLe16 lo hi).toNat
    let name := (covered.drop Config.sizeBytes).takeWhile (fun b => decide (b ≠ 0))
    if bs.length < Config.hdrLen || !checkLe16 (checksum covered) (bs.drop Config.hdrCovered) then none
    else if size = 0 then if rest.isEmpty then some ⟨name, []⟩ else none
    else if rest.length = size + Config.ckBytes && checkLe16 (checksum (rest.take size)) (rest.drop size) then
      some ⟨name, rest.take size⟩
    else none
  | _ => none

end Sys2Proof.Machine
end

