-- ==== Sys2Proof/Safety.lean ====
section
/-! DEFINITION. What holds in every state that a run reaches (R33), the frame on the wire (R60, R83, R125 to
R128), the resource rule of the sink (R157, R158), and what a safe run is. -/

namespace Sys2Proof.Machine

/-! ### R33 (a) to (g), on the ten items -/

/-- `NAME[0..11]` as the bytes that are sent (R23). -/
def Block.nameBytes (b : Block) : List Byte := b.name.toList

/-- R33 (a) to (g). Clause `rem_le` is W7 ("`REM > LEN`" is unreachable) for every phase. -/
structure Block.Inv (b : Block) : Prop where
  /-- (a) -/
  ncnt_le : b.ncnt.toNat ≤ 12
  /-- (a) -/
  name_padded : ∀ i < 12, b.ncnt.toNat ≤ i → b.nameByte i = 0
  /-- (a) -/
  name_ascii : ∀ i < 12, (b.nameByte i).toNat ≤ 0x7F
  /-- (b) -/
  phase_code : b.phase.code.toNat ∈ [0, 1, 2, 3, 4, 7]
  /-- (c) -/
  sending_clean : b.phase ∈ [Phase.hdr, .data, .dck, .done] →
    b.enc = false ∧ b.len.toNat ≤ 65535 ∧ b.seq = false ∧ b.ill = false
  /-- (d) -/
  idx_hdr : b.phase = .hdr → b.idx.toNat ≤ 15
  /-- (d) -/
  idx_dck : b.phase = .dck → b.idx.toNat ≤ 1
  /-- (d) -/
  idx_zero : b.phase ∉ [Phase.hdr, .dck] → b.idx = 0
  /-- (e) -/
  rem_data : b.phase = .data → 1 ≤ b.rem.toNat ∧ b.rem.toNat ≤ b.len.toNat
  /-- (e) -/
  rem_zero : b.phase ∈ [Phase.idle, .hdr, .dck, .done] → b.rem = 0
  /-- (f) -/
  err_cause : b.phase = .err → b.enc = true ∨ b.big = true ∨ b.seq = true ∨ b.ill = true
  /-- (f) -/
  stored_fault : b.seq = true ∨ b.ill = true → b.phase = .err
  /-- (g) -/
  one_fault : ¬(b.seq = true ∧ b.ill = true)
  /-- W7 -/
  rem_le : b.rem.toNat ≤ b.len.toNat

/-! ### R33 (h) to (k), with the bytes of the frame that have gone out -/

/-- The sixteen header bytes of the frame that the block is sending (R53, R78 to R81). -/
def Block.frameHeader (b : Block) : List Byte := Machine.frameHeader b.size b.nameBytes

/-- What the end of the trace and `ACC` are in each phase: R33 (h) to (k), and R125 to R128 for the bytes and
their markers. `before` is what the trace held before this frame (R60); `d` is the payload accepted so far. -/
def State.FrameInv (s : State) : Prop :=
  match s.phase with
  | .idle => True
  | .err => True
  | .hdr => ∃ before sent : _, s.trace = before ++ markNone sent ∧ sent = s.frameHeader.take s.idx.toNat ∧
      s.acc = checksum (sent.take 14)
  | .data => ∃ before d, s.trace = before ++ markNone (s.frameHeader ++ d) ∧
      d.length + s.rem.toNat = s.len.toNat ∧ s.acc = checksum d
  | .dck => ∃ before d, s.trace = before ++ markNone (s.frameHeader ++ d ++ (le16 (checksum d)).take s.idx.toNat) ∧
      d.length = s.len.toNat ∧ 0 < d.length ∧ s.acc = checksum d
  | .done => ∃ before d, s.trace = before ++ markLast (frame s.nameBytes d) ∧ d.length = s.len.toNat ∧
      (s.len = 0 → s.acc = checksum (s.frameHeader.take 14)) ∧ (s.len ≠ 0 → s.acc = checksum d)

/-- The invariant of R33, with the frame on the wire. -/
def State.Inv (s : State) : Prop := s.toBlock.Inv ∧ s.FrameInv

/-! ### The sink as a scoped resource -/

/-- R157, R158: the byte sink is held exactly in `Open`, `Writing` and `Settling`; `send` has a result exactly
in `Closed`; the ready line is up only in `Writing` (R161); the byte sink that is held has the fixed line
discipline (R153). Clause `uart_live`, that a released sink has nothing left to send, is the model's choice
(entry 9, DEDUCED, unsafe). -/
structure Sink.Inv (k : Sink) : Prop where
  held_iff : k.held = true ↔ k.state ∈ [SinkState.opened, .writing, .settling]
  result_iff : k.result.isSome = true ↔ k.state = .closed
  ready_writing : k.ready = true → k.state = .writing
  uart_live : k.uart ≠ [] → k.state ∈ [SinkState.writing, .settling]
  discipline : ∀ b, k.acquired = some b → b.args.baud = 900 ∧ b.args.dataBits = 8 ∧ b.args.parity = .none ∧
    b.args.stopBits = 1 ∧ b.args.timeout = Config.readTimeout
  settling_ended : k.state = .settling → k.ended = true
  ended_late : k.ended = true → k.state ∈ [SinkState.writing, .settling, .closed]

/-! ### Words that fault -/

/-- What R74 and R174 say of a malformed word that the block accepts: ILL in IDLE, DATA and DONE, no effect in
ERR. -/
def TakesIll (w : Word) : Prop :=
  ∀ s : State,
    (s.phase ∈ [Phase.idle, .data, .done] → acceptWord w s = .next { s with ill := true, phase := .err }) ∧
    (s.phase = .err → acceptWord w s = .next s)

/-! ### Runs -/

/-- A state that some schedule of the agents' moves and some words of the host lead to. Each start is the reset
state of R201 with the environment's part of the state as it may be. -/
inductive Reachable : State → Prop where
  | start (s : State) (block : s.toBlock = Block.reset) (trace : s.trace = []) (sink : s.sink = Sink.fresh) : Reachable s
  | step (s t : State) (before : Reachable s) (moved : Machine.step s = .next t) : Reachable t

/-- A run is safe at `s` when the machine goes on: the spec's machine never stops (R170: its faults are entries
to phase ERR; R206, R207: its waits change nothing). -/
def State.GoesOn (s : State) : Prop := ∃ t, Machine.step s = .next t

end Sys2Proof.Machine
end

