-- ==== Sys2Proof/Certificates/Slice0/Obligations.lean ====
section
/-! DEFINITION. The statements for the provers. Each docstring names the rules of spec/ that it formalises. The
Lean spells the rule out in numbers and record updates, and not by the definition that codes it, wherever the
rule gives them. -/

open Sys2Proof Sys2Proof.Machine

/-! ### Words and commands -/

/-- Every well-formed command is read back from its word, with every operand (R70 to R74). -/
def Obligations.DecodeOfEncodeIsTheCommand : Prop :=
  ∀ i : Instr, i.wellFormed = true → decode (encode i) = .ok i

/-- A word that decodes is the word of its command, bit for bit, and the command is well-formed. -/
def Obligations.EncodeOfDecodeIsTheWord : Prop :=
  ∀ (w : Word) (i : Instr), decode w = .ok i → encode i = w ∧ i.wellFormed = true

/-- R73: "a word `w` is the command of a row exactly when `w & mask = match` and, for READ, the register number
is at most 6", for the nine rows, with the operand R72 assembles. -/
def Obligations.WordIsCommandOfItsRow : Prop :=
  ∀ w : Word,
    (decode w = .ok .nop ↔ w &&& 0xFFFFFFFF = 0x00000000) ∧
    (decode w = .ok .clr ↔ w &&& 0xFFFFFFFF = 0x01000000) ∧
    (decode w = .ok .ckclr ↔ w &&& 0xFFFFFFFF = 0x02000000) ∧
    (∀ b, decode w = .ok (.ckadd b) ↔ w &&& 0xFFFFFF00 = 0x03000000 ∧ b.toNat = w.toNat % 2 ^ 8) ∧
    (∀ c, decode w = .ok (.namech c) ↔ w &&& 0xFF000000 = 0x04000000 ∧ c.toNat = w.toNat % 2 ^ 24) ∧
    (∀ n, decode w = .ok (.setlen n) ↔ w &&& 0xFF000000 = 0x05000000 ∧ n.toNat = w.toNat % 2 ^ 24) ∧
    (decode w = .ok .start ↔ w &&& 0xFFFFFFFF = 0x06000000) ∧
    (∀ b, decode w = .ok (.data b) ↔ w &&& 0xFFFFFF00 = 0x07000000 ∧ b.toNat = w.toNat % 2 ^ 8) ∧
    (∀ r, decode w = .ok (.read r) ↔
      w &&& 0xFFFFFF00 = 0x08000000 ∧ r.toNat = w.toNat % 2 ^ 8 ∧ w.toNat % 2 ^ 8 ≤ 6)

/-- R74: a word is well-formed exactly by the three conditions, and any other word is malformed: accepted in
IDLE, DATA or DONE it takes ILL, and in ERR it is dropped. That none is accepted in HDR and DCK is
`WordAcceptedExactlyWhenReady`. -/
def Obligations.WellFormedWordsAreTheOnesThatDecode : Prop :=
  ∀ w : Word,
    let op := w.toNat / 2 ^ 24
    let imm := w.toNat % 2 ^ 24
    ((∃ i, decode w = .ok i) ↔
      (op ∈ [0x00, 0x01, 0x02, 0x06] ∧ imm = 0) ∨ (op ∈ [0x03, 0x07] ∧ imm / 2 ^ 8 = 0) ∨
      op ∈ [0x04, 0x05] ∨ (op = 0x08 ∧ imm / 2 ^ 8 = 0 ∧ imm % 2 ^ 8 ≤ 6)) ∧
    ((¬∃ i, decode w = .ok i) → TakesIll w)

/-- Words written out from R73 and R84, one per row, and one for each way of being malformed (R75). -/
def Obligations.SampleWordsDecode : Prop :=
  decode 0x00000000 = .ok .nop ∧ decode 0x01000000 = .ok .clr ∧ decode 0x02000000 = .ok .ckclr ∧
  decode 0x03000061 = .ok (.ckadd 0x61) ∧ decode 0x0400006D = .ok (.namech 0x6D) ∧
  decode 0x05000003 = .ok (.setlen 3) ∧ decode 0x06000000 = .ok .start ∧
  decode 0x07000061 = .ok (.data 0x61) ∧ decode 0x08000001 = .ok (.read 1) ∧
  decode 0xFFFFFFFF = .error .undefinedOpcode ∧ decode 0x09000000 = .error .undefinedOpcode ∧
  decode 0x03000100 = .error .reservedBits ∧ decode 0x08000007 = .error .noSuchRegister

/-- The examples of R84, the refused operand of R84, and the expansion of `DELETE` of R85, as text. -/
def Obligations.AssemblerExamples : Prop :=
  assemble ["NAMECH 'm'".toList, "SETLEN 3 ; the length".toList, "START".toList, "DATA 0x61".toList,
      "READ ACC".toList] = some [0x0400006D, 0x05000003, 0x06000000, 0x07000061, 0x08000001] ∧
  assemble ["CKADD 256".toList] = none ∧
  assemble ["DELETE \"a\"".toList] = some [0x01000000, 0x04000061, 0x05000000, 0x06000000] ∧
  assemble ["UPLOAD \"b\", 0xFF".toList] = some [0x01000000, 0x04000062, 0x05000001, 0x06000000, 0x070000FF]

/-! ### Steps -/

/-- When the presented word decodes to `i` and is ready to be accepted, the block's step is `exec i` once the
word is taken from the channel; whether the step is scheduled or is the default. That the block moves first when
nothing is scheduled is the model's choice (entry 1). -/
def Obligations.StepRunsTheDecodedCommand : Prop :=
  ∀ (s : State) (w : Word) (ws : List Word) (i : Instr), s.cmd = w :: ws → decode w = .ok i →
    s.inRange = true → s.phase ≠ .hdr → s.phase ≠ .dck → s.cmdReady w = true →
    (s.schedule = [] → step s = exec i { s with cmd := ws }) ∧
    (∀ ms, s.schedule = .block :: ms → step s = exec i { s with cmd := ws, schedule := ms })

/-- R174, R176, R179: an accepted malformed word takes ILL in IDLE, DATA and DONE, and is dropped in ERR. -/
def Obligations.MalformedWordTakesIll : Prop :=
  ∀ (s : State) (w : Word) (ws : List Word) (ms : List Move) (e : Malformed), s.cmd = w :: ws →
    decode w = .error e → s.inRange = true → s.schedule = .block :: ms →
    (s.phase ∈ [Phase.idle, .data, .done] →
      step s = .next { s with cmd := ws, schedule := ms, ill := true, phase := .err }) ∧
    (s.phase = .err → step s = .next { s with cmd := ws, schedule := ms })

/-- R62: a presented word is accepted exactly when `cmd_ready`, and stays presented otherwise. The default order of
moves is the model's choice (entry 1). -/
def Obligations.WordAcceptedExactlyWhenReady : Prop :=
  ∀ (s t : State) (w : Word) (ws : List Word), s.cmd = w :: ws → s.schedule = [] → step s = .next t →
    (((s.phase = .hdr ∨ s.phase = .dck) → t.cmd = w :: ws) ∧
     ((s.phase = .data ∧ w &&& 0xFFFFFF00 = 0x07000000) → t.cmd = if s.outReady then ws else w :: ws) ∧
     (¬(s.phase = .hdr ∨ s.phase = .dck) → ¬(s.phase = .data ∧ w &&& 0xFFFFFF00 = 0x07000000) → t.cmd = ws))

/-- R179: phase ERR performs CLR and READ, drops every other word, and accepts every word at once. -/
def Obligations.ErrPhaseActsOnClrAndReadOnly : Prop :=
  ∀ (s : State) (w : Word) (ws : List Word) (ms : List Move), s.cmd = w :: ws → s.phase = .err →
    s.inRange = true → s.schedule = .block :: ms →
    (w = 0x01000000 → step s = .next { s with cmd := ws, schedule := ms, toBlock := State.reset.toBlock }) ∧
    (w &&& 0xFFFFFF00 = 0x08000000 → w.toNat % 2 ^ 8 ≤ 6 →
      step s = .next
        { s with cmd := ws, schedule := ms, responses := s.responses ++ [s.regView (w.toNat % 2 ^ 8)] }) ∧
    (w ≠ 0x01000000 → ¬(w &&& 0xFFFFFF00 = 0x08000000 ∧ w.toNat % 2 ^ 8 ≤ 6) →
      step s = .next { s with cmd := ws, schedule := ms })

/-- W6 and W7: the block's move refuses the states the spec says to refuse, whatever is presented. The last of
them, `REM = 0` in DATA, is the model's reading of R105 (entry 4). -/
def Obligations.OutOfRangeStatesAreRefused : Prop :=
  ∀ (s : State) (ms : List Move), s.schedule = .block :: ms →
    (12 < s.ncnt.toNat ∨ (s.phase = .dck ∧ 1 < s.idx.toNat) ∨ s.len.toNat < s.rem.toNat ∨
      (s.phase = .data ∧ s.rem = 0)) → step s = .refused .unreachableState

/-! ### Reset -/

/-- R201: the state after reset, with the derived and output values. -/
def Obligations.StateAfterReset : Prop :=
  let s := State.reset
  s.acc = 0x0000 ∧ s.len = 0x000000 ∧ (∀ i < 12, s.nameByte i = 0x00) ∧ s.ncnt = 0 ∧ s.rem = 0x0000 ∧
  s.phase = .idle ∧ s.idx = 0 ∧ s.enc = false ∧ s.seq = false ∧ s.ill = false ∧
  s.big = false ∧ s.ofs = some 0 ∧ s.status = 0x00000000 ∧ s.doneOut = false ∧ s.faultOut = false ∧
  (∀ w, s.cmdReady w = true) ∧ s.presented = none

/-- R200: hardware reset in any state, the refused ones too: every item of R20 at its reset value, the trace
empty, a presented word not accepted, nothing responded, the sink not touched. -/
def Obligations.HardwareResetFromAnyState : Prop :=
  ∀ (s : State) (ms : List Move), s.schedule = .hardReset :: ms →
    step s = .next
      { s with acc := 0, len := 0, name := Vector.replicate 12 0, ncnt := 0, rem := 0, phase := .idle, idx := 0,
               enc := false, seq := false, ill := false, trace := [], schedule := ms }

/-! ### The nine commands, each rule whole: encoding, effect where it is legal, and every other phase -/

/-- R140. -/
def Obligations.NopChangesNothing : Prop :=
  encode .nop = 0x00000000 ∧ (∀ s : State, exec .nop s = .next s) ∧
  (∀ w : Word, w.toNat / 2 ^ 24 = 0x00 → w.toNat % 2 ^ 24 ≠ 0 → TakesIll w)

/-- R141. The last clause is corner case (4). -/
def Obligations.ClrGivesTheResetState : Prop :=
  encode .clr = 0x01000000 ∧
  (∀ s : State,
    (s.phase ≠ .hdr → s.phase ≠ .dck →
      exec .clr s = .next
        { s with acc := 0, len := 0, name := Vector.replicate 12 0, ncnt := 0, rem := 0, enc := false,
                 seq := false, ill := false, idx := 0, phase := .idle } ∧
      (∀ t, exec .clr s = .next t → t.toBlock = State.reset.toBlock ∧ t.big = false)) ∧
    (s.phase = .hdr ∨ s.phase = .dck → exec .clr s = .next s)) ∧
  (∀ w : Word, w.toNat / 2 ^ 24 = 0x01 → w.toNat % 2 ^ 24 ≠ 0 → TakesIll w)

/-- R102. -/
def Obligations.CkclrClearsTheAccumulator : Prop :=
  encode .ckclr = 0x02000000 ∧
  (∀ s : State,
    (s.phase = .idle → exec .ckclr s = .next { s with acc := 0 }) ∧
    (s.phase = .data ∨ s.phase = .done → exec .ckclr s = .next { s with seq := true, phase := .err }) ∧
    (s.phase = .err ∨ s.phase = .hdr ∨ s.phase = .dck → exec .ckclr s = .next s)) ∧
  (∀ w : Word, w.toNat / 2 ^ 24 = 0x02 → w.toNat % 2 ^ 24 ≠ 0 → TakesIll w)

/-- R103, R100: the sum is taken modulo 65536, the byte unsigned, and no flag records a carry. -/
def Obligations.CkaddAddsOneByte : Prop :=
  (∀ b : Byte, (encode (.ckadd b)).toNat = 0x03000000 + b.toNat) ∧
  (∀ (b : Byte) (s : State),
    (s.phase = .idle →
      exec (.ckadd b) s = .next { s with acc := BitVec.ofNat 16 ((s.acc.toNat + b.toNat) % 65536) }) ∧
    (s.phase = .data ∨ s.phase = .done → exec (.ckadd b) s = .next { s with seq := true, phase := .err }) ∧
    (s.phase = .err ∨ s.phase = .hdr ∨ s.phase = .dck → exec (.ckadd b) s = .next s)) ∧
  (∀ w : Word, w.toNat / 2 ^ 24 = 0x03 → w.toNat / 2 ^ 8 % 2 ^ 16 ≠ 0 → TakesIll w)

/-- R110: the code is tested before the room; an ASCII character with room is stored at `NAME[NCNT]`; a
non-ASCII one sets `ENC` at any position; a thirteenth ASCII one changes nothing. The last clause is corner case
(6): no command but CLR removes or overwrites a stored character. -/
def Obligations.NamechStoresOneCharacter : Prop :=
  (∀ c : Imm, (encode (.namech c)).toNat = 0x04000000 + c.toNat) ∧
  (∀ (c : Imm) (s : State),
    (s.phase = .idle → 0x7F < c.toNat → exec (.namech c) s = .next { s with enc := true }) ∧
    (s.phase = .idle → c.toNat ≤ 0x7F → s.ncnt.toNat < 12 →
      exec (.namech c) s = .next
        { s with name := s.name.setIfInBounds s.ncnt.toNat (BitVec.ofNat 8 c.toNat),
                 ncnt := BitVec.ofNat 4 (s.ncnt.toNat + 1) }) ∧
    (s.phase = .idle → c.toNat ≤ 0x7F → 12 ≤ s.ncnt.toNat → exec (.namech c) s = .next s) ∧
    (s.phase = .data ∨ s.phase = .done → exec (.namech c) s = .next { s with seq := true, phase := .err }) ∧
    (s.phase = .err ∨ s.phase = .hdr ∨ s.phase = .dck → exec (.namech c) s = .next s)) ∧
  (∀ w : Word, w.toNat / 2 ^ 24 = 0x04 → ∃ c, decode w = .ok (.namech c)) ∧
  (∀ (i : Instr) (s t : State), exec i s = .next t → i ≠ .clr →
    ∀ j < s.ncnt.toNat, t.nameByte j = s.nameByte j)

/-- R111, with the derived `BIG` of R30. -/
def Obligations.SetlenDeclaresTheLength : Prop :=
  (∀ n : Imm, (encode (.setlen n)).toNat = 0x05000000 + n.toNat) ∧
  (∀ (n : Imm) (s : State),
    (s.phase = .idle → exec (.setlen n) s = .next { s with len := n } ∧
      (({ s with len := n } : State).big = true ↔ 65535 < n.toNat)) ∧
    (s.phase = .data ∨ s.phase = .done → exec (.setlen n) s = .next { s with seq := true, phase := .err }) ∧
    (s.phase = .err ∨ s.phase = .hdr ∨ s.phase = .dck → exec (.setlen n) s = .next s)) ∧
  (∀ w : Word, w.toNat / 2 ^ 24 = 0x05 → ∃ n, decode w = .ok (.setlen n))

/-- R112, R178: ENC before BIG, no flag written, nothing emitted; and otherwise the header begins. -/
def Obligations.StartChecksAndBeginsTheHeader : Prop :=
  encode .start = 0x06000000 ∧
  (∀ s : State,
    (s.phase = .idle → s.enc = true → exec .start s = .next { s with phase := .err }) ∧
    (s.phase = .idle → s.enc = false → 65535 < s.len.toNat → exec .start s = .next { s with phase := .err }) ∧
    (s.phase = .idle → s.enc = false → s.len.toNat ≤ 65535 →
      exec .start s = .next { s with acc := 0, phase := .hdr }) ∧
    (s.phase = .data ∨ s.phase = .done → exec .start s = .next { s with seq := true, phase := .err }) ∧
    (s.phase = .err ∨ s.phase = .hdr ∨ s.phase = .dck → exec .start s = .next s)) ∧
  (∀ w : Word, w.toNat / 2 ^ 24 = 0x06 → w.toNat % 2 ^ 24 ≠ 0 → TakesIll w)

/-- R123: the byte goes to the sink unchanged, is added and counted, and the last one moves on to DCK. With the
sink not ready the command holds (R61, R62). `1 ≤ REM` is what R105 says of phase DATA. -/
def Obligations.DataPassesOneByteThrough : Prop :=
  (∀ b : Byte, (encode (.data b)).toNat = 0x07000000 + b.toNat) ∧
  (∀ (b : Byte) (s : State),
    (s.phase = .data → s.outReady = true → 1 ≤ s.rem.toNat →
      exec (.data b) s = .next
        { s with trace := s.trace ++ [⟨b, false⟩], sink := s.sink.take ⟨b, false⟩,
                 acc := BitVec.ofNat 16 ((s.acc.toNat + b.toNat) % 65536),
                 rem := BitVec.ofNat 16 (s.rem.toNat - 1),
                 phase := if s.rem.toNat = 1 then .dck else .data }) ∧
    (s.phase = .data → s.outReady = false → exec (.data b) s = .next s) ∧
    (s.phase = .idle ∨ s.phase = .done → exec (.data b) s = .next { s with seq := true, phase := .err }) ∧
    (s.phase = .err ∨ s.phase = .hdr ∨ s.phase = .dck → exec (.data b) s = .next s)) ∧
  (∀ w : Word, w.toNat / 2 ^ 24 = 0x07 → w.toNat / 2 ^ 8 % 2 ^ 16 ≠ 0 → TakesIll w)

/-- R142, R143: one response, the view of R142, and no change of state; held in HDR and DCK; a READ of a
register above 6 is malformed and gives no response. -/
def Obligations.ReadRespondsWithOneView : Prop :=
  (∀ r : Byte, (encode (.read r)).toNat = 0x08000000 + r.toNat) ∧
  (∀ (r : Byte) (s : State), r.toNat ≤ 6 → s.phase ≠ .hdr → s.phase ≠ .dck →
    ∃ v : Word, exec (.read r) s = .next { s with responses := s.responses ++ [v] } ∧
      (r = 0 → v.toNat = s.phase.code.toNat + (if s.enc then 16 else 0) +
        (if 65535 < s.len.toNat then 32 else 0) + (if s.seq then 64 else 0) + (if s.ill then 128 else 0) +
        256 * s.ncnt.toNat) ∧
      (r = 1 → v.toNat = s.acc.toNat) ∧ (r = 2 → v.toNat = s.len.toNat) ∧
      (r = 3 → v.toNat = s.rem.toNat) ∧
      (∀ k < 3, r.toNat = 4 + k → v.toNat =
        (s.nameByte (4 * k + 3)).toNat * 2 ^ 24 + (s.nameByte (4 * k + 2)).toNat * 2 ^ 16 +
        (s.nameByte (4 * k + 1)).toNat * 2 ^ 8 + (s.nameByte (4 * k)).toNat)) ∧
  (∀ (r : Byte) (s : State), s.phase = .hdr ∨ s.phase = .dck → exec (.read r) s = .next s) ∧
  (∀ (r : Byte) (s : State), 6 < r.toNat →
    (s.phase ∈ [Phase.idle, .data, .done] → exec (.read r) s = .next { s with ill := true, phase := .err }) ∧
    (s.phase = .err → exec (.read r) s = .next s)) ∧
  (∀ w : Word, w.toNat / 2 ^ 24 = 0x08 → (w.toNat / 2 ^ 8 % 2 ^ 16 ≠ 0 ∨ 6 < w.toNat % 2 ^ 8) →
    TakesIll w)

/-! ### The sequencer -/

/-- R121, R122: the header emit step, whole. -/
def Obligations.HeaderEmitStep : Prop :=
  ∀ (s : State) (ms : List Move), s.phase = .hdr → s.outReady = true → s.inRange = true →
    s.schedule = .block :: ms →
    ∃ b : Byte,
      (s.idx = 0 → b.toNat = s.len.toNat % 2 ^ 8) ∧ (s.idx = 1 → b.toNat = s.len.toNat / 2 ^ 8 % 2 ^ 8) ∧
      (2 ≤ s.idx.toNat → s.idx.toNat ≤ 13 → b = s.nameByte (s.idx.toNat - 2)) ∧
      (s.idx = 14 → b.toNat = s.acc.toNat % 2 ^ 8) ∧ (s.idx = 15 → b.toNat = s.acc.toNat / 2 ^ 8) ∧
      (s.idx.toNat ≤ 13 →
        step s = .next
          { s with schedule := ms, trace := s.trace ++ [⟨b, false⟩], sink := s.sink.take ⟨b, false⟩,
                   acc := BitVec.ofNat 16 ((s.acc.toNat + b.toNat) % 65536),
                   idx := BitVec.ofNat 4 (s.idx.toNat + 1) }) ∧
      (s.idx = 14 →
        step s = .next
          { s with schedule := ms, trace := s.trace ++ [⟨b, false⟩], sink := s.sink.take ⟨b, false⟩, idx := 15 }) ∧
      (s.idx = 15 → s.len = 0 →
        step s = .next
          { s with schedule := ms, trace := s.trace ++ [⟨b, true⟩], sink := s.sink.take ⟨b, true⟩, idx := 0, phase := .done }) ∧
      (s.idx = 15 → s.len ≠ 0 →
        step s = .next
          { s with schedule := ms, trace := s.trace ++ [⟨b, false⟩], sink := s.sink.take ⟨b, false⟩, idx := 0, acc := 0,
                   rem := BitVec.ofNat 16 (s.len.toNat % 65536), phase := .data })

/-- R124: the trailer emit step, whole. -/
def Obligations.TrailerEmitStep : Prop :=
  ∀ (s : State) (ms : List Move), s.phase = .dck → s.outReady = true → s.inRange = true →
    s.schedule = .block :: ms →
    (s.idx = 0 → ∃ b : Byte, b.toNat = s.acc.toNat % 2 ^ 8 ∧
      step s = .next
        { s with schedule := ms, trace := s.trace ++ [⟨b, false⟩], sink := s.sink.take ⟨b, false⟩, idx := 1 }) ∧
    (s.idx = 1 → ∃ b : Byte, b.toNat = s.acc.toNat / 2 ^ 8 ∧
      step s = .next
        { s with schedule := ms, trace := s.trace ++ [⟨b, true⟩], sink := s.sink.take ⟨b, true⟩, idx := 0, phase := .done })

/-- R126: START and the sixteen header emit steps, with a sink that is ready: exactly the sixteen bytes, the end
state, and no command accepted between START and the sixteenth byte. -/
def Obligations.StartSendsExactlyTheHeader : Prop :=
  ∀ (s : State) (ws : List Word) (ms : List Move), s.phase = .idle → s.enc = false → s.len.toNat ≤ 65535 →
    s.inRange = true → s.idx = 0 → s.outReady = true → s.schedule = List.replicate 17 .block ++ ms →
    s.cmd = 0x06000000 :: ws →
    let covered : List Byte :=
      [BitVec.ofNat 8 (s.len.toNat % 256), BitVec.ofNat 8 (s.len.toNat / 256)] ++ s.name.toList
    let sum := byteSum covered
    ∃ t : State, Sys2Proof.core.run 17 s = .next t ∧ t.cmd = ws ∧ t.schedule = ms ∧ t.idx = 0 ∧
      t.trace.map (·.byte) =
        s.trace.map (·.byte) ++ covered ++ [BitVec.ofNat 8 (sum % 256), BitVec.ofNat 8 (sum / 256)] ∧
      (s.len = 0 → t.phase = .done ∧ t.acc.toNat = sum) ∧
      (s.len ≠ 0 → t.phase = .data ∧ t.acc = 0 ∧ t.rem.toNat = s.len.toNat)

/-- R120: `PHASE` changes only along these edges, with the condition and the cause of each. A word that causes an
edge is accepted: it is taken from the channel. On the edge to ERR it is malformed (ILL, R74), or well-formed and
not legal in the phase (SEQ, R77), or START with ENC or BIG (R112). -/
def Obligations.PhaseChangesOnlyAlongTheGraph : Prop :=
  ∀ s t : State, step s = .next t → t.phase ≠ s.phase →
    (t.phase = .hdr →
      s.phase = .idle ∧ s.enc = false ∧ s.len.toNat ≤ 65535 ∧ s.cmd = 0x06000000 :: t.cmd) ∧
    (t.phase = .data → s.phase = .hdr ∧ s.idx = 15 ∧ s.len ≠ 0) ∧
    (t.phase = .dck → s.phase = .data ∧ s.rem = 1 ∧ ∃ w, s.cmd = w :: t.cmd ∧ w &&& 0xFFFFFF00 = 0x07000000) ∧
    (t.phase = .done → (s.phase = .hdr ∧ s.idx = 15 ∧ s.len = 0) ∨ (s.phase = .dck ∧ s.idx = 1)) ∧
    (t.phase = .err → s.phase ∈ [Phase.idle, .data, .done] ∧ ∃ w, s.cmd = w :: t.cmd ∧
      ((t.ill = true ∧ ∀ i, decode w ≠ .ok i) ∨
       (t.seq = true ∧ ∃ i, decode w = .ok i ∧ i ≠ .nop ∧ i ≠ .clr ∧ (∀ r, i ≠ .read r) ∧
         ((s.phase = .idle ∧ ∃ b, i = .data b) ∨ (s.phase = .data ∧ ∀ b, i ≠ .data b) ∨ s.phase = .done)) ∨
       (s.phase = .idle ∧ w = 0x06000000 ∧ (s.enc = true ∨ 65535 < s.len.toNat)))) ∧
    (t.phase = .idle → s.schedule.head? = some .hardReset ∨
      (s.phase ∈ [Phase.data, .done, .err] ∧ s.cmd = 0x01000000 :: t.cmd))

/-- R130, R59 to R61, R64: the trace grows only in an emit step or a DATA command, by one byte, which is the
byte presented, while the sink is ready; nothing but hardware reset shortens it. -/
def Obligations.OnlyPresentedBytesAreEmitted : Prop :=
  ∀ s t : State, step s = .next t →
    t.trace = s.trace ∨ (s.schedule.head? = some .hardReset ∧ t.trace = []) ∨
    ∃ o : OutByte, t.trace = s.trace ++ [o] ∧ t.sink = s.sink.take o ∧ s.outReady = true ∧
      s.presented = some o ∧
      (s.phase = .hdr ∨ s.phase = .dck ∨
        (s.phase = .data ∧ ∃ b, o = ⟨b, false⟩ ∧ ∃ w, s.cmd.head? = some w ∧ decode w = .ok (.data b)))

/-- R28: every emitted byte advances `OFS` by exactly one, and `OFS` is at most 65553. -/
def Obligations.EmittedByteAdvancesTheOffset : Prop :=
  ∀ s : State, s.Inv →
    (∀ k, s.ofs = some k → k ≤ 65553) ∧
    (∀ t, step s = .next t → t.trace.length = s.trace.length + 1 →
      ∃ k, s.ofs = some k ∧ t.ofs = some (k + 1))

/-! ### Faults and flags -/

/-- R176, R177: a step that enters ERR changes `PHASE`, at most one of `SEQ` and `ILL`, and the word taken from
the channel, and nothing else. -/
def Obligations.FaultEntryChangesNothingElse : Prop :=
  ∀ s t : State, step s = .next t → s.phase ≠ .err → t.phase = .err → t.faultOut = true ∧
    t = { s with phase := .err, seq := t.seq, ill := t.ill, cmd := s.cmd.tail, schedule := s.schedule.tail } ∧
    ((t.seq = true ∧ t.ill = s.ill) ∨ (t.ill = true ∧ t.seq = s.seq) ∨
      (t.seq = s.seq ∧ t.ill = s.ill ∧ (s.enc = true ∨ 65535 < s.len.toNat)))

/-- R29: `ENC` is set by a NAMECH above 0x7F in IDLE and by nothing else, and cleared by hardware reset and by an
accepted CLR and by nothing else. -/
def Obligations.EncSetByNamechClearedByClr : Prop :=
  ∀ s t : State, step s = .next t →
    (s.enc = false → t.enc = true →
      s.phase = .idle ∧ ∃ w c, s.cmd = w :: t.cmd ∧ decode w = .ok (.namech c) ∧ 0x7F < c.toNat) ∧
    (s.enc = true → t.enc = false →
      s.schedule.head? = some .hardReset ∨
      (s.cmd = 0x01000000 :: t.cmd ∧ s.phase ≠ .hdr ∧ s.phase ≠ .dck))

/-- R31, R32: `SEQ` and `ILL` are set only by fault entry and cleared only by an accepted CLR and hardware reset. -/
def Obligations.SeqAndIllStayUntilClr : Prop :=
  ∀ s t : State, step s = .next t →
    (s.seq = false → t.seq = true → t.phase = .err ∧ s.phase ∈ [Phase.idle, .data, .done]) ∧
    (s.ill = false → t.ill = true → t.phase = .err ∧ s.phase ∈ [Phase.idle, .data, .done]) ∧
    ((s.seq = true ∧ t.seq = false) ∨ (s.ill = true ∧ t.ill = false) →
      s.schedule.head? = some .hardReset ∨
      (s.cmd = 0x01000000 :: t.cmd ∧ s.phase ≠ .hdr ∧ s.phase ≠ .dck))

/-- The command rows of R38: which command may write which item, in any phase. Only READ responds (R143), only
DATA emits (R130), and no command touches the environment's plan. -/
def Obligations.CommandsWriteOnlyTheirItems : Prop :=
  ∀ (i : Instr) (s t : State), exec i s = .next t →
    (t.acc ≠ s.acc → i = .clr ∨ i = .ckclr ∨ (∃ b, i = .ckadd b) ∨ i = .start ∨ ∃ b, i = .data b) ∧
    (t.len ≠ s.len → i = .clr ∨ ∃ n, i = .setlen n) ∧
    (t.name ≠ s.name → i = .clr ∨ ∃ c, i = .namech c) ∧
    (t.ncnt ≠ s.ncnt → i = .clr ∨ ∃ c, i = .namech c) ∧
    (t.rem ≠ s.rem → i = .clr ∨ ∃ b, i = .data b) ∧
    (t.idx ≠ s.idx → i = .clr) ∧
    (t.enc ≠ s.enc → i = .clr ∨ ∃ c, i = .namech c) ∧
    (t.responses ≠ s.responses → ∃ r, i = .read r ∧ r.toNat ≤ 6) ∧
    (t.trace ≠ s.trace ∨ t.sink ≠ s.sink → ∃ b, i = .data b ∧ s.phase = .data ∧ s.outReady = true) ∧
    t.cmd = s.cmd ∧ t.schedule = s.schedule ∧ t.sinkFair = s.sinkFair

/-- R35: the fields of STATUS, bit by bit, its reserved bits, and its worked example. -/
def Obligations.StatusFields : Prop :=
  ∀ b : Block,
    (b.status.toNat % 8 = match b.phase with
      | .idle => 0 | .hdr => 1 | .data => 2 | .dck => 3 | .done => 4 | .err => 7) ∧
    b.status.getLsbD 3 = false ∧ b.status.getLsbD 4 = b.enc ∧
    (b.status.getLsbD 5 = true ↔ 65535 < b.len.toNat) ∧ b.status.getLsbD 6 = b.seq ∧
    b.status.getLsbD 7 = b.ill ∧ b.status.toNat / 2 ^ 8 = b.ncnt.toNat ∧
    (b.status.toNat % 8 = 7 ↔ b.phase = .err) ∧
    (b.ncnt = 10 → b.phase = .done → b.enc = false → b.len.toNat ≤ 65535 → b.seq = false → b.ill = false →
      b.status = 0x00000A04)

/-- R41: the two outputs, pure functions of `PHASE`, never 1 together. -/
def Obligations.DoneAndFaultOutputs : Prop :=
  ∀ b : Block, (b.doneOut = true ↔ b.phase = .done) ∧ (b.faultOut = true ↔ b.phase = .err) ∧
    ¬(b.doneOut = true ∧ b.faultOut = true)

/-! ### The checksum and the frame as functions -/

/-- R100, R101: the adder; its fold equals the exact sum reduced once; and the laws (a), (b), (c), (e). Law (d)
is that `checksum` is a total function. -/
def Obligations.ChecksumLaws : Prop :=
  (∀ (a : Half) (b : Byte), (add8 a b).toNat = (a.toNat + b.toNat) % 65536) ∧
  checksum [] = 0 ∧
  (∀ s, (checksum s).toNat = (s.map BitVec.toNat).sum % 65536) ∧
  (∀ s, s.foldl add8 0 = checksum s) ∧
  (∀ s u, s.Perm u → checksum s = checksum u) ∧
  (∀ s u, (checksum (s ++ u)).toNat = ((checksum s).toNat + (checksum u).toNat) % 65536) ∧
  (∀ s n, checksum (s ++ List.replicate n 0) = checksum s)

/-- R106: the header checksum cannot wrap, the shortest payload whose sum wraps has 258 bytes, and the three
sums of the rule. -/
def Obligations.HeaderChecksumNeverWraps : Prop :=
  (∀ (size : Half) (n12 : List Byte), n12.length = 12 →
    byteSum (le16 size ++ n12) ≤ 3570 ∧
    ((∀ b ∈ n12, b.toNat ≤ 0x7F) → byteSum (le16 size ++ n12) ≤ 2034)) ∧
  (∀ d : List Byte, 65536 ≤ byteSum d → 258 ≤ d.length) ∧
  byteSum (List.replicate 258 0xFF) = 65790 ∧ checksum (List.replicate 258 0xFF) = 0x00FE ∧
  byteSum (List.replicate 257 0xFF) = 65535 ∧ checksum (List.replicate 257 0xFF) = 0xFFFF ∧
  byteSum (List.replicate 65535 0xFF) = 16711425 ∧ checksum (List.replicate 65535 0xFF) = 0xFF01

/-- R82, R128: 16 bytes for a delete, 18 more than the payload for an upload, at most 65553. -/
def Obligations.FrameLength : Prop :=
  ∀ n12 data : List Byte, n12.length = 12 → data.length ≤ 65535 →
    (frame n12 data).length = (if data.length = 0 then 16 else 18 + data.length) ∧
    (frame n12 data).length ≤ 65553

/-- R53, R78, R81: the five fields at their offsets, little-endian. -/
def Obligations.FrameFieldsAtTheirOffsets : Prop :=
  ∀ n12 data : List Byte, n12.length = 12 → data.length ≤ 65535 →
    let f := frame n12 data
    (f.getD 0 0).toNat + 256 * (f.getD 1 0).toNat = data.length ∧
    (f.drop 2).take 12 = n12 ∧
    (f.getD 14 0).toNat + 256 * (f.getD 15 0).toNat = byteSum (f.take 14) % 65536 ∧
    (f.drop 16).take data.length = data ∧
    (0 < data.length →
      (f.getD (16 + data.length) 0).toNat + 256 * (f.getD (17 + data.length) 0).toNat = byteSum data % 65536)

/-- R86: the receiver's reading is the inverse of the frame. -/
def Obligations.ParseInvertsFrame : Prop :=
  ∀ n12 data : List Byte, n12.length = 12 → data.length ≤ 65535 →
    parseFrame (frame n12 data) = some ⟨n12.takeWhile (fun b => decide (b ≠ 0)), data⟩

/-! ### Invariants -/

/-- R33 and the frame on the wire hold at reset. -/
def Obligations.InvariantAtReset : Prop := State.reset.Inv

/-- R33 (a) to (k), with the bytes and markers of the frame on the wire, are kept by every move of every agent. -/
def Obligations.EveryStepKeepsTheInvariant : Prop :=
  ∀ s t : State, s.Inv → step s = .next t → t.Inv

/-- The machine never stops in a state of the invariant: no fault of the model, and no refused state reached. -/
def Obligations.InvariantStatesGoOn : Prop := ∀ s : State, s.Inv → s.GoesOn

/-- R127 as safety: in every state that a run reaches, whatever the host, the sink and reset did, phase DONE
means that the trace ends in exactly one whole frame of the loaded name and of a payload of the declared length,
with `last` on its final byte alone. -/
def Obligations.DoneMeansOneWholeFrameWasSent : Prop :=
  ∀ s : State, Reachable s → s.phase = .done →
    ∃ (before : List OutByte) (d : List Byte), d.length = s.len.toNat ∧
      s.trace = before ++ markLast (frame s.name.toList d) ∧
      (∀ b ∈ s.name.toList, b.toNat ≤ 0x7F)

/-- R157, R158, R161: the sink's resource rule holds for a fresh sink and is kept by every move, and what is
acquired keeps the fixed line discipline (R153). Clause `uart_live`, that a released sink holds no byte, is no
rule of the spec: it is the model's choice (entry 9). -/
def Obligations.SinkResourceRuleKept : Prop :=
  Sink.fresh.Inv ∧ ∀ s t : State, s.sink.Inv → step s = .next t → t.sink.Inv

/-! ### Whole runs -/

/-- R104: CKCLR, CKADD of each byte, `READ ACC`, in IDLE: the response is the checksum, and nothing but `ACC`
and the response has changed. The default order of moves is the model's choice (entry 1). -/
def Obligations.StandAloneChecksum : Prop :=
  ∀ (s : State) (bytes : List Byte), s.phase = .idle → s.inRange = true → s.schedule = [] →
    s.cmd = (pseudoChecksum bytes).map encode →
    Sys2Proof.core.run (bytes.length + 2) s = .next
      { s with cmd := [], acc := checksum bytes, responses := s.responses ++ [(checksum bytes).zeroExtend 32] }

/-- R80, R110, R113: NAMECH of each code from an empty name leaves the name `encname` gives, or `ENC` set where
it is undefined. The default order of moves is the model's choice (entry 1). -/
def Obligations.NameLoadsAsEncname : Prop :=
  ∀ (s : State) (codes : List Imm), s.phase = .idle → s.inRange = true → s.schedule = [] → s.ncnt = 0 →
    s.name = Vector.replicate 12 0 → s.enc = false → s.cmd = (pseudoName codes).map encode →
    ∃ t : State, Sys2Proof.core.run codes.length s = .next t ∧ t.cmd = [] ∧ t.phase = .idle ∧
      (∀ n12, encname codes = some n12 →
        t.enc = false ∧ t.name.toList = n12 ∧ t.ncnt.toNat = min codes.length 12) ∧
      (encname codes = none → t.enc = true)

/-- R127, R181, R216: `UPLOAD` from any state that accepts CLR, with a fair sink, ends as the document's
`build_upload` does: in DONE with exactly its frame appended to the trace, or in ERR with its error shown and
nothing emitted. The order of the moves and the fair sink, which opens and flushes with success, are the model's
choice (entries 1, 2, 15, 21). -/
def Obligations.UploadRefinesBuildUpload : Prop :=
  ∀ (s : State) (codes : List Imm) (bytes : List Byte) (cmds : List Instr),
    pseudoUpload codes bytes = some cmds → s.cmd = cmds.map encode →
    s.phase ≠ .hdr → s.phase ≠ .dck → s.inRange = true → s.schedule = [] → s.sinkFair = true →
    (s.sink.state = .closed → s.sink.result = some .ok) →
    ∃ (k : Nat) (t : State), Sys2Proof.core.run k s = .next t ∧ t.cmd = [] ∧ t.responses = s.responses ∧
      match buildUpload codes bytes with
      | .ok f =>
        t.phase = .done ∧ t.trace = s.trace ++ markLast f ∧ t.rem = 0 ∧ t.len.toNat = bytes.length ∧
        t.acc = (if bytes.length = 0 then checksum (f.take 14) else checksum bytes)
      | .error .encodingError => t.phase = .err ∧ t.trace = s.trace ∧ t.enc = true
      | .error .fileTooLargeError => t.phase = .err ∧ t.trace = s.trace ∧ t.enc = false ∧ t.big = true

/-- R127 with R153 to R161: with a fresh fair sink, the same run goes on until the sink is released with
success, and the line has carried exactly the frame's bytes. The order of the moves, the fair sink, which opens
and flushes with success, and the delivery of every byte by the end of the settle delay are the model's choice
(entries 1, 2, 9, 15, 17, 21). -/
def Obligations.UploadReachesTheLine : Prop :=
  ∀ (s : State) (codes : List Imm) (bytes f : List Byte) (cmds : List Instr),
    pseudoUpload codes bytes = some cmds → buildUpload codes bytes = .ok f → s.cmd = cmds.map encode →
    s.phase ≠ .hdr → s.phase ≠ .dck → s.inRange = true → s.schedule = [] → s.sinkFair = true →
    s.sink = Sink.fresh →
    ∃ (k : Nat) (t : State), Sys2Proof.core.run k s = .next t ∧ t.sink.state = .closed ∧
      t.sink.result = some .ok ∧ t.sink.held = false ∧ t.sink.line = f ∧ t.sink.count = f.length

/-- R206, R207: with nothing scheduled and a sink that never gets ready, the block stays as it is for ever in
HDR and DCK whatever is presented, in DATA with a DATA presented, and in every other phase with no word. That a
wait is an unchanged next state is entry 5. -/
def Obligations.WaitsChangeNothing : Prop :=
  ∀ (s : State) (n : Nat), s.schedule = [] → s.sinkFair = false →
    ((s.outReady = false ∧ (s.phase = .hdr ∨ s.phase = .dck)) ∨
     (s.outReady = false ∧ s.phase = .data ∧ ∃ w ws, s.cmd = w :: ws ∧ w &&& 0xFFFFFF00 = 0x07000000) ∨
     (s.cmd = [] ∧ s.phase ∈ [Phase.idle, .data, .done, .err])) →
    Sys2Proof.core.run n s = .next s

/-- R63: the sink's and the host's moves change no item of the block, emit nothing and respond nothing. -/
def Obligations.OutsideMovesLeaveTheBlock : Prop :=
  ∀ (s t : State) (m : Move) (ms : List Move), s.schedule = m :: ms → m ≠ .block → m ≠ .hardReset →
    step s = .next t → t.toBlock = s.toBlock ∧ t.trace = s.trace ∧ t.responses = s.responses

/-- R63, R64: what an enabled step of the block does is decided by its ten items and the word presented: two
states that agree on these, with any sinks, traces and plans, go to the same items, the same rest of the command
channel, the same byte emitted and the same response. The default order of moves is the model's choice (entry
1). -/
def Obligations.SinkAndPastDoNotSteerTheBlock : Prop :=
  ∀ s₁ s₂ t₁ t₂ : State, s₁.toBlock = s₂.toBlock → s₁.cmd = s₂.cmd → s₁.schedule = [] → s₂.schedule = [] →
    s₁.blockEnabled = true → s₂.blockEnabled = true → step s₁ = .next t₁ → step s₂ = .next t₂ →
    t₁.toBlock = t₂.toBlock ∧ t₁.cmd = t₂.cmd ∧
    ∃ (out : List OutByte) (rsp : List Word),
      t₁.trace = s₁.trace ++ out ∧ t₂.trace = s₂.trace ++ out ∧
      t₁.responses = s₁.responses ++ rsp ∧ t₂.responses = s₂.responses ++ rsp ∧
      t₁.sink = out.foldl Sink.take s₁.sink ∧ t₂.sink = out.foldl Sink.take s₂.sink

/-! ### The sink -/

/-- R151, R153 to R158: `send` of a frame from a fresh sink, whatever its primitives answer, ends `Closed` with
the sink released and the error of the step that failed. A failed flush gives the open parameter
`FLUSH_ERR_KIND`, whatever it is (R155). What the line has carried is the model's choice (entry 9): the whole
frame after a success, since the settle delay (R156) has let every byte leave before the release (R160); after a
failed write or flush, the first `delivered` of the bytes taken, any number (U9). -/
def Obligations.SendAlwaysEndsClosed : Prop :=
  ∀ (c : Config.SinkConfig) (f : List Byte) (openOk writeOk flushOk : Bool) (written delivered : Nat), f ≠ [] →
    let k := Sink.fresh.send c (markLast f) openOk writeOk flushOk written delivered
    k.state = .closed ∧ k.held = false ∧
    (openOk = false → k.result = some (.failed .openFailed) ∧ k.line = []) ∧
    (openOk = true → writeOk = false →
      k.result = some (.failed .writeFailed) ∧ k.line = f.take (min written delivered)) ∧
    (openOk = true → writeOk = true → flushOk = false →
      k.result = some (.failed Config.flushErrKind) ∧ k.line = f.take delivered) ∧
    (openOk = true → writeOk = true → flushOk = true → k.result = some .ok ∧ k.line = f)

/-- R156, R210: the settle delay of the frame taken, and no way out of `Settling` but the delay's end and a
restart of the sink from outside (entries 9 and 10). -/
def Obligations.SettleDelay : Prop :=
  (∀ (k : Sink) (f : List OutByte), (f.foldl Sink.take k).settleSeconds = ((k.count + f.length : Nat) : Rat) / 90 + 1 / 2) ∧
  (∀ (k : Sink) (m : SinkMove), k.state = .settling → (k.move m).state ≠ .settling →
    m = .settleDone ∨ m = .restart)

/-- R161, R61: `out_ready` is up only in `Writing`, not after the byte that ended the frame (the model's reading of
R161, entry 6). -/
def Obligations.ReadyOnlyWhileWriting : Prop :=
  ∀ s : State, (s.outReady = true → s.sink.state = .writing ∧ s.sink.ended = false) ∧
    (∀ b : Byte, (s.emit b true).outReady = false)

/-- R155, R64, U7 to U9: the line carries the bytes taken, in order, none invented. Of the bytes in the UART and
on the line, a step changes nothing; or takes the one byte that the block emits; or lets the oldest byte in the
UART leave; or ends the settle delay, which lets all of them leave; or releases the sink with an error, or puts a
fresh one in its place, and then what was inside the UART is lost. The UART and its loss are the model's choice
(entry 9), and so is when a fair sink restarts (entry 15). -/
def Obligations.LineCarriesTakenBytesInOrder : Prop :=
  ∀ s t : State, step s = .next t →
    (t.sink.uart = s.sink.uart ∧ t.sink.line = s.sink.line) ∨
    (s.outReady = true ∧ ∃ o : OutByte, t.trace = s.trace ++ [o] ∧ t.sink.uart = s.sink.uart ++ [o.byte] ∧
      t.sink.line = s.sink.line) ∨
    (s.schedule.head? = some (.sink .drain) ∧
      ∃ b, s.sink.uart = b :: t.sink.uart ∧ t.sink.line = s.sink.line ++ [b]) ∨
    (s.sink.state = .settling ∧ t.sink.state = .closed ∧ t.sink.result = some .ok ∧ t.sink.uart = [] ∧
      t.sink.line = s.sink.line ++ s.sink.uart) ∨
    (s.sink.state ≠ .closed ∧ t.sink.state = .closed ∧ (∃ e, t.sink.result = some (.failed e)) ∧
      t.sink.uart = [] ∧ t.sink.line = s.sink.line) ∨
    ((s.schedule.head? = some (.sink .restart) ∨
        (s.schedule = [] ∧ s.sinkFair = true ∧ s.sink.state = .closed ∧ s.sink.result = some .ok)) ∧
      t.sink.state = .idle ∧ t.sink.uart = [] ∧ t.sink.line = s.sink.line)

/-- R153: step 1 of `send` acquires a byte sink on the port its `sink_config` names, configured for the fixed line
discipline and a read timeout that is the open parameter `READ_TIMEOUT`, whatever it is; if it cannot, `send`
returns `Open` and nothing is held. -/
def Obligations.OpenAcquiresTheFixedLineDiscipline : Prop :=
  ∀ (k : Sink) (c : Config.SinkConfig), k.state = .idle →
    ((k.openSink c true).state = .opened ∧ ∃ b, (k.openSink c true).acquired = some b ∧ b.args.port = c.port ∧
      b.args.baud = 900 ∧ b.args.dataBits = 8 ∧ b.args.parity = .none ∧ b.args.stopBits = 1 ∧
      b.args.timeout = Config.readTimeout) ∧
    ((k.openSink c false).state = .closed ∧ (k.openSink c false).held = false ∧
      (k.openSink c false).result = some (.failed .openFailed))
end

