-- ==== Sys2Proof/Laws/Decode.lean ====
section
/-! SUPPORT. The fields of a word as numbers (R70 to R72), the fields of an encoded command, and what the decoder
does for each opcode. -/

namespace Sys2Proof

@[simp] theorem opField_toNat (w : Word) : (opField w).toNat = w.toNat / 2 ^ 24 := by
  have := w.isLt
  simp only [opField, BitVec.extractLsb'_toNat, Nat.shiftRight_eq_div_pow]
  omega

@[simp] theorem immField_toNat (w : Word) : (immField w).toNat = w.toNat % 2 ^ 24 := by
  simp [immField, BitVec.extractLsb'_toNat]

@[simp] theorem immHigh_toNat (imm : Imm) : (immHigh imm).toNat = imm.toNat / 2 ^ 8 := by
  have := imm.isLt
  simp only [immHigh, BitVec.extractLsb'_toNat, Nat.shiftRight_eq_div_pow]
  omega

@[simp] theorem immByte_toNat (imm : Imm) : (immByte imm).toNat = imm.toNat % 2 ^ 8 := by
  simp [immByte, BitVec.extractLsb'_toNat]

/-- `op << 24 | operand`, as a number (R70, R84). -/
theorem encode_toNat (i : Instr) : (encode i).toNat = i.opcode.toNat * 2 ^ 24 + i.operand.toNat := by
  simp only [encode, BitVec.toNat_append]
  rw [← Nat.shiftLeft_add_eq_or_of_lt i.operand.isLt, Nat.shiftLeft_eq]

@[simp] theorem opField_encode (i : Instr) : opField (encode i) = i.opcode := by
  apply BitVec.eq_of_toNat_eq
  have := i.operand.isLt
  rw [opField_toNat, encode_toNat]
  omega

@[simp] theorem immField_encode (i : Instr) : immField (encode i) = i.operand := by
  apply BitVec.eq_of_toNat_eq
  have := i.operand.isLt
  rw [immField_toNat, encode_toNat]
  omega

@[simp] theorem immHigh_byte (b : Byte) : immHigh (b.zeroExtend 24) = 0 := by
  apply BitVec.eq_of_toNat_eq
  have := b.isLt
  simp only [immHigh_toNat, BitVec.truncate_eq_setWidth, BitVec.toNat_setWidth]
  rw [show (0 : BitVec 16).toNat = 0 from rfl]
  omega

@[simp] theorem immByte_byte (b : Byte) : immByte (b.zeroExtend 24) = b := by
  apply BitVec.eq_of_toNat_eq
  have := b.isLt
  simp only [immByte_toNat, BitVec.truncate_eq_setWidth, BitVec.toNat_setWidth]
  omega

/-- A form-B operand field is its low byte when its high bits are zero (R71, R72). -/
theorem zeroExtend_immByte {imm : Imm} (h : immHigh imm = 0) : (immByte imm).zeroExtend 24 = imm := by
  have h' := congrArg BitVec.toNat h
  apply BitVec.eq_of_toNat_eq
  have := imm.isLt
  rw [immHigh_toNat, show (0 : BitVec 16).toNat = 0 from rfl] at h'
  simp only [BitVec.truncate_eq_setWidth, BitVec.toNat_setWidth, immByte_toNat]
  omega

/-- A word with a command's two fields is the command's word. -/
theorem encode_eq_of_fields {w : Word} {i : Instr} (ho : i.opcode = opField w) (hi : i.operand = immField w) :
    encode i = w := by
  apply BitVec.eq_of_toNat_eq
  have := w.isLt
  rw [encode_toNat, ho, hi, opField_toNat, immField_toNat]
  omega

/-! ### Fields and masks as numbers -/

theorem opField_eq {w : Word} {k : BitVec 8} : opField w = k ↔ w.toNat / 2 ^ 24 = k.toNat := by
  rw [← opField_toNat]
  exact ⟨fun h => by rw [h], BitVec.eq_of_toNat_eq⟩

theorem immField_eq {w : Word} {k : Imm} : immField w = k ↔ w.toNat % 2 ^ 24 = k.toNat := by
  rw [← immField_toNat]
  exact ⟨fun h => by rw [h], BitVec.eq_of_toNat_eq⟩

theorem immHigh_eq_zero {imm : Imm} : immHigh imm = 0 ↔ imm.toNat / 2 ^ 8 = 0 := by
  rw [← immHigh_toNat]
  exact ⟨fun h => by rw [h]; rfl, fun h => BitVec.eq_of_toNat_eq (h.trans rfl)⟩

theorem eq_immByte {b : Byte} {imm : Imm} : b = immByte imm ↔ b.toNat = imm.toNat % 2 ^ 8 := by
  rw [← immByte_toNat]
  exact ⟨fun h => by rw [h], BitVec.eq_of_toNat_eq⟩

@[simp] theorem registerExists_iff (r : Byte) : Instr.registerExists r = true ↔ r.toNat ≤ 6 := by
  unfold Instr.registerExists Config.nRegs
  rw [decide_eq_true_iff]
  omega

/-- Masking off the `k` low bits. -/
theorem and_mask_toNat (w m : Word) (k : Nat) (hm : ∀ i < 32, m.getLsbD i = decide (k ≤ i)) :
    (w &&& m).toNat = w.toNat / 2 ^ k * 2 ^ k := by
  have h : w &&& m = (w >>> k) <<< k := by
    ext i hi
    have := hm i hi
    by_cases hk : i < k
    · simp_all
    · have hik : k + (i - k) = i := by omega
      simp_all
  rw [h, BitVec.toNat_shiftLeft, BitVec.toNat_ushiftRight, Nat.shiftRight_eq_div_pow, Nat.shiftLeft_eq]
  exact Nat.mod_eq_of_lt (lt_of_le_of_lt (Nat.div_mul_le_self _ _) w.isLt)

/-- The mask of form B (R73). -/
theorem and_maskB (w p : Word) : w &&& 0xFFFFFF00 = p ↔ w.toNat / 2 ^ 8 * 2 ^ 8 = p.toNat := by
  rw [← and_mask_toNat w 0xFFFFFF00 8 (by decide)]
  exact ⟨fun h => by rw [h], BitVec.eq_of_toNat_eq⟩

/-- The mask of form W (R73). -/
theorem and_maskW (w p : Word) : w &&& 0xFF000000 = p ↔ w.toNat / 2 ^ 24 * 2 ^ 24 = p.toNat := by
  rw [← and_mask_toNat w 0xFF000000 24 (by decide)]
  exact ⟨fun h => by rw [h], BitVec.eq_of_toNat_eq⟩

/-- The mask of form Z (R73). -/
theorem and_maskZ (w p : Word) : w &&& 0xFFFFFFFF = p ↔ w.toNat = p.toNat := by
  rw [show w &&& 0xFFFFFFFF = w by simpa using BitVec.and_allOnes (x := w)]
  exact ⟨fun h => by rw [h], BitVec.eq_of_toNat_eq⟩

/-! ### The decoder -/

theorem formZ_ok {i j : Instr} {imm : Imm} : formZ i imm = .ok j ↔ imm = 0 ∧ i = j := by
  unfold formZ
  split
  · simp only [Except.ok.injEq, *, true_and]
  · simp only [reduceCtorEq, *, false_and]

theorem formB_ok {f : Byte → Instr} {j : Instr} {imm : Imm} :
    formB f imm = .ok j ↔ immHigh imm = 0 ∧ f (immByte imm) = j := by
  unfold formB
  split
  · simp only [Except.ok.injEq, *, true_and]
  · simp only [reduceCtorEq, *, false_and]

theorem checkRegister_ok {x : Except Malformed Instr} {j : Instr} :
    checkRegister x = .ok j ↔ x = .ok j ∧ j.wellFormed = true := by
  cases x with
  | error e => simp [checkRegister]
  | ok i =>
    change (if i.wellFormed = true then Except.ok i else Except.error Malformed.noSuchRegister) = _ ↔ _
    by_cases hw : i.wellFormed = true
    · rw [if_pos hw]
      exact ⟨fun h => ⟨h, by cases h; exact hw⟩, fun h => h.1⟩
    · rw [if_neg hw]
      refine ⟨fun h => (by cases h), ?_⟩
      rintro ⟨h, hj⟩
      cases h
      contradiction

/-- The operand field that `decode` wants for a command (R71, R72). -/
def Instr.fieldOk (imm : Imm) : Instr → Prop
  | .nop => imm = 0
  | .clr => imm = 0
  | .ckclr => imm = 0
  | .ckadd b => immHigh imm = 0 ∧ b = immByte imm
  | .namech c => c = imm
  | .setlen n => n = imm
  | .start => imm = 0
  | .data b => immHigh imm = 0 ∧ b = immByte imm
  | .read r => immHigh imm = 0 ∧ r = immByte imm

/-- Everything the decoder can answer with a command: by opcode, the must-be-zero bits and the operand (R71 to
R74). -/
theorem decode_ok {w : Word} {i : Instr} :
    decode w = .ok i ↔ opField w = i.opcode ∧ i.wellFormed = true ∧ i.fieldOk (immField w) := by
  constructor
  · intro h
    unfold decode at h
    simp only [] at h
    split at h <;> rename_i hop
    case h_10 => cases h
    all_goals
      first
        | (obtain ⟨hz, rfl⟩ := formZ_ok.1 h
           exact ⟨BitVec.eq_of_toNat_eq hop, rfl, hz⟩)
        | (obtain ⟨hz, rfl⟩ := formB_ok.1 h
           exact ⟨BitVec.eq_of_toNat_eq hop, rfl, hz, rfl⟩)
        | (obtain ⟨h, hwf⟩ := checkRegister_ok.1 h
           obtain ⟨hz, rfl⟩ := formB_ok.1 h
           exact ⟨BitVec.eq_of_toNat_eq hop, hwf, hz, rfl⟩)
        | (obtain rfl := Except.ok.inj h
           exact ⟨BitVec.eq_of_toNat_eq hop, rfl, rfl⟩)
  · rintro ⟨hop, hwf, hf⟩
    unfold decode
    rw [hop]
    cases i with
    | nop => exact formZ_ok.2 ⟨hf, rfl⟩
    | clr => exact formZ_ok.2 ⟨hf, rfl⟩
    | ckclr => exact formZ_ok.2 ⟨hf, rfl⟩
    | ckadd b => exact formB_ok.2 ⟨hf.1, by rw [hf.2]⟩
    | namech c => exact congrArg _ (by rw [hf])
    | setlen n => exact congrArg _ (by rw [hf])
    | start => exact formZ_ok.2 ⟨hf, rfl⟩
    | data b => exact formB_ok.2 ⟨hf.1, by rw [hf.2]⟩
    | read r => exact checkRegister_ok.2 ⟨formB_ok.2 ⟨hf.1, by rw [hf.2]⟩, hwf⟩

/-! ### Words that are recognised whole -/

theorem word_of_clr {w : Word} (h : decode w = .ok .clr) : w = 0x01000000 := by
  obtain ⟨a, -, c⟩ := decode_ok.1 h
  rw [← encode_eq_of_fields (w := w) (i := .clr) a.symm c.symm]
  decide

theorem word_of_start {w : Word} (h : decode w = .ok .start) : w = 0x06000000 := by
  obtain ⟨a, -, c⟩ := decode_ok.1 h
  rw [← encode_eq_of_fields (w := w) (i := .start) a.symm c.symm]
  decide

/-- The DATA row of R73. -/
theorem word_of_data {w : Word} {b : Byte} (h : decode w = .ok (.data b)) : w &&& 0xFFFFFF00 = 0x07000000 := by
  obtain ⟨a, -, c⟩ := decode_ok.1 h
  have hh := immHigh_eq_zero.1 c.1
  rw [opField_eq, show (Instr.data b).opcode.toNat = 7 from rfl] at a
  rw [immField_toNat] at hh
  rw [and_maskB, show (0x07000000 : Word).toNat = 0x07000000 from rfl]
  omega

theorem data_of_word {w : Word} (h : w &&& 0xFFFFFF00 = 0x07000000) :
    decode w = .ok (.data (immByte (immField w))) := by
  rw [and_maskB, show (0x07000000 : Word).toNat = 0x07000000 from rfl] at h
  have := w.isLt
  refine decode_ok.2 ⟨opField_eq.2 ?_, rfl, immHigh_eq_zero.2 ?_, rfl⟩
  · rw [show (Instr.data (immByte (immField w))).opcode.toNat = 7 from rfl]
    omega
  · rw [immField_toNat]
    omega

end Sys2Proof
end

