-- ==== Sys2Proof/Laws/State.lean ====
section
/-! SUPPORT. One lemma per field per named update of the state, each true by `rfl`: later proofs rewrite with
these and unfold no update. -/

namespace Sys2Proof.Machine

/-! ### `Emit` -/

@[simp] theorem State.emit_acc (s : State) (b : Byte) (last : Bool) :
    (s.emit b last).acc = s.acc := rfl
@[simp] theorem State.emit_len (s : State) (b : Byte) (last : Bool) :
    (s.emit b last).len = s.len := rfl
@[simp] theorem State.emit_name (s : State) (b : Byte) (last : Bool) :
    (s.emit b last).name = s.name := rfl
@[simp] theorem State.emit_ncnt (s : State) (b : Byte) (last : Bool) :
    (s.emit b last).ncnt = s.ncnt := rfl
@[simp] theorem State.emit_rem (s : State) (b : Byte) (last : Bool) :
    (s.emit b last).rem = s.rem := rfl
@[simp] theorem State.emit_phase (s : State) (b : Byte) (last : Bool) :
    (s.emit b last).phase = s.phase := rfl
@[simp] theorem State.emit_idx (s : State) (b : Byte) (last : Bool) :
    (s.emit b last).idx = s.idx := rfl
@[simp] theorem State.emit_enc (s : State) (b : Byte) (last : Bool) :
    (s.emit b last).enc = s.enc := rfl
@[simp] theorem State.emit_seq (s : State) (b : Byte) (last : Bool) :
    (s.emit b last).seq = s.seq := rfl
@[simp] theorem State.emit_ill (s : State) (b : Byte) (last : Bool) :
    (s.emit b last).ill = s.ill := rfl
@[simp] theorem State.emit_cmd (s : State) (b : Byte) (last : Bool) :
    (s.emit b last).cmd = s.cmd := rfl
@[simp] theorem State.emit_responses (s : State) (b : Byte) (last : Bool) :
    (s.emit b last).responses = s.responses := rfl
@[simp] theorem State.emit_trace (s : State) (b : Byte) (last : Bool) :
    (s.emit b last).trace = s.trace ++ [⟨b, last⟩] := rfl
@[simp] theorem State.emit_sink (s : State) (b : Byte) (last : Bool) :
    (s.emit b last).sink = s.sink.take ⟨b, last⟩ := rfl
@[simp] theorem State.emit_sinkFair (s : State) (b : Byte) (last : Bool) :
    (s.emit b last).sinkFair = s.sinkFair := rfl
@[simp] theorem State.emit_schedule (s : State) (b : Byte) (last : Bool) :
    (s.emit b last).schedule = s.schedule := rfl
@[simp] theorem State.emit_toBlock (s : State) (b : Byte) (last : Bool) :
    (s.emit b last).toBlock = s.toBlock := rfl

/-! ### `Respond` -/

@[simp] theorem State.respond_acc (s : State) (v : Word) :
    (s.respond v).acc = s.acc := rfl
@[simp] theorem State.respond_len (s : State) (v : Word) :
    (s.respond v).len = s.len := rfl
@[simp] theorem State.respond_name (s : State) (v : Word) :
    (s.respond v).name = s.name := rfl
@[simp] theorem State.respond_ncnt (s : State) (v : Word) :
    (s.respond v).ncnt = s.ncnt := rfl
@[simp] theorem State.respond_rem (s : State) (v : Word) :
    (s.respond v).rem = s.rem := rfl
@[simp] theorem State.respond_phase (s : State) (v : Word) :
    (s.respond v).phase = s.phase := rfl
@[simp] theorem State.respond_idx (s : State) (v : Word) :
    (s.respond v).idx = s.idx := rfl
@[simp] theorem State.respond_enc (s : State) (v : Word) :
    (s.respond v).enc = s.enc := rfl
@[simp] theorem State.respond_seq (s : State) (v : Word) :
    (s.respond v).seq = s.seq := rfl
@[simp] theorem State.respond_ill (s : State) (v : Word) :
    (s.respond v).ill = s.ill := rfl
@[simp] theorem State.respond_cmd (s : State) (v : Word) :
    (s.respond v).cmd = s.cmd := rfl
@[simp] theorem State.respond_responses (s : State) (v : Word) :
    (s.respond v).responses = s.responses ++ [v] := rfl
@[simp] theorem State.respond_trace (s : State) (v : Word) :
    (s.respond v).trace = s.trace := rfl
@[simp] theorem State.respond_sink (s : State) (v : Word) :
    (s.respond v).sink = s.sink := rfl
@[simp] theorem State.respond_sinkFair (s : State) (v : Word) :
    (s.respond v).sinkFair = s.sinkFair := rfl
@[simp] theorem State.respond_schedule (s : State) (v : Word) :
    (s.respond v).schedule = s.schedule := rfl
@[simp] theorem State.respond_toBlock (s : State) (v : Word) :
    (s.respond v).toBlock = s.toBlock := rfl

/-! ### CLR -/

@[simp] theorem State.clear_acc (s : State) :
    (s.clear).acc = Block.reset.acc := rfl
@[simp] theorem State.clear_len (s : State) :
    (s.clear).len = Block.reset.len := rfl
@[simp] theorem State.clear_name (s : State) :
    (s.clear).name = Block.reset.name := rfl
@[simp] theorem State.clear_ncnt (s : State) :
    (s.clear).ncnt = Block.reset.ncnt := rfl
@[simp] theorem State.clear_rem (s : State) :
    (s.clear).rem = Block.reset.rem := rfl
@[simp] theorem State.clear_phase (s : State) :
    (s.clear).phase = Block.reset.phase := rfl
@[simp] theorem State.clear_idx (s : State) :
    (s.clear).idx = Block.reset.idx := rfl
@[simp] theorem State.clear_enc (s : State) :
    (s.clear).enc = Block.reset.enc := rfl
@[simp] theorem State.clear_seq (s : State) :
    (s.clear).seq = Block.reset.seq := rfl
@[simp] theorem State.clear_ill (s : State) :
    (s.clear).ill = Block.reset.ill := rfl
@[simp] theorem State.clear_cmd (s : State) :
    (s.clear).cmd = s.cmd := rfl
@[simp] theorem State.clear_responses (s : State) :
    (s.clear).responses = s.responses := rfl
@[simp] theorem State.clear_trace (s : State) :
    (s.clear).trace = s.trace := rfl
@[simp] theorem State.clear_sink (s : State) :
    (s.clear).sink = s.sink := rfl
@[simp] theorem State.clear_sinkFair (s : State) :
    (s.clear).sinkFair = s.sinkFair := rfl
@[simp] theorem State.clear_schedule (s : State) :
    (s.clear).schedule = s.schedule := rfl

@[simp] theorem State.clear_toBlock (s : State) : s.clear.toBlock = Block.reset := rfl

/-! ### Hardware reset -/

@[simp] theorem hardReset_acc (s : State) :
    (hardReset s).acc = Block.reset.acc := rfl
@[simp] theorem hardReset_len (s : State) :
    (hardReset s).len = Block.reset.len := rfl
@[simp] theorem hardReset_name (s : State) :
    (hardReset s).name = Block.reset.name := rfl
@[simp] theorem hardReset_ncnt (s : State) :
    (hardReset s).ncnt = Block.reset.ncnt := rfl
@[simp] theorem hardReset_rem (s : State) :
    (hardReset s).rem = Block.reset.rem := rfl
@[simp] theorem hardReset_phase (s : State) :
    (hardReset s).phase = Block.reset.phase := rfl
@[simp] theorem hardReset_idx (s : State) :
    (hardReset s).idx = Block.reset.idx := rfl
@[simp] theorem hardReset_enc (s : State) :
    (hardReset s).enc = Block.reset.enc := rfl
@[simp] theorem hardReset_seq (s : State) :
    (hardReset s).seq = Block.reset.seq := rfl
@[simp] theorem hardReset_ill (s : State) :
    (hardReset s).ill = Block.reset.ill := rfl
@[simp] theorem hardReset_cmd (s : State) :
    (hardReset s).cmd = s.cmd := rfl
@[simp] theorem hardReset_responses (s : State) :
    (hardReset s).responses = s.responses := rfl
@[simp] theorem hardReset_trace (s : State) :
    (hardReset s).trace = [] := rfl
@[simp] theorem hardReset_sink (s : State) :
    (hardReset s).sink = s.sink := rfl
@[simp] theorem hardReset_sinkFair (s : State) :
    (hardReset s).sinkFair = s.sinkFair := rfl
@[simp] theorem hardReset_schedule (s : State) :
    (hardReset s).schedule = s.schedule := rfl

@[simp] theorem hardReset_toBlock (s : State) : (hardReset s).toBlock = Block.reset := rfl

/-! ### Fault entry: SEQ -/

@[simp] theorem State.raiseSeq_acc (s : State) :
    (s.raiseFault .seq).acc = s.acc := rfl
@[simp] theorem State.raiseSeq_len (s : State) :
    (s.raiseFault .seq).len = s.len := rfl
@[simp] theorem State.raiseSeq_name (s : State) :
    (s.raiseFault .seq).name = s.name := rfl
@[simp] theorem State.raiseSeq_ncnt (s : State) :
    (s.raiseFault .seq).ncnt = s.ncnt := rfl
@[simp] theorem State.raiseSeq_rem (s : State) :
    (s.raiseFault .seq).rem = s.rem := rfl
@[simp] theorem State.raiseSeq_phase (s : State) :
    (s.raiseFault .seq).phase = .err := rfl
@[simp] theorem State.raiseSeq_idx (s : State) :
    (s.raiseFault .seq).idx = s.idx := rfl
@[simp] theorem State.raiseSeq_enc (s : State) :
    (s.raiseFault .seq).enc = s.enc := rfl
@[simp] theorem State.raiseSeq_seq (s : State) :
    (s.raiseFault .seq).seq = true := rfl
@[simp] theorem State.raiseSeq_ill (s : State) :
    (s.raiseFault .seq).ill = s.ill := rfl
@[simp] theorem State.raiseSeq_cmd (s : State) :
    (s.raiseFault .seq).cmd = s.cmd := rfl
@[simp] theorem State.raiseSeq_responses (s : State) :
    (s.raiseFault .seq).responses = s.responses := rfl
@[simp] theorem State.raiseSeq_trace (s : State) :
    (s.raiseFault .seq).trace = s.trace := rfl
@[simp] theorem State.raiseSeq_sink (s : State) :
    (s.raiseFault .seq).sink = s.sink := rfl
@[simp] theorem State.raiseSeq_sinkFair (s : State) :
    (s.raiseFault .seq).sinkFair = s.sinkFair := rfl
@[simp] theorem State.raiseSeq_schedule (s : State) :
    (s.raiseFault .seq).schedule = s.schedule := rfl

/-! ### Fault entry: ILL -/

@[simp] theorem State.raiseIll_acc (s : State) :
    (s.raiseFault .ill).acc = s.acc := rfl
@[simp] theorem State.raiseIll_len (s : State) :
    (s.raiseFault .ill).len = s.len := rfl
@[simp] theorem State.raiseIll_name (s : State) :
    (s.raiseFault .ill).name = s.name := rfl
@[simp] theorem State.raiseIll_ncnt (s : State) :
    (s.raiseFault .ill).ncnt = s.ncnt := rfl
@[simp] theorem State.raiseIll_rem (s : State) :
    (s.raiseFault .ill).rem = s.rem := rfl
@[simp] theorem State.raiseIll_phase (s : State) :
    (s.raiseFault .ill).phase = .err := rfl
@[simp] theorem State.raiseIll_idx (s : State) :
    (s.raiseFault .ill).idx = s.idx := rfl
@[simp] theorem State.raiseIll_enc (s : State) :
    (s.raiseFault .ill).enc = s.enc := rfl
@[simp] theorem State.raiseIll_seq (s : State) :
    (s.raiseFault .ill).seq = s.seq := rfl
@[simp] theorem State.raiseIll_ill (s : State) :
    (s.raiseFault .ill).ill = true := rfl
@[simp] theorem State.raiseIll_cmd (s : State) :
    (s.raiseFault .ill).cmd = s.cmd := rfl
@[simp] theorem State.raiseIll_responses (s : State) :
    (s.raiseFault .ill).responses = s.responses := rfl
@[simp] theorem State.raiseIll_trace (s : State) :
    (s.raiseFault .ill).trace = s.trace := rfl
@[simp] theorem State.raiseIll_sink (s : State) :
    (s.raiseFault .ill).sink = s.sink := rfl
@[simp] theorem State.raiseIll_sinkFair (s : State) :
    (s.raiseFault .ill).sinkFair = s.sinkFair := rfl
@[simp] theorem State.raiseIll_schedule (s : State) :
    (s.raiseFault .ill).schedule = s.schedule := rfl

/-! ### Fault entry: ENC -/

@[simp] theorem State.raiseEnc_acc (s : State) :
    (s.raiseFault .enc).acc = s.acc := rfl
@[simp] theorem State.raiseEnc_len (s : State) :
    (s.raiseFault .enc).len = s.len := rfl
@[simp] theorem State.raiseEnc_name (s : State) :
    (s.raiseFault .enc).name = s.name := rfl
@[simp] theorem State.raiseEnc_ncnt (s : State) :
    (s.raiseFault .enc).ncnt = s.ncnt := rfl
@[simp] theorem State.raiseEnc_rem (s : State) :
    (s.raiseFault .enc).rem = s.rem := rfl
@[simp] theorem State.raiseEnc_phase (s : State) :
    (s.raiseFault .enc).phase = .err := rfl
@[simp] theorem State.raiseEnc_idx (s : State) :
    (s.raiseFault .enc).idx = s.idx := rfl
@[simp] theorem State.raiseEnc_enc (s : State) :
    (s.raiseFault .enc).enc = s.enc := rfl
@[simp] theorem State.raiseEnc_seq (s : State) :
    (s.raiseFault .enc).seq = s.seq := rfl
@[simp] theorem State.raiseEnc_ill (s : State) :
    (s.raiseFault .enc).ill = s.ill := rfl
@[simp] theorem State.raiseEnc_cmd (s : State) :
    (s.raiseFault .enc).cmd = s.cmd := rfl
@[simp] theorem State.raiseEnc_responses (s : State) :
    (s.raiseFault .enc).responses = s.responses := rfl
@[simp] theorem State.raiseEnc_trace (s : State) :
    (s.raiseFault .enc).trace = s.trace := rfl
@[simp] theorem State.raiseEnc_sink (s : State) :
    (s.raiseFault .enc).sink = s.sink := rfl
@[simp] theorem State.raiseEnc_sinkFair (s : State) :
    (s.raiseFault .enc).sinkFair = s.sinkFair := rfl
@[simp] theorem State.raiseEnc_schedule (s : State) :
    (s.raiseFault .enc).schedule = s.schedule := rfl

/-! ### Fault entry: BIG -/

@[simp] theorem State.raiseBig_acc (s : State) :
    (s.raiseFault .big).acc = s.acc := rfl
@[simp] theorem State.raiseBig_len (s : State) :
    (s.raiseFault .big).len = s.len := rfl
@[simp] theorem State.raiseBig_name (s : State) :
    (s.raiseFault .big).name = s.name := rfl
@[simp] theorem State.raiseBig_ncnt (s : State) :
    (s.raiseFault .big).ncnt = s.ncnt := rfl
@[simp] theorem State.raiseBig_rem (s : State) :
    (s.raiseFault .big).rem = s.rem := rfl
@[simp] theorem State.raiseBig_phase (s : State) :
    (s.raiseFault .big).phase = .err := rfl
@[simp] theorem State.raiseBig_idx (s : State) :
    (s.raiseFault .big).idx = s.idx := rfl
@[simp] theorem State.raiseBig_enc (s : State) :
    (s.raiseFault .big).enc = s.enc := rfl
@[simp] theorem State.raiseBig_seq (s : State) :
    (s.raiseFault .big).seq = s.seq := rfl
@[simp] theorem State.raiseBig_ill (s : State) :
    (s.raiseFault .big).ill = s.ill := rfl
@[simp] theorem State.raiseBig_cmd (s : State) :
    (s.raiseFault .big).cmd = s.cmd := rfl
@[simp] theorem State.raiseBig_responses (s : State) :
    (s.raiseFault .big).responses = s.responses := rfl
@[simp] theorem State.raiseBig_trace (s : State) :
    (s.raiseFault .big).trace = s.trace := rfl
@[simp] theorem State.raiseBig_sink (s : State) :
    (s.raiseFault .big).sink = s.sink := rfl
@[simp] theorem State.raiseBig_sinkFair (s : State) :
    (s.raiseFault .big).sinkFair = s.sinkFair := rfl
@[simp] theorem State.raiseBig_schedule (s : State) :
    (s.raiseFault .big).schedule = s.schedule := rfl

/-! ### A fetched word -/

@[simp] theorem State.withFetchWord_acc (s : State) (nbits w : Nat) :
    (s.withFetchWord nbits w).acc = s.acc := rfl
@[simp] theorem State.withFetchWord_len (s : State) (nbits w : Nat) :
    (s.withFetchWord nbits w).len = s.len := rfl
@[simp] theorem State.withFetchWord_name (s : State) (nbits w : Nat) :
    (s.withFetchWord nbits w).name = s.name := rfl
@[simp] theorem State.withFetchWord_ncnt (s : State) (nbits w : Nat) :
    (s.withFetchWord nbits w).ncnt = s.ncnt := rfl
@[simp] theorem State.withFetchWord_rem (s : State) (nbits w : Nat) :
    (s.withFetchWord nbits w).rem = s.rem := rfl
@[simp] theorem State.withFetchWord_phase (s : State) (nbits w : Nat) :
    (s.withFetchWord nbits w).phase = s.phase := rfl
@[simp] theorem State.withFetchWord_idx (s : State) (nbits w : Nat) :
    (s.withFetchWord nbits w).idx = s.idx := rfl
@[simp] theorem State.withFetchWord_enc (s : State) (nbits w : Nat) :
    (s.withFetchWord nbits w).enc = s.enc := rfl
@[simp] theorem State.withFetchWord_seq (s : State) (nbits w : Nat) :
    (s.withFetchWord nbits w).seq = s.seq := rfl
@[simp] theorem State.withFetchWord_ill (s : State) (nbits w : Nat) :
    (s.withFetchWord nbits w).ill = s.ill := rfl
@[simp] theorem State.withFetchWord_cmd (s : State) (nbits w : Nat) :
    (s.withFetchWord nbits w).cmd = BitVec.ofNat 32 (w % 2 ^ nbits) :: s.cmd := rfl
@[simp] theorem State.withFetchWord_responses (s : State) (nbits w : Nat) :
    (s.withFetchWord nbits w).responses = s.responses := rfl
@[simp] theorem State.withFetchWord_trace (s : State) (nbits w : Nat) :
    (s.withFetchWord nbits w).trace = s.trace := rfl
@[simp] theorem State.withFetchWord_sink (s : State) (nbits w : Nat) :
    (s.withFetchWord nbits w).sink = s.sink := rfl
@[simp] theorem State.withFetchWord_sinkFair (s : State) (nbits w : Nat) :
    (s.withFetchWord nbits w).sinkFair = s.sinkFair := rfl
@[simp] theorem State.withFetchWord_schedule (s : State) (nbits w : Nat) :
    (s.withFetchWord nbits w).schedule = [] := rfl
@[simp] theorem State.withFetchWord_toBlock (s : State) (nbits w : Nat) :
    (s.withFetchWord nbits w).toBlock = s.toBlock := rfl

/-! ### A name byte stored -/

@[simp] theorem Block.storeName_acc (b : Block) (c : Byte) :
    (b.storeName c).acc = b.acc := rfl
@[simp] theorem Block.storeName_len (b : Block) (c : Byte) :
    (b.storeName c).len = b.len := rfl
@[simp] theorem Block.storeName_name (b : Block) (c : Byte) :
    (b.storeName c).name = b.name.setIfInBounds b.ncnt.toNat c := rfl
@[simp] theorem Block.storeName_ncnt (b : Block) (c : Byte) :
    (b.storeName c).ncnt = b.ncnt + 1 := rfl
@[simp] theorem Block.storeName_rem (b : Block) (c : Byte) :
    (b.storeName c).rem = b.rem := rfl
@[simp] theorem Block.storeName_phase (b : Block) (c : Byte) :
    (b.storeName c).phase = b.phase := rfl
@[simp] theorem Block.storeName_idx (b : Block) (c : Byte) :
    (b.storeName c).idx = b.idx := rfl
@[simp] theorem Block.storeName_enc (b : Block) (c : Byte) :
    (b.storeName c).enc = b.enc := rfl
@[simp] theorem Block.storeName_seq (b : Block) (c : Byte) :
    (b.storeName c).seq = b.seq := rfl
@[simp] theorem Block.storeName_ill (b : Block) (c : Byte) :
    (b.storeName c).ill = b.ill := rfl

/-! ### The reset state of the block -/

@[simp] theorem Block.reset_acc : Block.reset.acc = 0 := rfl
@[simp] theorem Block.reset_len : Block.reset.len = 0 := rfl
@[simp] theorem Block.reset_name : Block.reset.name = Vector.replicate 12 0 := rfl
@[simp] theorem Block.reset_ncnt : Block.reset.ncnt = 0 := rfl
@[simp] theorem Block.reset_rem : Block.reset.rem = 0 := rfl
@[simp] theorem Block.reset_phase : Block.reset.phase = .idle := rfl
@[simp] theorem Block.reset_idx : Block.reset.idx = 0 := rfl
@[simp] theorem Block.reset_enc : Block.reset.enc = false := rfl
@[simp] theorem Block.reset_seq : Block.reset.seq = false := rfl
@[simp] theorem Block.reset_ill : Block.reset.ill = false := rfl

end Sys2Proof.Machine
end

