-- ==== Sys2Proof/Laws/Ops.lean ====
section
/-! SUPPORT. What each shared operation can do, said once: the command runner, the commands, the block's move,
the step. Later proofs cite these and do not unfold the operations. -/

namespace Sys2Proof.Machine

@[simp] theorem isDataWord_iff (w : Word) : isDataWord w = true ↔ w &&& 0xFFFFFF00 = 0x07000000 := beq_iff_eq

theorem State.cmdReady_of_not_data {s : State} {w : Word} (h₁ : s.phase ≠ .hdr) (h₂ : s.phase ≠ .dck)
    (h : s.phase = .data → isDataWord w = false) : s.cmdReady w = true := by
  cases hp : s.phase <;> simp_all [State.cmdReady]

/-! ### The command runner (R76, R77), phase by phase -/

theorem runCommand_held {s : State} (h : s.phase = .hdr ∨ s.phase = .dck) (c : CmdClass) (f : State → State) :
    runCommand c f s = .next s := by
  rcases h with h | h <;> simp [runCommand, verdict, h]

theorem runCommand_system {s : State} (h₁ : s.phase ≠ .hdr) (h₂ : s.phase ≠ .dck) (f : State → State) :
    runCommand .system f s = .next (f s) := by
  cases h : s.phase <;> simp_all [runCommand, verdict]

theorem runCommand_load_idle {s : State} (h : s.phase = .idle) (f : State → State) :
    runCommand .load f s = .next (f s) := by simp [runCommand, verdict, h]

theorem runCommand_load_seq {s : State} (h : s.phase = .data ∨ s.phase = .done) (f : State → State) :
    runCommand .load f s = .next (s.raiseFault .seq) := by
  rcases h with h | h <;> simp [runCommand, verdict, h]

theorem runCommand_load_err {s : State} (h : s.phase = .err) (f : State → State) :
    runCommand .load f s = .next s := by simp [runCommand, verdict, h]

theorem runCommand_payload_ready {s : State} (h : s.phase = .data) (hr : s.outReady = true) (f : State → State) :
    runCommand .payload f s = .next (f s) := by simp [runCommand, verdict, h, hr]

theorem runCommand_payload_wait {s : State} (h : s.phase = .data) (hr : s.outReady = false) (f : State → State) :
    runCommand .payload f s = .next s := by simp [runCommand, verdict, h, hr]

theorem runCommand_payload_seq {s : State} (h : s.phase = .idle ∨ s.phase = .done) (f : State → State) :
    runCommand .payload f s = .next (s.raiseFault .seq) := by
  rcases h with h | h <;> simp [runCommand, verdict, h]

theorem runCommand_payload_err {s : State} (h : s.phase = .err) (f : State → State) :
    runCommand .payload f s = .next s := by simp [runCommand, verdict, h]

theorem takeMalformed_ill {s : State} (h : s.phase ∈ [Phase.idle, .data, .done]) :
    takeMalformed s = .next (s.raiseFault .ill) := by
  simp only [List.mem_cons, List.not_mem_nil, or_false] at h
  rcases h with h | h | h <;> simp [takeMalformed, runCommand, verdict, h]

theorem takeMalformed_err {s : State} (h : s.phase = .err) : takeMalformed s = .next s := by
  simp [takeMalformed, runCommand, verdict, h]

/-- Everything the command runner can do: the effect, nothing, or fault entry with SEQ or ILL in a phase that
accepts commands and is not ERR. -/
theorem runCommand_cases {c : CmdClass} {f : State → State} {s t : State} (h : runCommand c f s = .next t) :
    (verdict c s.phase s.outReady = .legal ∧ t = f s) ∨ t = s ∨
    (s.phase ∈ [Phase.idle, .data, .done] ∧ c ≠ .system ∧ c ≠ .malformed ∧ t = s.raiseFault .seq) ∨
    (s.phase ∈ [Phase.idle, .data, .done] ∧ c = .malformed ∧ t = s.raiseFault .ill) := by
  unfold runCommand at h
  generalize hv : verdict c s.phase s.outReady = v at h
  cases v <;> simp only [Host.Outcome.next.injEq] at h <;> subst h
  · exact .inl ⟨rfl, rfl⟩
  · exact .inr (.inl rfl)
  all_goals
    first
      | exact .inr (.inl rfl)
      | (refine .inr (.inr ?_)
         cases hp : s.phase <;> cases c <;> cases hr : s.outReady <;> simp_all [verdict])

/-- A command always has a next state (R170, R206: faults are entries to ERR, waits change nothing). -/
theorem runCommand_total (c : CmdClass) (f : State → State) (s : State) : ∃ t, runCommand c f s = .next t := by
  unfold runCommand
  cases verdict c s.phase s.outReady <;> exact ⟨_, rfl⟩

/-! ### Every command as one run of its effect -/

theorem exec_nop (s : State) : exec .nop s = runCommand .system nopEffect s := rfl
theorem exec_clr (s : State) : exec .clr s = runCommand .system State.clear s := rfl
theorem exec_ckclr (s : State) : exec .ckclr s = runCommand .load ckclrEffect s := rfl
theorem exec_ckadd (b : Byte) (s : State) : exec (.ckadd b) s = runCommand .load (ckaddEffect b) s := rfl
theorem exec_namech (c : Imm) (s : State) : exec (.namech c) s = runCommand .load (namechEffect c) s := rfl
theorem exec_setlen (n : Imm) (s : State) : exec (.setlen n) s = runCommand .load (setlenEffect n) s := rfl
theorem exec_start (s : State) : exec .start s = runCommand .load startEffect s := rfl
theorem exec_data (b : Byte) (s : State) : exec (.data b) s = runCommand .payload (dataEffect b) s := rfl

theorem exec_read {r : Byte} (h : r.toNat ≤ 6) (s : State) :
    exec (.read r) s = runCommand .system (readEffect r) s := by
  simp only [exec, execRead, registerExists_iff, h, if_true]

theorem exec_read_malformed {r : Byte} (h : 6 < r.toNat) (s : State) : exec (.read r) s = takeMalformed s := by
  simp only [exec, execRead, registerExists_iff, Nat.not_le.2 h, if_false]

theorem exec_total (i : Instr) (s : State) : ∃ t, exec i s = .next t := by
  cases i with
  | read r =>
    by_cases h : r.toNat ≤ 6
    · rw [exec_read h]; exact runCommand_total _ _ _
    · rw [exec_read_malformed (by omega)]; exact runCommand_total _ _ _
  | nop => exact runCommand_total _ nopEffect _
  | clr => exact runCommand_total _ State.clear _
  | ckclr => exact runCommand_total _ ckclrEffect _
  | ckadd b => exact runCommand_total _ (ckaddEffect b) _
  | namech c => exact runCommand_total _ (namechEffect c) _
  | setlen n => exact runCommand_total _ (setlenEffect n) _
  | start => exact runCommand_total _ startEffect _
  | data b => exact runCommand_total _ (dataEffect b) _

/-- A command presented in HDR or DCK is held (R62, R77). -/
theorem exec_held {s : State} (h : s.phase = .hdr ∨ s.phase = .dck) (i : Instr) : exec i s = .next s := by
  cases i with
  | read r =>
    by_cases hr : r.toNat ≤ 6
    · rw [exec_read hr]; exact runCommand_held h _ _
    · rw [exec_read_malformed (by omega)]; exact runCommand_held h _ _
  | nop => exact runCommand_held h _ nopEffect
  | clr => exact runCommand_held h _ State.clear
  | ckclr => exact runCommand_held h _ ckclrEffect
  | ckadd b => exact runCommand_held h _ (ckaddEffect b)
  | namech c => exact runCommand_held h _ (namechEffect c)
  | setlen n => exact runCommand_held h _ (setlenEffect n)
  | start => exact runCommand_held h _ startEffect
  | data b => exact runCommand_held h _ (dataEffect b)

/-- Everything a command can do: hold, drop or change nothing; its own effect; or fault entry with SEQ or ILL. -/
theorem exec_cases {i : Instr} {s t : State} (h : exec i s = .next t) :
    t = s ∨
    (s.phase ≠ .hdr ∧ s.phase ≠ .dck ∧ i = .clr ∧ t = s.clear) ∨
    (s.phase ≠ .hdr ∧ s.phase ≠ .dck ∧ ∃ r, i = .read r ∧ r.toNat ≤ 6 ∧ t = readEffect r s) ∨
    (s.phase = .idle ∧ i = .ckclr ∧ t = ckclrEffect s) ∨
    (s.phase = .idle ∧ ∃ b, i = .ckadd b ∧ t = ckaddEffect b s) ∨
    (s.phase = .idle ∧ ∃ c, i = .namech c ∧ t = namechEffect c s) ∨
    (s.phase = .idle ∧ ∃ n, i = .setlen n ∧ t = setlenEffect n s) ∨
    (s.phase = .idle ∧ i = .start ∧ t = startEffect s) ∨
    (s.phase = .data ∧ s.outReady = true ∧ ∃ b, i = .data b ∧ t = dataEffect b s) ∨
    (s.phase ∈ [Phase.idle, .data, .done] ∧ (t = s.raiseFault .seq ∨ t = s.raiseFault .ill)) := by
  have run : ∀ {c f}, runCommand c f s = .next t →
      (verdict c s.phase s.outReady = .legal ∧ t = f s) ∨ t = s ∨
      (s.phase ∈ [Phase.idle, .data, .done] ∧ (t = s.raiseFault .seq ∨ t = s.raiseFault .ill)) := by
    intro c f h
    rcases runCommand_cases h with h | h | ⟨h, -, -, h'⟩ | ⟨h, -, h'⟩
    · exact .inl h
    · exact .inr (.inl h)
    · exact .inr (.inr ⟨h, .inl h'⟩)
    · exact .inr (.inr ⟨h, .inr h'⟩)
  have load : verdict .load s.phase s.outReady = .legal → s.phase = .idle := by
    cases s.phase <;> simp [verdict]
  have payload : verdict .payload s.phase s.outReady = .legal → s.phase = .data ∧ s.outReady = true := by
    cases s.phase <;> cases s.outReady <;> simp [verdict]
  have system : verdict .system s.phase s.outReady = .legal → s.phase ≠ .hdr ∧ s.phase ≠ .dck := by
    cases s.phase <;> simp [verdict]
  cases i with
  | nop =>
    rcases run (c := .system) (f := nopEffect) h with ⟨-, h⟩ | h | h
    · exact .inl h
    · exact .inl h
    · simp [h]
  | clr =>
    rcases run (c := .system) (f := State.clear) h with ⟨hv, h⟩ | h | h
    · simp [system hv, h]
    · exact .inl h
    · simp [h]
  | ckclr =>
    rcases run (c := .load) (f := ckclrEffect) h with ⟨hv, h⟩ | h | h
    · simp [load hv, h]
    · exact .inl h
    · simp [h]
  | ckadd b =>
    rcases run (c := .load) (f := ckaddEffect b) h with ⟨hv, h⟩ | h | h
    · simp [load hv, h]
    · exact .inl h
    · simp [h]
  | namech c =>
    rcases run (c := .load) (f := namechEffect c) h with ⟨hv, h⟩ | h | h
    · simp [load hv, h]
    · exact .inl h
    · simp [h]
  | setlen n =>
    rcases run (c := .load) (f := setlenEffect n) h with ⟨hv, h⟩ | h | h
    · simp [load hv, h]
    · exact .inl h
    · simp [h]
  | start =>
    rcases run (c := .load) (f := startEffect) h with ⟨hv, h⟩ | h | h
    · simp [load hv, h]
    · exact .inl h
    · simp [h]
  | data b =>
    rcases run (c := .payload) (f := dataEffect b) h with ⟨hv, h⟩ | h | h
    · simp [payload hv, h]
    · exact .inl h
    · simp [h]
  | read r =>
    by_cases hr : r.toNat ≤ 6
    · rw [exec_read hr] at h
      rcases run h with ⟨hv, h⟩ | h | h
      · simp [system hv, h, hr]
      · exact .inl h
      · simp [h]
    · rw [exec_read_malformed (by omega)] at h
      rcases runCommand_cases h with ⟨hv, -⟩ | h | ⟨h, -, -, h'⟩ | ⟨h, -, h'⟩
      · exfalso
        revert hv
        cases s.phase <;> simp [verdict]
      · exact .inl h
      · simp [h, h']
      · simp [h, h']

theorem acceptWord_ok {w : Word} {i : Instr} (h : decode w = .ok i) (s : State) : acceptWord w s = exec i s := by
  simp [acceptWord, h]

theorem acceptWord_error {w : Word} {e : Malformed} (h : decode w = .error e) (s : State) :
    acceptWord w s = takeMalformed s := by simp [acceptWord, h]

theorem acceptWord_total (w : Word) (s : State) : ∃ t, acceptWord w s = .next t := by
  cases h : decode w with
  | ok i => rw [acceptWord_ok h]; exact exec_total i s
  | error e => rw [acceptWord_error h]; exact runCommand_total _ _ _

/-- Everything an accepted word can do. -/
theorem acceptWord_cases {w : Word} {s t : State} (h : acceptWord w s = .next t) :
    (∃ i, decode w = .ok i ∧ exec i s = .next t) ∨ t = s ∨
    ((∀ i, decode w ≠ .ok i) ∧ s.phase ∈ [Phase.idle, .data, .done] ∧ t = s.raiseFault .ill) := by
  cases hd : decode w with
  | ok i => exact .inl ⟨i, rfl, by rwa [acceptWord_ok hd] at h⟩
  | error e =>
    rw [acceptWord_error hd] at h
    rcases runCommand_cases h with ⟨hv, -⟩ | h | ⟨-, -, h, -⟩ | ⟨h, -, h'⟩
    · exfalso
      revert hv
      cases s.phase <;> simp [verdict]
    · exact .inr (.inl h)
    · exact absurd rfl h
    · exact .inr (.inr ⟨fun _ hi => (by cases hi), h, h'⟩)

/-! ### The block's move -/

@[simp] theorem Block.big_iff (b : Block) : b.big = true ↔ 65535 < b.len.toNat := by
  unfold Block.big Config.maxData
  exact decide_eq_true_iff

theorem Block.big_eq_false {b : Block} : b.big = false ↔ b.len.toNat ≤ 65535 := by
  rw [← Bool.not_eq_true, Block.big_iff]
  omega

theorem Block.inRange_iff (b : Block) :
    b.inRange = true ↔ b.ncnt.toNat ≤ 12 ∧ (b.phase = .dck → b.idx.toNat ≤ 1) ∧ b.rem.toNat ≤ b.len.toNat ∧
      (b.phase = .data → 1 ≤ b.rem.toNat) := by
  simp only [Block.inRange, Bool.and_eq_true, Bool.or_eq_true, decide_eq_true_eq, 
    Decidable.not_not, ne_eq, Classical.or_iff_not_imp_left]
  exact ⟨fun ⟨⟨⟨a, b⟩, c⟩, d⟩ => ⟨a, b, c, d⟩, fun ⟨a, b, c, d⟩ => ⟨⟨⟨a, b⟩, c⟩, d⟩⟩

theorem State.blockEnabled_emit {s : State} (h : s.phase = .hdr ∨ s.phase = .dck) :
    s.blockEnabled = s.outReady := by
  rcases h with h | h <;> simp [State.blockEnabled, h]

theorem State.blockEnabled_cmd {s : State} {w : Word} {ws : List Word} (h₁ : s.phase ≠ .hdr) (h₂ : s.phase ≠ .dck)
    (hc : s.cmd = w :: ws) : s.blockEnabled = s.cmdReady w := by
  unfold State.blockEnabled
  split <;> simp_all

theorem State.blockEnabled_nil {s : State} (h₁ : s.phase ≠ .hdr) (h₂ : s.phase ≠ .dck) (hc : s.cmd = []) :
    s.blockEnabled = false := by
  unfold State.blockEnabled
  split <;> simp_all

theorem blockMove_header {s : State} (hr : s.inRange = true) (h : s.phase = .hdr) (ho : s.outReady = true) :
    blockMove s = .next (headerEmit s) := by
  simp [blockMove, hr, h, State.blockEnabled, ho]

theorem blockMove_trailer {s : State} (hr : s.inRange = true) (h : s.phase = .dck) (ho : s.outReady = true) :
    blockMove s = .next (trailerEmit s) := by
  simp [blockMove, hr, h, State.blockEnabled, ho]

theorem blockMove_accept {s : State} {w : Word} {ws : List Word} (hr : s.inRange = true) (h₁ : s.phase ≠ .hdr)
    (h₂ : s.phase ≠ .dck) (hc : s.cmd = w :: ws) (hw : s.cmdReady w = true) :
    blockMove s = acceptWord w { s with cmd := ws } := by
  have he := State.blockEnabled_cmd h₁ h₂ hc
  unfold blockMove
  rw [if_pos hr, if_pos (he.trans hw)]
  split <;> simp_all

theorem blockMove_wait {s : State} (hr : s.inRange = true) (he : s.blockEnabled = false) :
    blockMove s = .next s := by simp [blockMove, hr, he]

/-- Everything the block's move can do. -/
theorem blockMove_cases {s t : State} (h : blockMove s = .next t) :
    s.inRange = true ∧
    ((s.blockEnabled = false ∧ t = s) ∨
     (s.phase = .hdr ∧ s.outReady = true ∧ t = headerEmit s) ∨
     (s.phase = .dck ∧ s.outReady = true ∧ t = trailerEmit s) ∨
     ∃ w ws, s.cmd = w :: ws ∧ s.phase ≠ .hdr ∧ s.phase ≠ .dck ∧ s.cmdReady w = true ∧
       acceptWord w { s with cmd := ws } = .next t) := by
  have hr : s.inRange = true := by
    by_contra hn
    simp [blockMove, hn] at h
  refine ⟨hr, ?_⟩
  cases he : s.blockEnabled with
  | false =>
    rw [blockMove_wait hr he] at h
    exact .inl ⟨rfl, (Host.Outcome.next.inj h).symm⟩
  | true =>
    by_cases h₁ : s.phase = .hdr
    · have ho := (State.blockEnabled_emit (.inl h₁)).symm.trans he
      rw [blockMove_header hr h₁ ho] at h
      exact .inr (.inl ⟨h₁, ho, (Host.Outcome.next.inj h).symm⟩)
    · by_cases h₂ : s.phase = .dck
      · have ho := (State.blockEnabled_emit (.inr h₂)).symm.trans he
        rw [blockMove_trailer hr h₂ ho] at h
        exact .inr (.inr (.inl ⟨h₂, ho, (Host.Outcome.next.inj h).symm⟩))
      · cases hc : s.cmd with
        | nil => simp [State.blockEnabled_nil h₁ h₂ hc] at he
        | cons w ws =>
          have hw := (State.blockEnabled_cmd h₁ h₂ hc).symm.trans he
          rw [blockMove_accept hr h₁ h₂ hc hw] at h
          exact .inr (.inr (.inr ⟨w, ws, rfl, h₁, h₂, hw, h⟩))

theorem blockMove_total {s : State} (hr : s.inRange = true) : ∃ t, blockMove s = .next t := by
  cases he : s.blockEnabled with
  | false => exact ⟨s, blockMove_wait hr he⟩
  | true =>
    by_cases h₁ : s.phase = .hdr
    · exact ⟨_, blockMove_header hr h₁ ((State.blockEnabled_emit (.inl h₁)).symm.trans he)⟩
    · by_cases h₂ : s.phase = .dck
      · exact ⟨_, blockMove_trailer hr h₂ ((State.blockEnabled_emit (.inr h₂)).symm.trans he)⟩
      · cases hc : s.cmd with
        | nil => simp [State.blockEnabled_nil h₁ h₂ hc] at he
        | cons w ws =>
          rw [blockMove_accept hr h₁ h₂ hc ((State.blockEnabled_cmd h₁ h₂ hc).symm.trans he)]
          exact acceptWord_total _ _

/-! ### The step -/

/-- The state as the move scheduled first finds it. -/
def State.scheduled (s : State) : State := { s with schedule := s.schedule.tail }

@[simp] theorem State.scheduled_toBlock (s : State) : s.scheduled.toBlock = s.toBlock := rfl
@[simp] theorem State.scheduled_cmd (s : State) : s.scheduled.cmd = s.cmd := rfl
@[simp] theorem State.scheduled_trace (s : State) : s.scheduled.trace = s.trace := rfl
@[simp] theorem State.scheduled_responses (s : State) : s.scheduled.responses = s.responses := rfl
@[simp] theorem State.scheduled_sink (s : State) : s.scheduled.sink = s.sink := rfl
@[simp] theorem State.scheduled_outReady (s : State) : s.scheduled.outReady = s.outReady := rfl
@[simp] theorem State.scheduled_sinkFair (s : State) : s.scheduled.sinkFair = s.sinkFair := rfl
@[simp] theorem State.scheduled_schedule (s : State) : s.scheduled.schedule = s.schedule.tail := rfl

theorem State.scheduled_of_nil {s : State} (h : s.schedule = []) : s.scheduled = s := by
  obtain ⟨b, c, r, t, k, f, sch⟩ := s
  simp only at h
  subst h
  rfl

/-- The state as an accepted word finds it: the move and the word taken from their lists. -/
def State.accepting (s : State) (ws : List Word) : State := { s.scheduled with cmd := ws }

@[simp] theorem State.accepting_toBlock (s : State) (ws : List Word) : (s.accepting ws).toBlock = s.toBlock := rfl
@[simp] theorem State.accepting_cmd (s : State) (ws : List Word) : (s.accepting ws).cmd = ws := rfl
@[simp] theorem State.accepting_trace (s : State) (ws : List Word) : (s.accepting ws).trace = s.trace := rfl
@[simp] theorem State.accepting_responses (s : State) (ws : List Word) :
    (s.accepting ws).responses = s.responses := rfl
@[simp] theorem State.accepting_sink (s : State) (ws : List Word) : (s.accepting ws).sink = s.sink := rfl
@[simp] theorem State.accepting_sinkFair (s : State) (ws : List Word) :
    (s.accepting ws).sinkFair = s.sinkFair := rfl
@[simp] theorem State.accepting_outReady (s : State) (ws : List Word) :
    (s.accepting ws).outReady = s.outReady := rfl
@[simp] theorem State.accepting_schedule (s : State) (ws : List Word) :
    (s.accepting ws).schedule = s.schedule.tail := rfl

/-- The step at `s` is the move `k` of the sink: it is scheduled, or nothing is and a fair sink makes it. -/
def State.MakesSinkMove (s : State) (k : SinkMove) : Prop :=
  s.schedule.head? = some (.sink k) ∨
  (s.schedule = [] ∧ s.sinkFair = true ∧ s.sink.fairMove s.presented.isSome = some k)

/-- Everything one step can do: the block's move, hardware reset, a move of the host, a move of the sink, or
nothing at all. -/
theorem step_cases {s t : State} (h : step s = .next t) :
    blockMove s.scheduled = .next t ∨
    (s.schedule.head? = some .hardReset ∧ t = hardReset s.scheduled) ∨
    (∃ m, t = hostMove m s.scheduled) ∨
    (∃ k, s.MakesSinkMove k ∧ t = { s.scheduled with sink := s.sink.move k }) ∨
    (s.schedule = [] ∧ s.blockEnabled = false ∧ t = s) := by
  cases hs : s.schedule with
  | nil =>
    simp only [step, hs] at h
    have hself := State.scheduled_of_nil hs
    rw [hself]
    unfold defaultMove at h
    cases he : s.blockEnabled with
    | true => exact .inl (by simpa [he] using h)
    | false =>
      simp only [he, Bool.false_eq_true, if_false] at h
      split at h
      · rename_i hf
        cases hk : s.sink.fairMove s.presented.isSome with
        | some k =>
          simp only [hk, Host.Outcome.next.injEq] at h
          exact .inr (.inr (.inr (.inl ⟨k, .inr ⟨hs, hf, hk⟩, h.symm⟩)))
        | none =>
          simp only [hk, Host.Outcome.next.injEq] at h
          exact .inr (.inr (.inr (.inr ⟨rfl, rfl, h.symm⟩)))
      · exact .inr (.inr (.inr (.inr ⟨rfl, rfl, (Host.Outcome.next.inj h).symm⟩)))
  | cons m ms =>
    have hsch : s.scheduled = { s with schedule := ms } := by simp [State.scheduled, hs]
    simp only [step, hs] at h
    rw [hsch]
    cases m with
    | block => exact .inl h
    | hardReset => exact .inr (.inl ⟨rfl, (Host.Outcome.next.inj h).symm⟩)
    | host m => exact .inr (.inr (.inl ⟨m, (Host.Outcome.next.inj h).symm⟩))
    | sink k => exact .inr (.inr (.inr (.inl ⟨k, .inl (by rw [hs]; rfl), (Host.Outcome.next.inj h).symm⟩)))

/-- One step, down to the rule that made it: nothing, hardware reset, the host, the sink, the two emit steps, or
an accepted word, which is a command or malformed. -/
theorem step_inv {s t : State} (h : step s = .next t) :
    t = s.scheduled ∨
    (s.schedule.head? = some .hardReset ∧ t = hardReset s.scheduled) ∨
    (∃ m, t = hostMove m s.scheduled) ∨
    (∃ k, s.MakesSinkMove k ∧ t = { s.scheduled with sink := s.sink.move k }) ∨
    (s.inRange = true ∧ s.phase = .hdr ∧ s.outReady = true ∧ t = headerEmit s.scheduled) ∨
    (s.inRange = true ∧ s.phase = .dck ∧ s.outReady = true ∧ t = trailerEmit s.scheduled) ∨
    (s.inRange = true ∧ ∃ w ws, s.cmd = w :: ws ∧ s.phase ≠ .hdr ∧ s.phase ≠ .dck ∧ s.cmdReady w = true ∧
      ((∃ i, decode w = .ok i ∧ exec i (s.accepting ws) = .next t) ∨ t = s.accepting ws ∨
       ((∀ i, decode w ≠ .ok i) ∧ s.phase ∈ [Phase.idle, .data, .done] ∧
        t = (s.accepting ws).raiseFault .ill))) := by
  rcases step_cases h with h | h | h | h | ⟨hs, -, rfl⟩
  · obtain ⟨hr, ⟨-, rfl⟩ | ⟨hp, ho, rfl⟩ | ⟨hp, ho, rfl⟩ | ⟨w, ws, hc, h₁, h₂, hw, h⟩⟩ := blockMove_cases h
    · exact .inl rfl
    · exact .inr (.inr (.inr (.inr (.inl ⟨hr, hp, ho, rfl⟩))))
    · exact .inr (.inr (.inr (.inr (.inr (.inl ⟨hr, hp, ho, rfl⟩)))))
    · exact .inr (.inr (.inr (.inr (.inr (.inr ⟨hr, w, ws, hc, h₁, h₂, hw, acceptWord_cases h⟩)))))
  · exact .inr (.inl h)
  · exact .inr (.inr (.inl h))
  · exact .inr (.inr (.inr (.inl h)))
  · exact .inl (State.scheduled_of_nil hs).symm

/-- With nothing scheduled and a step of the block enabled, the step is the block's. -/
theorem step_default_block {s : State} (hs : s.schedule = []) (he : s.blockEnabled = true) :
    step s = blockMove s := by
  simp [step, hs, defaultMove, he]

/-- With the block's move scheduled, the step is that move. -/
theorem step_scheduled_block {s : State} {ms : List Move} (hs : s.schedule = .block :: ms) :
    step s = blockMove { s with schedule := ms } := by
  simp [step, hs, runMove]

@[simp] theorem hostMove_toBlock (m : HostMove) (s : State) : (hostMove m s).toBlock = s.toBlock := by
  cases m <;> rfl
@[simp] theorem hostMove_trace (m : HostMove) (s : State) : (hostMove m s).trace = s.trace := by cases m <;> rfl
@[simp] theorem hostMove_responses (m : HostMove) (s : State) : (hostMove m s).responses = s.responses := by
  cases m <;> rfl
@[simp] theorem hostMove_sink (m : HostMove) (s : State) : (hostMove m s).sink = s.sink := by cases m <;> rfl

end Sys2Proof.Machine
end

