-- ==== Sys2Proof/Laws/Sequencer.lean ====
section
/-! SUPPORT. The emit steps and DATA, one equation for each case of R122, R123 and R124, and the arithmetic of
their registers. -/

namespace Sys2Proof.Machine

theorem idx_eq_15 {x : BitVec 4} (h : 15 ≤ x.toNat) : x = 15 := by
  apply BitVec.eq_of_toNat_eq
  have := x.isLt
  rw [show (15 : BitVec 4).toNat = 15 from rfl]
  omega

theorem idx_eq_14 {x : BitVec 4} (h : 13 < x.toNat) (h' : x.toNat < 15) : x = 14 := by
  apply BitVec.eq_of_toNat_eq
  rw [show (14 : BitVec 4).toNat = 14 from rfl]
  omega

theorem idx_eq_1 {x : BitVec 4} (h : x ≠ 0) (h' : x.toNat ≤ 1) : x = 1 := by
  have h0 : x.toNat ≠ 0 := fun e => h (BitVec.eq_of_toNat_eq e)
  apply BitVec.eq_of_toNat_eq
  rw [show (1 : BitVec 4).toNat = 1 from rfl]
  omega

theorem add8_toNat (a : Half) (b : Byte) : (add8 a b).toNat = (a.toNat + b.toNat) % 65536 := by
  have := b.isLt
  simp only [add8, zext16, BitVec.toNat_add, BitVec.truncate_eq_setWidth, BitVec.toNat_setWidth]
  omega

/-- `add8` in numbers (R100). -/
theorem add8_eq (a : Half) (b : Byte) : add8 a b = BitVec.ofNat 16 ((a.toNat + b.toNat) % 65536) := by
  apply BitVec.eq_of_toNat_eq
  rw [add8_toNat, BitVec.toNat_ofNat]
  omega

@[simp] theorem lowByte_toNat (v : Half) : (lowByte v).toNat = v.toNat % 256 := by
  simp [lowByte, BitVec.extractLsb'_toNat]

@[simp] theorem highByte_toNat (v : Half) : (highByte v).toNat = v.toNat / 256 := by
  have := v.isLt
  simp only [highByte, BitVec.extractLsb'_toNat, Nat.shiftRight_eq_div_pow]
  omega

@[simp] theorem Block.size_toNat (b : Block) : b.size.toNat = b.len.toNat % 65536 := by
  simp [Block.size, BitVec.extractLsb'_toNat]

/-! ### The header emit step -/

theorem headerEmit_covered {s : State} (h : s.idx.toNat ≤ 13) :
    headerEmit s =
      { s.emit (s.headerByte s.idx.toNat) false with
        acc := add8 s.acc (s.headerByte s.idx.toNat), idx := s.idx + 1 } := by
  have h15 : s.idx.toNat ≠ 15 := by omega
  simp [headerEmit, h, h15]

theorem headerEmit_low {s : State} (h : s.idx = 14) :
    headerEmit s = { s.emit (lowByte s.acc) false with idx := 15 } := by
  simp [headerEmit, h, Block.headerByte]

theorem headerEmit_delete {s : State} (h : s.idx = 15) (hl : s.len = 0) :
    headerEmit s = { s.emit (highByte s.acc) true with idx := 0, phase := .done } := by
  simp [headerEmit, h, hl, Block.headerByte]

theorem headerEmit_upload {s : State} (h : s.idx = 15) (hl : s.len ≠ 0) :
    headerEmit s = { s.emit (highByte s.acc) false with idx := 0, acc := 0, rem := s.size, phase := .data } := by
  simp only [headerEmit, h, Block.headerByte, hl]
  simp

/-- The four cases of the header emit step. -/
theorem headerEmit_cases (s : State) :
    (s.idx.toNat ≤ 13 ∧ headerEmit s =
      { s.emit (s.headerByte s.idx.toNat) false with
        acc := add8 s.acc (s.headerByte s.idx.toNat), idx := s.idx + 1 }) ∨
    (s.idx = 14 ∧ headerEmit s = { s.emit (lowByte s.acc) false with idx := 15 }) ∨
    (s.idx = 15 ∧ s.len = 0 ∧
      headerEmit s = { s.emit (highByte s.acc) true with idx := 0, phase := .done }) ∨
    (s.idx = 15 ∧ s.len ≠ 0 ∧ headerEmit s =
      { s.emit (highByte s.acc) false with idx := 0, acc := 0, rem := s.size, phase := .data }) := by
  by_cases h : s.idx.toNat ≤ 13
  · exact .inl ⟨h, headerEmit_covered h⟩
  · by_cases h' : s.idx.toNat < 15
    · have hi := idx_eq_14 (by omega) h'
      exact .inr (.inl ⟨hi, headerEmit_low hi⟩)
    · have hi : s.idx = 15 := idx_eq_15 (by omega)
      by_cases hl : s.len = 0
      · exact .inr (.inr (.inl ⟨hi, hl, headerEmit_delete hi hl⟩))
      · exact .inr (.inr (.inr ⟨hi, hl, headerEmit_upload hi hl⟩))

/-! ### The trailer emit step and DATA -/

theorem trailerEmit_low {s : State} (h : s.idx = 0) :
    trailerEmit s = { s.emit (lowByte s.acc) false with idx := 1 } := if_pos h

theorem trailerEmit_high {s : State} (h : s.idx ≠ 0) :
    trailerEmit s = { s.emit (highByte s.acc) true with idx := 0, phase := .done } := if_neg h

theorem dataEffect_last {s : State} (b : Byte) (h : s.rem = 1) :
    dataEffect b s = { s.emit b false with acc := add8 s.acc b, rem := s.rem - 1, phase := .dck } := if_pos h

theorem dataEffect_more {s : State} (b : Byte) (h : s.rem ≠ 1) :
    dataEffect b s = { s.emit b false with acc := add8 s.acc b, rem := s.rem - 1 } := if_neg h

/-- What START does in IDLE: it faults with ENC, faults with BIG, or begins the header (R112). -/
theorem startEffect_cases (s : State) :
    (s.enc = true ∧ startEffect s = s.raiseFault .enc) ∨
    (s.enc = false ∧ 65535 < s.len.toNat ∧ startEffect s = s.raiseFault .big) ∨
    (s.enc = false ∧ s.len.toNat ≤ 65535 ∧ startEffect s = { s with acc := 0, phase := .hdr }) := by
  unfold startEffect
  cases he : s.enc with
  | true => simp
  | false =>
    by_cases hb : 65535 < s.len.toNat
    · exact .inr (.inl ⟨rfl, hb, by simp [hb]⟩)
    · exact .inr (.inr ⟨rfl, by omega, by simp [hb]⟩)

/-- What NAMECH does in IDLE: it sets `ENC`, stores a character, or changes nothing (R110). -/
theorem namechEffect_cases (c : Imm) (s : State) :
    (0x7F < c.toNat ∧ namechEffect c s = { s with enc := true }) ∨
    (c.toNat ≤ 0x7F ∧ s.ncnt.toNat < 12 ∧
      namechEffect c s = { s with toBlock := s.toBlock.storeName (immByte c) }) ∨
    (c.toNat ≤ 0x7F ∧ 12 ≤ s.ncnt.toNat ∧ namechEffect c s = s) := by
  unfold namechEffect Config.asciiMax Config.nameLen
  by_cases hc : 0x7F < c.toNat
  · exact .inl ⟨hc, if_pos hc⟩
  · by_cases hn : s.ncnt.toNat < 12
    · exact .inr (.inl ⟨by omega, hn, by rw [if_neg hc, if_pos hn]⟩)
    · exact .inr (.inr ⟨by omega, by omega, by rw [if_neg hc, if_neg hn]⟩)

/-! ### Entry to ERR -/

/-- The commands for which R77 has SEQ in a phase: DATA in IDLE, everything but NOP, CLR, READ and DATA in DATA, and
everything but NOP, CLR and READ in DONE. -/
def MisplacedIn (i : Instr) (p : Phase) : Prop :=
  i ≠ .nop ∧ i ≠ .clr ∧ (∀ r, i ≠ .read r) ∧
  ((p = .idle ∧ ∃ b, i = .data b) ∨ (p = .data ∧ ∀ b, i ≠ .data b) ∨ p = .done)

theorem verdict_load_seq {p : Phase} {r : Bool} (h : verdict .load p r = .seq) : p = .data ∨ p = .done := by
  cases p <;> simp_all [verdict]

theorem verdict_payload_seq {p : Phase} {r : Bool} (h : verdict .payload p r = .seq) : p = .idle ∨ p = .done := by
  cases p <;> cases r <;> simp_all [verdict]

/-- A command step that enters ERR and is not its own effect's doing is SEQ by the table of R77. -/
theorem runCommand_enters_err {c : CmdClass} {f : State → State} {s t : State} (h : runCommand c f s = .next t)
    (hp : s.phase ≠ .err) (ht : t.phase = .err) (hc : c ≠ .malformed)
    (hf : verdict c s.phase s.outReady = .legal → (f s).phase ≠ .err) :
    t.seq = true ∧ verdict c s.phase s.outReady = .seq := by
  unfold runCommand at h
  cases hv : verdict c s.phase s.outReady <;> rw [hv] at h <;> simp only [Host.Outcome.next.injEq] at h <;> subst h
  · exact absurd ht (hf hv)
  · exact absurd ht hp
  · exact ⟨rfl, rfl⟩
  · exfalso
    revert hv
    cases s.phase <;> cases c <;> cases s.outReady <;> simp_all [verdict]
  · exact absurd ht hp

theorem dataEffect_phase {b : Byte} {s : State} (h : s.phase = .data) : (dataEffect b s).phase ≠ .err := by
  by_cases hr : s.rem = 1
  · rw [dataEffect_last b hr]; simp
  · rw [dataEffect_more b hr]; simp [State.emit, h]

/-- Why a command enters ERR: START in IDLE finds ENC or BIG; R77 has SEQ for it; or it is a READ of no register. -/
theorem exec_enters_err {i : Instr} {s t : State} (h : exec i s = .next t) (hp : s.phase ≠ .err)
    (ht : t.phase = .err) :
    (i = .start ∧ s.phase = .idle ∧ (s.enc = true ∨ 65535 < s.len.toNat)) ∨
    (t.seq = true ∧ MisplacedIn i s.phase) ∨ ∃ r, i = .read r ∧ 6 < r.toNat := by
  have system : ∀ {f : State → State}, runCommand .system f s = .next t → (f s).phase ≠ .err → False := by
    intro f h hf
    have := (runCommand_enters_err h hp ht (by decide) (fun _ => hf)).2
    revert this
    cases s.phase <;> simp [verdict]
  have load : ∀ {f : State → State}, runCommand .load f s = .next t → (s.phase = .idle → (f s).phase ≠ .err) →
      t.seq = true ∧ (s.phase = .data ∨ s.phase = .done) := by
    intro f h hf
    have hl : verdict .load s.phase s.outReady = .legal → s.phase = .idle := by cases s.phase <;> simp [verdict]
    obtain ⟨a, b⟩ := runCommand_enters_err h hp ht (by decide) (fun hv => hf (hl hv))
    exact ⟨a, verdict_load_seq b⟩
  have misplaced : ∀ {j : Instr}, j ≠ .nop → j ≠ .clr → (∀ r, j ≠ .read r) → (∀ b, j ≠ .data b) →
      (s.phase = .data ∨ s.phase = .done) → MisplacedIn j s.phase :=
    fun h₁ h₂ h₃ h₄ h => ⟨h₁, h₂, h₃, .inr (h.imp (fun h => ⟨h, h₄⟩) id)⟩
  cases i with
  | nop => exact (system (f := nopEffect) h hp).elim
  | clr => exact (system (f := State.clear) h (by simp [State.clear, Block.reset])).elim
  | read r =>
    by_cases hr : r.toNat ≤ 6
    · rw [exec_read hr] at h
      exact (system h hp).elim
    · exact .inr (.inr ⟨r, rfl, by omega⟩)
  | ckclr =>
    obtain ⟨a, b⟩ := load (f := ckclrEffect) h (fun _ => hp)
    exact .inr (.inl ⟨a, misplaced nofun nofun nofun nofun b⟩)
  | ckadd x =>
    obtain ⟨a, b⟩ := load (f := ckaddEffect x) h (fun _ => hp)
    exact .inr (.inl ⟨a, misplaced nofun nofun nofun nofun b⟩)
  | namech c =>
    obtain ⟨a, b⟩ := load (f := namechEffect c) h (fun _ => by
      rcases namechEffect_cases c s with ⟨-, e⟩ | ⟨-, -, e⟩ | ⟨-, -, e⟩ <;> rw [e] <;> exact hp)
    exact .inr (.inl ⟨a, misplaced nofun nofun nofun nofun b⟩)
  | setlen n =>
    obtain ⟨a, b⟩ := load (f := setlenEffect n) h (fun _ => hp)
    exact .inr (.inl ⟨a, misplaced nofun nofun nofun nofun b⟩)
  | start =>
    by_cases hc : s.enc = true ∨ 65535 < s.len.toNat
    · by_cases hi : s.phase = .idle
      · exact .inl ⟨rfl, hi, hc⟩
      · obtain ⟨a, b⟩ := load (f := startEffect) h (fun e => absurd e hi)
        exact .inr (.inl ⟨a, misplaced nofun nofun nofun nofun b⟩)
    · obtain ⟨a, b⟩ := load (f := startEffect) h (fun _ => by
        rcases startEffect_cases s with ⟨h₁, -⟩ | ⟨-, h₁, -⟩ | ⟨-, -, e⟩
        · exact absurd (.inl h₁) hc
        · exact absurd (.inr h₁) hc
        · rw [e]; simp)
      exact .inr (.inl ⟨a, misplaced nofun nofun nofun nofun b⟩)
  | data x =>
    have hl : verdict .payload s.phase s.outReady = .legal → s.phase = .data := by
      cases s.phase <;> cases s.outReady <;> simp [verdict]
    obtain ⟨a, b⟩ := runCommand_enters_err (c := .payload) (f := dataEffect x) h hp ht (by decide)
      (fun hv => dataEffect_phase (hl hv))
    refine .inr (.inl ⟨a, nofun, nofun, nofun, ?_⟩)
    exact (verdict_payload_seq b).imp (fun h => ⟨h, x, rfl⟩) .inr

end Sys2Proof.Machine
end

