-- ==== Sys2Proof/Laws/Frame.lean ====
section
/-! SUPPORT. The checksum, the markers and the header as lists of bytes, one byte at a time. -/

namespace Sys2Proof.Machine

/-! ### The checksum -/

@[simp] theorem byteSum_nil : byteSum [] = 0 := rfl
@[simp] theorem byteSum_cons (b : Byte) (s : List Byte) : byteSum (b :: s) = b.toNat + byteSum s := rfl

@[simp] theorem byteSum_append (s t : List Byte) : byteSum (s ++ t) = byteSum s + byteSum t := by
  induction s with
  | nil => simp
  | cons b s ih => simp [ih, Nat.add_assoc]

theorem byteSum_replicate (n : Nat) (b : Byte) : byteSum (List.replicate n b) = n * b.toNat := by
  induction n with
  | zero => simp
  | succ n ih => simp [List.replicate_succ, ih, Nat.succ_mul, Nat.add_comm]

theorem byteSum_le_of_forall {s : List Byte} {m : Nat} (h : ∀ b ∈ s, b.toNat ≤ m) : byteSum s ≤ s.length * m := by
  induction s with
  | nil => simp
  | cons b s ih =>
    have h₁ := h b (by simp)
    have h₂ := ih (fun c hc => h c (by simp [hc]))
    simp only [byteSum_cons, List.length_cons, Nat.succ_mul]
    omega

theorem checksum_toNat (s : List Byte) : (checksum s).toNat = byteSum s % 65536 := by
  simp [checksum, Config.ckMod]

@[simp] theorem checksum_nil : checksum [] = 0 := rfl

/-- One more byte in the sum is one `add8` (R100, R101). -/
theorem checksum_snoc (s : List Byte) (b : Byte) : checksum (s ++ [b]) = add8 (checksum s) b := by
  apply BitVec.eq_of_toNat_eq
  rw [add8_toNat, checksum_toNat, checksum_toNat]
  simp

/-! ### Markers (R125) -/

@[simp] theorem markNone_nil : markNone [] = [] := rfl

@[simp] theorem markNone_append (s t : List Byte) : markNone (s ++ t) = markNone s ++ markNone t := by
  simp [markNone]

@[simp] theorem markNone_length (s : List Byte) : (markNone s).length = s.length := by simp [markNone]

theorem markNone_singleton (b : Byte) : markNone [b] = [⟨b, false⟩] := rfl

/-- The final byte alone carries `last` (R125). -/
theorem markLast_snoc (s : List Byte) (b : Byte) : markLast (s ++ [b]) = markNone s ++ [⟨b, true⟩] := by
  induction s with
  | nil => rfl
  | cons c s ih =>
    cases s with
    | nil => rfl
    | cons d s => simpa [markLast, markNone] using ih

@[simp] theorem markLast_bytes (s : List Byte) : (markLast s).map (·.byte) = s := by
  induction s using List.reverseRecOn with
  | nil => rfl
  | append_singleton s b _ => simp [markLast_snoc, markNone, Function.comp_def]

@[simp] theorem markLast_length (s : List Byte) : (markLast s).length = s.length := by
  rw [← List.length_map (f := (·.byte)), markLast_bytes]

/-! ### The name buffer -/

@[simp] theorem Block.nameBytes_length (b : Block) : b.nameBytes.length = 12 := by simp [Block.nameBytes]

@[simp] theorem Block.nameBytes_getElem (b : Block) (i : Nat) (h : i < b.nameBytes.length) :
    b.nameBytes[i] = b.nameByte i := by
  have h12 : i < 12 := by simpa using h
  simp [Block.nameByte, Block.nameBytes, List.getD_eq_getElem?_getD, h12]

theorem Block.storeName_nameBytes (b : Block) (c : Byte) :
    (b.storeName c).nameBytes = b.nameBytes.set b.ncnt.toNat c := by
  simp [Block.nameBytes, Block.storeName]

theorem Block.storeName_nameByte (b : Block) (c : Byte) (i : Nat) (hi : i < 12) :
    (b.storeName c).nameByte i = if i = b.ncnt.toNat then c else b.nameByte i := by
  have e : (b.storeName c).nameByte i = (b.storeName c).nameBytes[i]'(by simpa using hi) := by simp
  have e' : b.nameByte i = b.nameBytes[i]'(by simpa using hi) := by simp
  rw [e, e']
  simp only [Block.storeName_nameBytes, List.getElem_set]
  by_cases h : b.ncnt.toNat = i
  · rw [if_pos h, if_pos h.symm]
  · rw [if_neg h, if_neg (Ne.symm h)]

@[simp] theorem Block.reset_nameByte (i : Nat) : Block.reset.nameByte i = 0 := by
  simp only [Block.nameByte, Block.reset, Vector.toList_replicate, List.getD_eq_getElem?_getD,
    List.getElem?_replicate]
  split <;> rfl

/-! ### The header -/

/-- The covered bytes of the header of the frame a block sends (R9 `HDR_COVERED`, R53). -/
def Block.covered (b : Block) : List Byte := le16 b.size ++ b.nameBytes

@[simp] theorem Block.covered_length (b : Block) : b.covered.length = 14 := by simp [Block.covered, le16]

theorem Block.frameHeader_eq (b : Block) :
    b.frameHeader = b.covered ++ [lowByte (checksum b.covered), highByte (checksum b.covered)] := rfl

@[simp] theorem Block.frameHeader_length (b : Block) : b.frameHeader.length = 16 := by
  simp [Block.frameHeader_eq]

/-- The covered bytes are the header bytes of R121 at 0 to 13. -/
theorem Block.covered_getElem (b : Block) (i : Nat) (hi : i < 14) :
    b.covered[i]'(by simpa using hi) = b.headerByte i := by
  match i, hi with
  | 0, _ => simp [Block.covered, le16, Block.headerByte]
  | 1, _ => simp [Block.covered, le16, Block.headerByte]
  | k + 2, h => simp [Block.covered, le16, Block.headerByte, show k + 2 ≤ 13 by omega]

theorem Block.covered_take_succ (b : Block) (i : Nat) (hi : i < 14) :
    b.covered.take (i + 1) = b.covered.take i ++ [b.headerByte i] := by
  rw [List.take_succ_eq_append_getElem (by simpa using hi), Block.covered_getElem b i hi]

theorem Block.frameHeader_take (b : Block) (i : Nat) (hi : i ≤ 14) : b.frameHeader.take i = b.covered.take i := by
  rw [Block.frameHeader_eq, List.take_append_of_le_length (by simpa using hi)]

@[simp] theorem Block.covered_take_14 (b : Block) : b.covered.take 14 = b.covered :=
  List.take_of_length_le (by simp)

@[simp] theorem Block.frameHeader_take_14 (b : Block) : b.frameHeader.take 14 = b.covered := by
  rw [Block.frameHeader_take b 14 le_rfl, Block.covered_take_14]

theorem Block.frameHeader_take_15 (b : Block) :
    b.frameHeader.take 15 = b.covered ++ [lowByte (checksum b.covered)] := by
  have h : (b.covered ++ [lowByte (checksum b.covered)]).length = 15 := by simp
  rw [Block.frameHeader_eq, ← List.append_cancel_left_eq (as := []), List.nil_append, List.nil_append,
    show b.covered ++ [lowByte (checksum b.covered), highByte (checksum b.covered)] =
      (b.covered ++ [lowByte (checksum b.covered)]) ++ [highByte (checksum b.covered)] by simp,
    List.take_append_of_le_length (by simp), List.take_of_length_le (by simp)]

/-- The frame of a payload of the declared length begins with the block's own header (R79, R83). -/
theorem Block.frame_eq (b : Block) (d : List Byte) (hl : d.length = b.len.toNat) :
    frame b.nameBytes d = if d = [] then b.frameHeader else b.frameHeader ++ d ++ le16 (checksum d) := by
  have hsize : BitVec.ofNat 16 d.length = b.size := by
    apply BitVec.eq_of_toNat_eq
    rw [BitVec.toNat_ofNat, Block.size_toNat, hl]
  unfold frame Block.frameHeader
  rw [hsize]
  cases d <;> simp

end Sys2Proof.Machine
end

