-- ==== Sys2Proof/Laws/PerInstr.lean ====
section
/-! SUPPORT. A fact about every command as syntax, one lemma per constructor. -/

/-- The operand field of a command is one its form allows (R71, R72), whatever the operand: a word built from it
differs from a malformed word of that opcode. -/
def Sys2Proof.Laws.OperandFitsForm.Statement (i : Sys2Proof.Instr) : Prop :=
  i.fieldOk i.operand

namespace Sys2Proof.Laws.OperandFitsForm

open Sys2Proof

theorem nop : Statement .nop := rfl
theorem clr : Statement .clr := rfl
theorem ckclr : Statement .ckclr := rfl
theorem ckadd (b : Byte) : Statement (.ckadd b) := ⟨immHigh_byte b, (immByte_byte b).symm⟩
theorem namech (c : Imm) : Statement (.namech c) := rfl
theorem setlen (n : Imm) : Statement (.setlen n) := rfl
theorem start : Statement .start := rfl
theorem data (b : Byte) : Statement (.data b) := ⟨immHigh_byte b, (immByte_byte b).symm⟩
theorem read (r : Byte) : Statement (.read r) := ⟨immHigh_byte r, (immByte_byte r).symm⟩

end Sys2Proof.Laws.OperandFitsForm
end

