-- ==== Sys2Proof/Laws/Run.lean ====
section
/-! SUPPORT. Runs of the machine, step by step, and the induction over reachable states, once. -/

namespace Sys2Proof.Machine

/-- `k` steps that all go on, as a run of the machine's own states. -/
def runs (k : Nat) (s : State) : Host.Outcome State Fault Refusal := Sys2Proof.core.run k s

@[simp] theorem runs_zero (s : State) : runs 0 s = .next s := rfl

theorem runs_succ {s t : State} (h : step s = .next t) (k : Nat) : runs (k + 1) s = runs k t := by
  have hc : Sys2Proof.core.step s = .next t := h
  simp only [runs, Host.Core.run, hc]
  rfl

theorem runs_one {s t : State} (h : step s = .next t) : runs 1 s = .next t := by
  rw [runs_succ h, runs_zero]

/-- Runs follow one another. -/
theorem runs_add {m : Nat} {s t : State} (h : runs m s = .next t) (n : Nat) : runs (m + n) s = runs n t := by
  induction m generalizing s with
  | zero =>
    rw [runs_zero] at h
    cases h
    rw [Nat.zero_add]
  | succ m ih =>
    cases hs : step s with
    | next u =>
      rw [runs_succ hs] at h
      rw [Nat.add_right_comm, runs_succ hs, ih h]
    | fault r => cases r
    | refused r =>
      have hc : Sys2Proof.core.step s = .refused r := hs
      simp only [runs, Host.Core.run, hc] at h
      cases h

/-- An invariant that holds at every start and is kept by every step holds in every reachable state. -/
theorem reachable_induct {P : State → Prop}
    (start : ∀ s : State, s.toBlock = Block.reset → s.trace = [] → s.sink = Sink.fresh → P s)
    (kept : ∀ s t : State, P s → step s = .next t → P t) {s : State} (h : Reachable s) : P s := by
  induction h with
  | start s hb ht hk => exact start s hb ht hk
  | step s t _ hm ih => exact kept s t ih hm

/-- Running on from a reachable state stays among the reachable states. -/
theorem reachable_runs {k : Nat} {s t : State} (hs : Reachable s) (h : runs k s = .next t) : Reachable t := by
  induction k generalizing s with
  | zero =>
    rw [runs_zero] at h
    cases h
    exact hs
  | succ k ih =>
    cases hm : Machine.step s with
    | next u =>
      rw [runs_succ hm] at h
      exact ih (.step s u hs hm) h
    | fault r => cases r
    | refused r =>
      have hc : Sys2Proof.core.step s = .refused r := hm
      simp only [runs, Host.Core.run, hc] at h
      cases h

end Sys2Proof.Machine
end

