-- ==== Sys2Proof/Laws/Sink.lean ====
section
/-! SUPPORT. The sink: what readiness says, what taking bytes does, and what a step can do to a sink. -/

namespace Sys2Proof.Machine

theorem Sink.outReady_iff (k : Sink) :
    k.outReady = true ↔ k.state = .writing ∧ k.ready = true ∧ k.ended = false := by
  simp [Sink.outReady, and_assoc]

@[simp] theorem State.emit_outReady (s : State) (b : Byte) (last : Bool) :
    (s.emit b last).outReady = (s.outReady && !last) := by
  change (decide (s.sink.state = .writing) && s.sink.ready && !(s.sink.ended || last)) =
    (decide (s.sink.state = .writing) && s.sink.ready && !s.sink.ended && !last)
  cases last <;> simp

@[simp] theorem Sink.held_iff_acquired (k : Sink) : k.held = true ↔ k.acquired ≠ none := by
  simp [Sink.held, Option.isSome_iff_ne_none]

theorem Sink.openSink_idle {k : Sink} (h : k.state = .idle) (c : Config.SinkConfig) (ok : Bool) :
    k.openSink c ok =
      if ok then { k with state := .opened, acquired := some ⟨Config.openArgs c⟩ }
      else k.release (.failed .openFailed) := by
  cases ok <;> simp [Sink.openSink, h, ByteSink.acquire]

/-- Everything a fair sink can do of itself. -/
theorem Sink.fairMove_cases {k : Sink} {wanted : Bool} {m : SinkMove} (h : k.fairMove wanted = some m) :
    (k.state = .writing ∧ k.ended = true ∧ m = .flush true) ∨
    (k.state = .writing ∧ k.ended = false ∧ wanted = true ∧ k.ready = false ∧ m = .setReady true) ∨
    (k.state = .settling ∧ m = .settleDone) ∨
    (k.state = .idle ∧ wanted = true ∧ m = .openSink Config.sinkConfig true) ∨
    (k.state = .opened ∧ m = .beginWrite) ∨
    (k.state = .closed ∧ wanted = true ∧ k.result = some .ok ∧ m = .restart) := by
  unfold Sink.fairMove at h
  split at h <;> (repeat' split at h) <;> simp_all

/-- What `n` bytes leaving the UART do: they are its first `n`, in order. -/
theorem Sink.drains_eq (n : Nat) (k : Sink) :
    k.drains n = { k with uart := k.uart.drop n, line := k.line ++ k.uart.take n } := by
  induction n generalizing k with
  | zero => simp [Sink.drains]
  | succ n ih =>
    rw [Sink.drains, ih]
    unfold Sink.drain
    split
    · simp_all
    · simp_all

/-- The bytes of a frame, taken one after another (R161). -/
theorem Sink.take_foldl (f : List OutByte) (k : Sink) :
    f.foldl Sink.take k =
      { k with count := k.count + f.length, uart := k.uart ++ f.map (·.byte),
               ended := k.ended || f.any (·.last) } := by
  induction f generalizing k with
  | nil => simp
  | cons o f ih =>
    rw [List.foldl_cons, ih]
    simp [Sink.take, Bool.or_assoc, Nat.add_comm, Nat.add_left_comm]

theorem headerEmit_sink (s : State) :
    ∃ o, (headerEmit s).trace = s.trace ++ [o] ∧ (headerEmit s).sink = s.sink.take o := by
  rcases headerEmit_cases s with ⟨-, e⟩ | ⟨-, e⟩ | ⟨-, -, e⟩ | ⟨-, -, e⟩ <;> rw [e] <;> exact ⟨_, rfl, rfl⟩

theorem trailerEmit_sink (s : State) :
    ∃ o, (trailerEmit s).trace = s.trace ++ [o] ∧ (trailerEmit s).sink = s.sink.take o := by
  by_cases h : s.idx = 0
  · rw [trailerEmit_low h]; exact ⟨_, rfl, rfl⟩
  · rw [trailerEmit_high h]; exact ⟨_, rfl, rfl⟩

theorem dataEffect_sink (b : Byte) (s : State) : (dataEffect b s).sink = s.sink.take ⟨b, false⟩ := by
  by_cases h : s.rem = 1
  · rw [dataEffect_last b h]; rfl
  · rw [dataEffect_more b h]; rfl

theorem dataEffect_trace (b : Byte) (s : State) : (dataEffect b s).trace = s.trace ++ [⟨b, false⟩] := by
  by_cases h : s.rem = 1
  · rw [dataEffect_last b h]; rfl
  · rw [dataEffect_more b h]; rfl

/-- A command leaves the sink alone, but for a DATA, which hands it its byte. -/
theorem exec_sink {i : Instr} {s t : State} (h : exec i s = .next t) :
    t.sink = s.sink ∨ ∃ b, i = .data b ∧ s.outReady = true ∧ t.trace = s.trace ++ [⟨b, false⟩] ∧
      t.sink = s.sink.take ⟨b, false⟩ := by
  rcases exec_cases h with rfl | ⟨-, -, -, rfl⟩ | ⟨-, -, r, -, -, rfl⟩ | ⟨-, -, rfl⟩ | ⟨-, -, -, rfl⟩ |
    ⟨-, c, -, rfl⟩ | ⟨-, -, -, rfl⟩ | ⟨-, -, rfl⟩ | ⟨-, ho, b, rfl, rfl⟩ | ⟨-, rfl | rfl⟩
  case inr.inr.inr.inr.inr.inl =>
    rcases namechEffect_cases c s with ⟨-, e⟩ | ⟨-, -, e⟩ | ⟨-, -, e⟩ <;> rw [e] <;> exact .inl rfl
  case inr.inr.inr.inr.inr.inr.inr.inl =>
    rcases startEffect_cases s with ⟨-, e⟩ | ⟨-, -, e⟩ | ⟨-, -, e⟩ <;> rw [e] <;> exact .inl rfl
  case inr.inr.inr.inr.inr.inr.inr.inr.inl => 
    exact .inr ⟨b, rfl, ho, dataEffect_trace b s, dataEffect_sink b s⟩
  all_goals exact .inl rfl

/-- Everything one step can do to the sink: nothing, one move of the sink's own, or one byte taken while it is
ready. -/
theorem step_sink {s t : State} (h : step s = .next t) :
    t.sink = s.sink ∨ (∃ m, s.MakesSinkMove m ∧ t.sink = s.sink.move m) ∨
    (s.outReady = true ∧ ∃ o, t.trace = s.trace ++ [o] ∧ t.sink = s.sink.take o) := by
  rcases step_inv h with rfl | ⟨-, rfl⟩ | ⟨m, rfl⟩ | ⟨k, hk, rfl⟩ | ⟨-, -, ho, rfl⟩ | ⟨-, -, ho, rfl⟩ |
    ⟨-, w, ws, -, -, -, -, ⟨i, -, h⟩ | rfl | ⟨-, -, rfl⟩⟩
  · exact .inl rfl
  · exact .inl rfl
  · exact .inl (hostMove_sink m _)
  · exact .inr (.inl ⟨k, hk, rfl⟩)
  · exact .inr (.inr ⟨ho, headerEmit_sink _⟩)
  · exact .inr (.inr ⟨ho, trailerEmit_sink _⟩)
  · rcases exec_sink h with h | ⟨b, -, ho, ht, h⟩
    · exact .inl h
    · exact .inr (.inr ⟨ho, _, ht, h⟩)
  · exact .inl rfl
  · exact .inl rfl

end Sys2Proof.Machine
end

