-- ==== Sys2Proof/Tests/Slice0.lean ====
section
/-! SUPPORT. Tests of the model: expected values are the spec's own (30_encoding.md, 95_test_vectors.md, the worked
examples of the rules), never the model's; and, for every statement with hypotheses, concrete states that meet
them, at the boundary of each clause. -/

namespace Sys2Proof.Tests

open Sys2Proof.Machine

/-! ### Small states -/

/-- The reset state in phase `p`. -/
def inPhase (p : Phase) : State := { State.reset with phase := p }

/-- Phase DATA with one byte owed. -/
def owing : State := { inPhase .data with len := 1, rem := 1 }

/-- A sink that takes a byte. -/
def readySink : Sink :=
  { Sink.fresh with state := .writing, acquired := some ⟨Config.openArgs ⟨7⟩⟩, ready := true }

/-- The state with such a sink. -/
def taking (s : State) : State := { s with sink := readySink }

/-- The state with these words presented. -/
def given (s : State) (ws : List Word) : State := { s with cmd := ws }

/-- The state with the block's move scheduled. -/
def scheduled (s : State) : State := { s with schedule := [.block] }

/-- The state after an outcome. -/
def after : Host.Outcome State Fault Refusal → Option State
  | .next t => some t
  | .fault _ => none
  | .refused _ => none

/-- One view of the state after an outcome. -/
def view {α : Type} (f : State → α) (o : Host.Outcome State Fault Refusal) : Option α := (after o).map f

/-- The name `myfile.txt` in the name buffer (ASCII codes: 93_implementation_defined.md G3). -/
def myfile : Vector Byte 12 := #v[0x6D, 0x79, 0x66, 0x69, 0x6C, 0x65, 0x2E, 0x74, 0x78, 0x74, 0x00, 0x00]

/-- The state after program P1 (95_test_vectors.md), but for its trace. -/
def afterP1 : State := { inPhase .done with acc := 0x0126, len := 3, name := myfile, ncnt := 10 }

/-! ### Well-formedness (R74) -/

theorem test_wellFormed_read_above_6 : (Instr.read 7).wellFormed = false := by decide
theorem test_wellFormed_read_255 : (Instr.read 255).wellFormed = false := by decide
theorem test_wellFormed_read_6 : (Instr.read 6).wellFormed = true := by decide

/-! ### Decoding, each word written out from R70 and R73: `op` in bits 31:24, `imm` in bits 23:0 -/

theorem test_decode_nop : decode 0b00000000_000000000000000000000000 = .ok .nop := by decide
theorem test_decode_clr : decode 0b00000001_000000000000000000000000 = .ok .clr := by decide
theorem test_decode_ckclr : decode 0b00000010_000000000000000000000000 = .ok .ckclr := by decide
theorem test_decode_ckadd : decode 0b00000011_000000000000000011000001 = .ok (.ckadd 0xC1) := by decide
theorem test_decode_namech : decode 0b00000100_100000000000000001101101 = .ok (.namech 0x80006D) := by decide
theorem test_decode_setlen : decode 0b00000101_000000010000000000000011 = .ok (.setlen 65539) := by decide
theorem test_decode_start : decode 0b00000110_000000000000000000000000 = .ok .start := by decide
theorem test_decode_data : decode 0b00000111_000000000000000010000001 = .ok (.data 0x81) := by decide
theorem test_decode_read : decode 0b00001000_000000000000000000000110 = .ok (.read 6) := by decide

/-- R75, V38 to V43: the reserved space, and which condition of R74 fails. -/
theorem test_decode_malformed :
    decode 0x09000000 = .error .undefinedOpcode ∧ decode 0xFFFFFFFF = .error .undefinedOpcode ∧
    decode 0x06000001 = .error .reservedBits ∧ decode 0x03000100 = .error .reservedBits ∧
    decode 0x00000001 = .error .reservedBits ∧ decode 0x08000007 = .error .noSuchRegister := by decide

theorem test_rows_disjoint : opcodeRows.Pairwise (fun a b => a.pattern &&& b.mask ≠ b.pattern) := by decide

theorem test_decodeTableWord : decodeTableWord 32 0x07000061 = some (.data 0x61) := by decide

theorem test_withFetchWord :
    view (fun t => (t.ncnt.toNat, t.nameByte 0, t.cmd)) (step (State.reset.withFetchWord 32 0x0400006D)) =
      some (1, 0x6D, []) := by decide

/-! ### One step per command, with the spec's worked examples -/

/-- R140: "in DATA with `REM = 2`, NOP leaves `REM = 2`". -/
theorem test_nop : view (fun t => (t.phase, t.rem)) (exec .nop { owing with len := 2, rem := 2 }) =
    some (.data, 2) := by decide

/-- R141: "in ERR with `STATUS = 0x00000147`, CLR, then `STATUS = 0x00000000`". -/
theorem test_clr :
    let s : State := { inPhase .err with len := 2, rem := 1, acc := 0x10, ncnt := 1, seq := true }
    s.status = 0x147 ∧ view (fun t => (t.status, t.acc, t.rem)) (exec .clr s) = some (0, 0, 0) := by decide

/-- R102: "`ACC = 0x0126`, CKCLR, then `ACC = 0x0000`". -/
theorem test_ckclr : view (·.acc) (exec .ckclr { inPhase .idle with acc := 0x0126 }) = some 0 := by decide

/-- R103 and V6: `ACC = 0xFFFF`, `b = 0xFF` gives `0x00FE`. -/
theorem test_ckadd_wraps : view (·.acc) (exec (.ckadd 0xFF) { inPhase .idle with acc := 0xFFFF }) = some 0xFE := by
  decide

/-- V8. -/
theorem test_ckadd_to_zero : view (·.acc) (exec (.ckadd 0xFF) { inPhase .idle with acc := 0xFF01 }) = some 0 := by
  decide

/-- R110: `NAMECH 'm'` from reset. -/
theorem test_namech : view (fun t => (t.nameByte 0, t.ncnt.toNat, t.enc)) (exec (.namech 0x6D) State.reset) =
    some (0x6D, 1, false) := by decide

/-- V17: a thirteenth character that is not ASCII sets `ENC`. -/
theorem test_namech_thirteenth :
    view (fun t => (t.enc, t.ncnt.toNat)) (exec (.namech 0xE9) { inPhase .idle with ncnt := 12 }) =
      some (true, 12) := by decide

/-- R111, V23: `SETLEN 65536`, and STATUS bit 5. -/
theorem test_setlen : view (fun t => (t.len, t.status)) (exec (.setlen 65536) State.reset) =
    some (0x010000, 0x20) := by decide

/-- V18: both bad, the fault is ENC, both bits visible. -/
theorem test_start_both_bad :
    view (fun t => (t.phase, t.status)) (exec .start { inPhase .idle with enc := true, len := 0x010000 }) =
      some (.err, 0x37) := by decide

/-- R112: a stand-alone sum is discarded and the header begins. -/
theorem test_start : view (fun t => (t.phase, t.acc, t.idx)) (exec .start { inPhase .idle with acc := 0xAA }) =
    some (.hdr, 0, 0) := by decide

/-- R123: "in DATA with `ACC = 0x00C3, REM = 1`, `DATA 0x63` emits `63`, gives `ACC = 0x0126, REM = 0`". -/
theorem test_data :
    view (fun t => (t.trace, t.acc, t.rem, t.phase))
      (exec (.data 0x63) (taking { owing with len := 3, acc := 0xC3 })) =
      some ([⟨0x63, false⟩], 0x0126, 0, .dck) := by decide

/-- V37: DATA in IDLE takes SEQ. -/
theorem test_data_in_idle : view (fun t => (t.status, t.trace)) (exec (.data 0x61) State.reset) =
    some (0x47, []) := by decide

/-- V33: the seven views after P1. -/
theorem test_read_views :
    (List.range 7).map (fun r => view (·.responses) (exec (.read (BitVec.ofNat 8 r)) afterP1)) =
      [some [0x00000A04], some [0x00000126], some [0x00000003], some [0x00000000], some [0x6966796D],
       some [0x742E656C], some [0x00007478]] := by decide

/-- V41: READ of register 7 takes ILL and gives no response. -/
theorem test_read_seven : view (fun t => (t.status, t.responses)) (exec (.read 7) State.reset) =
    some (0x87, []) := by decide

/-! ### The sequencer -/

/-- V29: the header emit step at index 11 of P1. -/
theorem test_header_emit :
    view (fun t => (t.trace, t.acc, t.idx.toNat))
      (step (taking { inPhase .hdr with idx := 11, acc := 0x03A3, name := myfile, len := 3 })) =
      some ([⟨0x74, false⟩], 0x0417, 12) := by decide

/-- V29: the header emit step at index 15 of P1. -/
theorem test_header_end :
    view (fun t => (t.trace, t.acc, t.rem, t.phase))
      (step (taking { inPhase .hdr with idx := 15, acc := 0x0417, name := myfile, len := 3 })) =
      some ([⟨0x04, false⟩], 0, 3, .data) := by decide

/-- V30: the second trailer emit step. -/
theorem test_trailer_emit :
    view (fun t => (t.trace, t.acc, t.phase))
      (step (taking { inPhase .dck with idx := 1, acc := 0x0126, len := 3 })) =
      some ([⟨0x01, true⟩], 0x0126, .done) := by decide

/-- V31: `cmd_ready`. -/
theorem test_cmd_ready :
    (inPhase .hdr).cmdReady 0 = false ∧ (inPhase .dck).cmdReady 0x01000000 = false ∧
    owing.cmdReady 0x07000000 = false ∧ (taking owing).cmdReady 0x07000000 = true ∧
    owing.cmdReady 0x08000000 = true ∧ owing.cmdReady 0x04000061 = true := by decide

/-- V49: hardware reset in the middle of a header. -/
theorem test_hardware_reset :
    view (fun t => (t.status, t.idx, t.trace, t.doneOut, t.faultOut))
      (step { inPhase .hdr with idx := 7, trace := [⟨3, false⟩], schedule := [.hardReset] }) =
      some (0, 0, [], false, false) := by decide

/-! ### The frame, the assembler, the sink -/

/-- P1: the 21 bytes of the document's concrete case. -/
theorem test_frame_P1 : frame myfile.toList [0x61, 0x62, 0x63] =
    [0x03, 0x00, 0x6D, 0x79, 0x66, 0x69, 0x6C, 0x65, 0x2E, 0x74, 0x78, 0x74, 0x00, 0x00, 0x17, 0x04, 0x61, 0x62,
     0x63, 0x26, 0x01] := by decide

/-- P2: the 16 bytes of the document's delete case. -/
theorem test_frame_P2 : buildDelete ("myfile.txt".toList.map (fun c => BitVec.ofNat 24 c.toNat)) =
    .ok [0x00, 0x00, 0x6D, 0x79, 0x66, 0x69, 0x6C, 0x65, 0x2E, 0x74, 0x78, 0x74, 0x00, 0x00, 0x14, 0x04] := by
  rfl

/-- R113, C4: twelve ASCII characters and a thirteenth that is not. -/
theorem test_encname_thirteenth : encname (List.replicate 12 0x61 ++ [0xE9]) = none := by decide

/-- R84, R85 and words of P4's listing. -/
theorem test_assemble :
    assemble ["UPLOAD \"a\", 1".toList] =
      some [0x01000000, 0x04000061, 0x05000001, 0x06000000, 0x07000001] ∧
    assemble ["NAMECH 0xE9 ; not ASCII".toList, "READ NAME0".toList] = some [0x040000E9, 0x08000004] ∧
    assemble ["CKADD 256".toList] = none := by decide

/-- X9: a write that fails leaves the sink `Closed`, released, with `Write`. -/
theorem test_send_write_fails :
    let k := Sink.fresh.send ⟨7⟩ (markLast [0x00, 0x01]) true false true 1 0
    k.state = .closed ∧ k.held = false ∧ k.result = some (.failed .writeFailed) := by decide

/-- X10: the settle delay of the longest frame, 65553 bytes: 65553 / 90 + 1/2 = 65598 / 90 seconds. -/
theorem test_settle : Config.settleSeconds 65553 = 65598 / 90 := by
  norm_num [Config.settleSeconds, Config.throughputBps, Config.guardS]

/-! ### Witnesses: states and operands that meet the hypotheses of each statement, clause by clause -/

/-- A header emit step is due: nothing of the frame has gone out yet. -/
def heading : State := taking (inPhase .hdr)

theorem heading_inv : heading.Inv := by
  refine ⟨?_, [], [], rfl, rfl, rfl⟩
  constructor <;> decide

/-- The words of `UPLOAD` with these codes and bytes. -/
def uploadWords (codes : List Imm) (bytes : List Byte) : List Word :=
  ((.clr :: pseudoName codes ++ [.setlen (BitVec.ofNat 24 bytes.length), .start] ++ pseudoPayload bytes :
    List Instr)).map encode

theorem pseudoUpload_some {codes : List Imm} {bytes : List Byte} (h : bytes.length ≤ 16777215) :
    ∃ cmds, pseudoUpload codes bytes = some cmds ∧ uploadWords codes bytes = cmds.map encode :=
  ⟨_, if_pos h, rfl⟩

theorem witness_DecodeOfEncodeIsTheCommand : (Instr.read 6).wellFormed = true := by decide

theorem witness_EncodeOfDecodeIsTheWord : decode 0x08000006 = .ok (.read 6) := by decide

theorem witness_StepRunsTheDecodedCommand :
    let s := given (taking owing) [0x07000061]
    decode 0x07000061 = .ok (.data 0x61) ∧ s.inRange = true ∧ s.phase ≠ .hdr ∧ s.phase ≠ .dck ∧
      s.cmdReady 0x07000061 = true ∧ s.schedule = [] ∧ { s with schedule := [.block] }.inRange = true := by decide

theorem witness_MalformedWordTakesIll :
    decode 0x08000007 = .error .noSuchRegister ∧
    (∀ s ∈ [inPhase .idle, owing, inPhase .done, inPhase .err], (scheduled s).inRange = true ∧
      (scheduled s).schedule = .block :: []) := by decide

theorem witness_WordAcceptedExactlyWhenReady :
    (∃ t, step (given (taking (inPhase .hdr)) [0]) = .next t) ∧
    (∃ t, step (given (taking (inPhase .dck)) [0]) = .next t) ∧
    (∃ t, step (given (taking owing) [0x070000FF]) = .next t ∧ (taking owing).outReady = true) ∧
    (∃ t, step (given owing [0x070000FF]) = .next t ∧ owing.outReady = false) ∧
    (∃ t, step (given owing [0x07000100]) = .next t ∧ (0x07000100 : Word) &&& 0xFFFFFF00 ≠ 0x07000000) :=
  ⟨⟨_, rfl⟩, ⟨_, rfl⟩, ⟨_, rfl, by decide⟩, ⟨_, rfl, by decide⟩, ⟨_, rfl, by decide⟩⟩

theorem witness_ErrPhaseActsOnClrAndReadOnly :
    let s := scheduled (inPhase .err)
    s.inRange = true ∧ s.schedule = .block :: [] ∧ s.phase = .err ∧
    ((0x08000006 : Word) &&& 0xFFFFFF00 = 0x08000000 ∧ (0x08000006 : Word).toNat % 2 ^ 8 ≤ 6) ∧
    ((0x08000007 : Word) ≠ 0x01000000 ∧
      ¬((0x08000007 : Word) &&& 0xFFFFFF00 = 0x08000000 ∧ (0x08000007 : Word).toNat % 2 ^ 8 ≤ 6)) := by decide

/-- W6, W7 and `REM = 0` in DATA, each at its least value out of range; 12, 1, `REM = LEN` and 1 are in range. -/
theorem witness_OutOfRangeStatesAreRefused :
    ({ inPhase .idle with ncnt := 13 } : State).inRange = false ∧
    ({ inPhase .dck with idx := 2 } : State).inRange = false ∧
    ({ inPhase .err with rem := 1 } : State).inRange = false ∧ (inPhase .data).inRange = false ∧
    ({ inPhase .idle with ncnt := 12 } : State).inRange = true ∧
    ({ inPhase .dck with idx := 1 } : State).inRange = true ∧ owing.inRange = true := by decide

theorem witness_HardwareResetFromAnyState :
    ({ inPhase .hdr with ncnt := 13, schedule := [.hardReset] } : State).schedule = .hardReset :: [] := rfl

/-- A word of each opcode that its rule calls malformed, and one of each form W opcode. -/
theorem witness_commands_malformed_words :
    (0x00000001 : Word).toNat % 2 ^ 24 ≠ 0 ∧ (0x01800000 : Word).toNat / 2 ^ 24 = 0x01 ∧
    (0x02000001 : Word).toNat / 2 ^ 24 = 0x02 ∧ (0x03000100 : Word).toNat / 2 ^ 8 % 2 ^ 16 ≠ 0 ∧
    (0x04FFFFFF : Word).toNat / 2 ^ 24 = 0x04 ∧ (0x05FFFFFF : Word).toNat / 2 ^ 24 = 0x05 ∧
    (0x06000001 : Word).toNat / 2 ^ 24 = 0x06 ∧ (0x07000100 : Word).toNat / 2 ^ 8 % 2 ^ 16 ≠ 0 ∧
    (0x08000100 : Word).toNat / 2 ^ 8 % 2 ^ 16 ≠ 0 ∧ 6 < (0x08000007 : Word).toNat % 2 ^ 8 := by decide

/-- The phases of the clauses of NopChangesNothing, ClrGivesTheResetState, CkclrClearsTheAccumulator and
CkaddAddsOneByte: every phase is the phase of some state. -/
theorem witness_command_phases :
    ∀ p ∈ [Phase.idle, .hdr, .data, .dck, .done, .err], (inPhase p).phase = p := by decide

/-- NamechStoresOneCharacter: codes 0x80 and 0x7F, `NCNT` 11 and 12, and a stored character under it. -/
theorem witness_NamechStoresOneCharacter :
    0x7F < (0x80 : Imm).toNat ∧ (0x7F : Imm).toNat ≤ 0x7F ∧ (11 : BitVec 4).toNat < 12 ∧
    12 ≤ (12 : BitVec 4).toNat ∧
    view (·.nameByte 0) (exec (.namech 0x62) { inPhase .idle with name := myfile, ncnt := 1 }) = some 0x6D := by
  decide

/-- SetlenDeclaresTheLength and StartChecksAndBeginsTheHeader: the lengths 65535 and 65536, `ENC` both ways. -/
theorem witness_StartChecksAndBeginsTheHeader :
    (0x00FFFF : Imm).toNat ≤ 65535 ∧ 65535 < (0x010000 : Imm).toNat ∧
    ({ inPhase .idle with enc := true } : State).enc = true ∧ (inPhase .idle).enc = false := by decide

theorem witness_DataPassesOneByteThrough :
    (taking owing).phase = .data ∧ (taking owing).outReady = true ∧ 1 ≤ (taking owing).rem.toNat ∧
    owing.outReady = false := by decide

theorem witness_ReadRespondsWithOneView :
    (6 : Byte).toNat ≤ 6 ∧ 6 < (7 : Byte).toNat ∧ (6 : Byte).toNat = 4 + 2 ∧ owing.phase ≠ .hdr ∧
    owing.phase ≠ .dck := by decide

/-- The six ranges of the index, with a header for a delete and for an upload. -/
theorem witness_HeaderEmitStep :
    (scheduled heading).phase = .hdr ∧ heading.outReady = true ∧ (scheduled heading).schedule = .block :: [] ∧
    ([0, 1, 2, 13, 14, 15].all fun i => ({ heading with idx := i } : State).inRange) = true ∧
    ([0, 1, 2, 13, 14, 15].all fun i => ({ heading with idx := i, len := 1 } : State).inRange) = true :=
  ⟨rfl, rfl, rfl, rfl, rfl⟩

theorem witness_TrailerEmitStep :
    (taking (inPhase .dck)).phase = .dck ∧ (taking (inPhase .dck)).outReady = true ∧
    ([0, 1].all fun i => ({ taking (inPhase .dck) with idx := i } : State).inRange) = true := ⟨rfl, rfl, rfl⟩

/-- For a delete and for the longest upload. -/
theorem witness_StartSendsExactlyTheHeader :
    let s : State := { given (taking (inPhase .idle)) [0x06000000] with schedule := List.replicate 17 .block ++ [] }
    s.phase = .idle ∧ s.enc = false ∧ s.idx = 0 ∧ s.outReady = true ∧ s.schedule = List.replicate 17 .block ++ [] ∧ s.cmd = 0x06000000 :: [] ∧
    ([0, 0x00FFFF].all fun n => ({ s with len := n } : State).inRange && decide (n.toNat ≤ 65535)) = true :=
  ⟨rfl, rfl, rfl, rfl, rfl, rfl, rfl⟩

/-- One step along each edge of the graph of R120; the edge to ERR from IDLE, DATA and DONE, by a malformed word, by
a word out of its phase, and by START with `ENC` and with `BIG`; the edge to IDLE from DATA, DONE and ERR. -/
theorem witness_PhaseChangesOnlyAlongTheGraph :
    view (·.phase) (step (given (inPhase .idle) [0x06000000])) = some .hdr ∧
    view (·.phase) (step { heading with idx := 15, len := 1 }) = some .data ∧
    view (·.phase) (step (given (taking owing) [0x07000000])) = some .dck ∧
    view (·.phase) (step { heading with idx := 15 }) = some .done ∧
    view (·.phase) (step { taking (inPhase .dck) with idx := 1 }) = some .done ∧
    (∀ s ∈ [inPhase .idle, owing, inPhase .done],
      view (fun t => (t.phase, t.ill)) (step (given s [0x08000007])) = some (.err, true)) ∧
    view (fun t => (t.phase, t.seq)) (step (given (inPhase .idle) [0x07000000])) = some (.err, true) ∧
    view (fun t => (t.phase, t.seq)) (step (given owing [0x06000000])) = some (.err, true) ∧
    view (fun t => (t.phase, t.seq)) (step (given (inPhase .done) [0x07000000])) = some (.err, true) ∧
    view (·.phase) (step { given (inPhase .idle) [0x06000000] with enc := true }) = some .err ∧
    view (·.phase) (step { given (inPhase .idle) [0x06000000] with len := 65536 }) = some .err ∧
    (∀ s ∈ [owing, inPhase .done, inPhase .err], view (·.phase) (step (given s [0x01000000])) = some .idle) ∧
    view (·.phase) (step { inPhase .dck with schedule := [.hardReset] }) = some .idle := by decide

/-- A byte of a header, of a payload and of a trailer, and a trace that a reset empties. -/
theorem witness_OnlyPresentedBytesAreEmitted :
    view (·.trace.length) (step heading) = some 1 ∧
    view (·.trace.length) (step (given (taking owing) [0x07000000])) = some 1 ∧
    view (·.trace.length) (step (taking (inPhase .dck))) = some 1 ∧
    view (·.trace.length) (step { inPhase .done with trace := [⟨0, true⟩], schedule := [.hardReset] }) =
      some 0 := by decide

theorem witness_EmittedByteAdvancesTheOffset :
    heading.Inv ∧ heading.ofs = some 0 ∧
      ∃ t, step heading = .next t ∧ t.trace.length = heading.trace.length + 1 :=
  ⟨heading_inv, rfl, _, rfl, rfl⟩

/-- Entry to ERR with SEQ, with ILL, and from START with `ENC` and with `BIG`. -/
theorem witness_FaultEntryChangesNothingElse :
    view (fun t => (t.phase, t.seq, t.ill)) (step (given (inPhase .idle) [0x07000000])) = some (.err, true, false) ∧
    view (fun t => (t.phase, t.seq, t.ill)) (step (given owing [0x09000000])) = some (.err, false, true) ∧
    view (fun t => (t.phase, t.seq, t.ill)) (step { given (inPhase .idle) [0x06000000] with enc := true }) =
      some (.err, false, false) ∧
    view (fun t => (t.phase, t.seq, t.ill)) (step { given (inPhase .idle) [0x06000000] with len := 65536 }) =
      some (.err, false, false) := by decide

theorem witness_EncSetByNamechClearedByClr :
    view (·.enc) (step (given (inPhase .idle) [0x04000080])) = some true ∧
    view (·.enc) (step { given (inPhase .err) [0x01000000] with enc := true }) = some false ∧
    view (·.enc) (step { inPhase .err with enc := true, schedule := [.hardReset] }) = some false := by decide

theorem witness_SeqAndIllStayUntilClr :
    view (·.seq) (step (given (inPhase .done) [0x06000000])) = some true ∧
    view (·.ill) (step (given (inPhase .done) [0xFFFFFFFF])) = some true ∧
    view (·.seq) (step { given (inPhase .err) [0x01000000] with seq := true }) = some false ∧
    view (·.ill) (step { inPhase .err with ill := true, schedule := [.hardReset] }) = some false := by decide

/-- A command that writes each item of R38's command rows. -/
theorem witness_CommandsWriteOnlyTheirItems :
    view (·.acc) (exec (.ckadd 1) (inPhase .idle)) = some 1 ∧
    view (·.len) (exec (.setlen 1) (inPhase .idle)) = some 1 ∧
    view (·.nameByte 0) (exec (.namech 1) (inPhase .idle)) = some 1 ∧
    view (·.rem) (exec (.data 0) (taking owing)) = some 0 ∧
    view (·.idx) (exec .clr { inPhase .idle with idx := 1 }) = some 0 ∧
    view (·.enc) (exec (.namech 0x80) (inPhase .idle)) = some true ∧
    view (·.responses) (exec (.read 1) (inPhase .idle)) = some [0] := by decide

theorem witness_StatusFields :
    afterP1.ncnt = 10 ∧ afterP1.phase = .done ∧ afterP1.enc = false ∧ afterP1.len.toNat ≤ 65535 ∧
    afterP1.seq = false ∧ afterP1.ill = false := by decide

theorem witness_ChecksumLaws : [(0x61 : Byte), 0x62, 0x63].Perm [0x63, 0x62, 0x61] := by decide

theorem witness_HeaderChecksumNeverWraps :
    myfile.toList.length = 12 ∧ (∀ b ∈ myfile.toList, b.toNat ≤ 0x7F) ∧
    65536 ≤ byteSum (List.replicate 258 0xFF) := by
  refine ⟨rfl, by decide, ?_⟩
  rw [byteSum_replicate]
  decide

/-- FrameLength, FrameFieldsAtTheirOffsets, ParseInvertsFrame: no payload, and the longest one. -/
theorem witness_frame_statements :
    myfile.toList.length = 12 ∧ ([] : List Byte).length ≤ 65535 ∧
    (List.replicate 65535 (0xFF : Byte)).length ≤ 65535 ∧ 0 < (List.replicate 65535 (0xFF : Byte)).length := by
  refine ⟨rfl, by decide, ?_, ?_⟩ <;> rw [List.length_replicate]
  decide

/-- EveryStepKeepsTheInvariant and InvariantStatesGoOn. -/
theorem witness_EveryStepKeepsTheInvariant : heading.Inv ∧ ∃ t, step heading = .next t :=
  ⟨heading_inv, _, rfl⟩

/-- A bare START from reset: twenty steps, four of them the sink's, to DONE. -/
theorem witness_DoneMeansOneWholeFrameWasSent : ∃ t, Reachable t ∧ t.phase = .done :=
  ⟨_, reachable_runs (k := 20) (.start (given State.reset [0x06000000]) rfl rfl rfl) rfl, rfl⟩

theorem witness_SinkResourceRuleKept : heading.sink.Inv ∧ ∃ t, step heading = .next t := by
  refine ⟨?_, _, rfl⟩
  constructor
  case discipline =>
    intro b hb
    cases hb
    exact ⟨rfl, rfl, rfl, rfl, rfl⟩
  all_goals decide

theorem witness_StandAloneChecksum :
    let s := given (inPhase .idle) ((pseudoChecksum [0x61, 0x62, 0x63]).map encode)
    s.phase = .idle ∧ s.inRange = true ∧ s.schedule = [] ∧
    s.cmd = (pseudoChecksum [0x61, 0x62, 0x63]).map encode := by decide

/-- A name that `encname` takes, and one that it does not. -/
theorem witness_NameLoadsAsEncname :
    let s := given (inPhase .idle) ((pseudoName [0x61]).map encode)
    s.phase = .idle ∧ s.inRange = true ∧ s.schedule = [] ∧ s.ncnt = 0 ∧ s.name = Vector.replicate 12 0 ∧
    s.enc = false ∧ s.cmd = (pseudoName [0x61]).map encode ∧ (encname [0x61]).isSome = true ∧
    encname [0xE9] = none := by decide

/-- The three ends of an upload: a frame (without and with a payload), ENC, and BIG at 65536 bytes. -/
theorem witness_UploadRefinesBuildUpload :
    (∀ codes bytes, (bytes : List Byte).length ≤ 16777215 →
      let s := given State.reset (uploadWords codes bytes)
      (∃ cmds, pseudoUpload codes bytes = some cmds ∧ s.cmd = cmds.map encode) ∧ s.phase ≠ .hdr ∧
      s.phase ≠ .dck ∧ s.inRange = true ∧ s.schedule = [] ∧ s.sinkFair = true ∧ s.sink.state ≠ .closed) ∧
    (∃ f, buildUpload [0x61] [] = .ok f) ∧ (∃ f, buildUpload [0x61] [1] = .ok f) ∧
    buildUpload [0xE9] [1] = .error .encodingError ∧
    buildUpload [0x61] (List.replicate 65536 1) = .error .fileTooLargeError := by
  refine ⟨fun codes bytes h => ⟨pseudoUpload_some h, (fun e => nomatch e), (fun e => nomatch e), rfl, rfl, rfl, (fun e => nomatch e)⟩,
    ⟨_, rfl⟩, ⟨_, rfl⟩, rfl, ?_⟩
  have h : Config.maxData < (List.replicate 65536 (1 : Byte)).length := by
    rw [List.length_replicate]
    decide
  have big : ∀ bs : List Byte, Config.maxData < bs.length → buildUpload [0x61] bs = .error .fileTooLargeError :=
    fun bs h => if_pos h
  exact big _ h

theorem witness_UploadReachesTheLine :
    let s := given State.reset (uploadWords [0x61] [1])
    (∃ cmds, pseudoUpload [0x61] [1] = some cmds ∧ s.cmd = cmds.map encode) ∧
    (∃ f, buildUpload [0x61] [1] = .ok f) ∧ s.phase = .idle ∧ s.inRange = true ∧ s.schedule = [] ∧
    s.sinkFair = true ∧ s.sink = Sink.fresh :=
  ⟨pseudoUpload_some (by decide), ⟨_, rfl⟩, rfl, by rfl, rfl, rfl, rfl⟩

/-- The three waits, with a sink that is not fair and never ready. -/
theorem witness_WaitsChangeNothing :
    ∀ s ∈ [{ inPhase .hdr with sinkFair := false }, { inPhase .dck with sinkFair := false },
        { given owing [0x07000000] with sinkFair := false }, { owing with sinkFair := false }],
      s.schedule = [] ∧ s.sinkFair = false ∧ s.outReady = false := by decide

/-- A move of the host and a move of the sink. -/
theorem witness_OutsideMovesLeaveTheBlock :
    (∃ t, step { State.reset with schedule := [.host (.issue 0)] } = .next t) ∧
    (∃ t, step { State.reset with schedule := [.sink (.openSink ⟨7⟩ true)] } = .next t) := ⟨⟨_, rfl⟩, _, rfl⟩

/-- Two states with the same block and word and with different pasts and sinks. -/
theorem witness_SinkAndPastDoNotSteerTheBlock :
    let s₁ := given (taking owing) [0x07000061]
    let s₂ : State := { s₁ with trace := [⟨1, true⟩], sink := { readySink with count := 5 } }
    s₁ ≠ s₂ ∧ s₁.toBlock = s₂.toBlock ∧ s₁.cmd = s₂.cmd ∧ s₁.schedule = [] ∧ s₂.schedule = [] ∧
    s₁.blockEnabled = true ∧ s₂.blockEnabled = true ∧ (after (step s₁)).isSome = true ∧
    (after (step s₂)).isSome = true := by decide

/-- A frame of two bytes; what the line has carried when the open fails, when the write fails after one byte of
which it has left, when the flush fails with nothing delivered, and after a success. -/
theorem witness_SendAlwaysEndsClosed :
    [(1 : Byte), 2] ≠ [] ∧
    (Sink.fresh.send ⟨7⟩ (markLast [1, 2]) false true true 2 2).line = [] ∧
    (Sink.fresh.send ⟨7⟩ (markLast [1, 2]) true false true 1 2).line = [1] ∧
    (Sink.fresh.send ⟨7⟩ (markLast [1, 2]) true true false 2 0).line = [] ∧
    (Sink.fresh.send ⟨7⟩ (markLast [1, 2]) true true true 2 0).line = [1, 2] := by decide

theorem witness_OpenAcquiresTheFixedLineDiscipline :
    Sink.fresh.state = .idle ∧ ((Sink.fresh.openSink ⟨7⟩ true).acquired.map (·.args.port)) = some 7 := by decide

/-- SettleDelay: a settling sink, and the move that ends it. -/
theorem witness_SettleDelay :
    let k : Sink := { readySink with state := .settling, ready := false, ended := true }
    k.state = .settling ∧ (k.move .settleDone).state ≠ .settling ∧ (k.move .restart).state ≠ .settling := by decide

theorem witness_ReadyOnlyWhileWriting : heading.outReady = true := by decide

/-- A sink that has taken a whole frame, with two bytes still inside the UART. -/
def loadedSink : Sink := { readySink with uart := [1, 2], line := [0], ended := true }

/-- The reset state with this sink and one move of it scheduled. -/
def sinkMoves (k : Sink) (m : SinkMove) : State := { State.reset with sink := k, schedule := [.sink m] }

/-- What is inside the UART, what has left on the line, and whether `send` has a result. -/
def carried (t : State) : List Byte × List Byte × Bool := (t.sink.uart, t.sink.line, t.sink.result.isSome)

/-- Every clause: a step that moves no byte; a byte taken; the oldest of two leaves; the settle delay lets both
leave; a write and a flush that fail lose both; a restart, scheduled before the delay has run and of a fair sink
after a success. -/
theorem witness_LineCarriesTakenBytesInOrder :
    view carried (step (given State.reset [0x04000061])) = some ([], [], false) ∧
    view carried (step (given (taking owing) [0x07000061])) = some ([0x61], [], false) ∧
    view carried (step (sinkMoves loadedSink .drain)) = some ([2], [0, 1], false) ∧
    view carried (step (sinkMoves { loadedSink with state := .settling } .settleDone)) = some ([], [0, 1, 2], true) ∧
    view carried (step (sinkMoves loadedSink .writeFails)) = some ([], [0], true) ∧
    view carried (step (sinkMoves loadedSink (.flush false))) = some ([], [0], true) ∧
    view carried (step (sinkMoves { loadedSink with state := .settling } .restart)) = some ([], [0], false) ∧
    view carried (step { inPhase .hdr with
      sink := { Sink.fresh with state := .closed, line := [0], result := some .ok } }) =
      some ([], [0], false) := ⟨rfl, rfl, rfl, rfl, rfl, rfl, rfl, rfl⟩

end Sys2Proof.Tests
end

section
/-! PROOFS. The invariant of R33 (a) to (k), with the frame on the wire, is kept by every step; and no state of it
stops. Each transition of the block has one lemma; a step is one of them. -/

namespace Sys2Proof.Machine

/-! ### What the invariant speaks of -/

/-- The invariant reads the ten items and the trace, and nothing of the environment. -/
theorem State.Inv.congr {s t : State} (h : s.Inv) (hb : t.toBlock = s.toBlock) (ht : t.trace = s.trace) : t.Inv := by
  obtain ⟨b, cmd, rsp, tr, k, f, sch⟩ := t
  simp only at hb ht
  subst hb ht
  exact h

/-- In IDLE and ERR no frame is on its way: the clauses about the items are all there is. -/
theorem State.Inv.of_no_frame {s : State} (h : s.toBlock.Inv) (hp : s.phase = .idle ∨ s.phase = .err) : s.Inv := by
  refine ⟨h, ?_⟩
  unfold State.FrameInv
  rcases hp with hp | hp <;> rw [hp] <;> trivial

theorem State.frameInv_hdr {s : State} (hp : s.phase = .hdr) :
    s.FrameInv ↔ ∃ before sent : _, s.trace = before ++ markNone sent ∧
      sent = s.frameHeader.take s.idx.toNat ∧ s.acc = checksum (sent.take 14) := by
  unfold State.FrameInv
  rw [hp]

theorem State.frameInv_data {s : State} (hp : s.phase = .data) :
    s.FrameInv ↔ ∃ before d, s.trace = before ++ markNone (s.frameHeader ++ d) ∧
      d.length + s.rem.toNat = s.len.toNat ∧ s.acc = checksum d := by
  unfold State.FrameInv
  rw [hp]

theorem State.frameInv_dck {s : State} (hp : s.phase = .dck) :
    s.FrameInv ↔ ∃ before d, s.trace = before ++
        markNone (s.frameHeader ++ d ++ (le16 (checksum d)).take s.idx.toNat) ∧
      d.length = s.len.toNat ∧ 0 < d.length ∧ s.acc = checksum d := by
  unfold State.FrameInv
  rw [hp]

theorem State.frameInv_done {s : State} (hp : s.phase = .done) :
    s.FrameInv ↔ ∃ before d, s.trace = before ++ markLast (frame s.nameBytes d) ∧ d.length = s.len.toNat ∧
      (s.len = 0 → s.acc = checksum (s.frameHeader.take 14)) ∧ (s.len ≠ 0 → s.acc = checksum d) := by
  unfold State.FrameInv
  rw [hp]

/-! ### The two counters -/

/-- `NCNT` and `IDX` count up by one below their last value. -/
theorem count_succ_toNat {x : BitVec 4} (h : x.toNat < 15) : (x + 1).toNat = x.toNat + 1 :=
  BitVec.toNat_add_of_lt (by simp; omega)

/-- `REM` counts down by one. -/
theorem rem_pred_toNat {r : Half} (h : 1 ≤ r.toNat) : (r - 1).toNat = r.toNat - 1 :=
  BitVec.toNat_sub_of_le h

/-! ### The ten items: reset, fault entry, loading -/

theorem Phase.code_listed (p : Phase) : p.code.toNat ∈ [0, 1, 2, 3, 4, 7] := by
  cases p <;> decide

theorem Block.reset_inv : Block.reset.Inv := by
  constructor <;> simp [Phase.code]

/-- Fault entry from a phase other than HDR and DCK, with a cause that shows and not both stored faults (R176). -/
theorem Block.Inv.enterErr {b : Block} (h : b.Inv) (hp : b.phase ∉ [Phase.hdr, .dck]) {q l : Bool}
    (one : ¬(q = true ∧ l = true)) (cause : b.enc = true ∨ b.big = true ∨ q = true ∨ l = true) :
    ({ b with phase := .err, seq := q, ill := l } : Block).Inv :=
  { h with
    phase_code := Phase.code_listed _
    sending_clean := by simp
    idx_hdr := nofun
    idx_dck := nofun
    idx_zero := fun _ => h.idx_zero hp
    rem_data := nofun
    rem_zero := by simp
    err_cause := fun _ => cause
    stored_fault := fun _ => rfl
    one_fault := one }

theorem Block.Inv.setAcc {b : Block} (h : b.Inv) (a : Half) : ({ b with acc := a } : Block).Inv := { h with }

theorem Block.Inv.setEnc {b : Block} (h : b.Inv) (hp : b.phase = .idle) : ({ b with enc := true } : Block).Inv :=
  { h with
    sending_clean := by simp [hp]
    err_cause := fun _ => .inl rfl }

theorem Block.Inv.setLen {b : Block} (h : b.Inv) (hp : b.phase = .idle) (n : Imm) :
    ({ b with len := n } : Block).Inv :=
  { h with
    sending_clean := by simp [hp]
    rem_data := by simp [hp]
    err_cause := by simp [hp]
    rem_le := by simp [h.rem_zero (by simp [hp])] }

/-- An ASCII character stored where there is room keeps R33 (a). -/
theorem Block.Inv.storeName {b : Block} (h : b.Inv) {c : Byte} (hc : c.toNat ≤ 0x7F) (hn : b.ncnt.toNat < 12) :
    (b.storeName c).Inv := by
  have hcnt := count_succ_toNat (x := b.ncnt) (by omega)
  refine { h with ncnt_le := ?_, name_padded := ?_, name_ascii := ?_ }
  · rw [Block.storeName_ncnt, hcnt]
    exact hn
  · intro i hi hle
    rw [Block.storeName_ncnt, hcnt] at hle
    rw [Block.storeName_nameByte b c i hi, if_neg (by omega)]
    exact h.name_padded i hi (by omega)
  · intro i hi
    rw [Block.storeName_nameByte b c i hi]
    split
    · exact hc
    · exact h.name_ascii i hi

/-! ### The ten items: sending a frame -/

/-- R33 (c), from the phase by name. -/
theorem Block.Inv.clean {b : Block} (h : b.Inv) {p : Phase} (hb : b.phase = p)
    (hp : p ∈ [Phase.hdr, .data, .dck, .done]) :
    b.enc = false ∧ b.len.toNat ≤ 65535 ∧ b.seq = false ∧ b.ill = false := h.sending_clean (hb ▸ hp)

/-- R33 (f): a stored fault is only found in ERR. -/
theorem Block.Inv.no_stored_fault {b : Block} (h : b.Inv) (hp : b.phase ≠ .err) : b.seq = false ∧ b.ill = false := by
  have hf := mt h.stored_fault hp
  simpa using hf

/-- A step of the sequencer, START included, writes `ACC`, `IDX`, `REM` and `PHASE`: what R33 asks of the new `IDX`
and `REM` in the new phase is all there is to show. -/
theorem Block.Inv.sendStep {b : Block} (h : b.Inv)
    (clean : b.enc = false ∧ b.len.toNat ≤ 65535 ∧ b.seq = false ∧ b.ill = false) {p : Phase}
    (hp : p ∈ [Phase.hdr, .data, .dck, .done]) (a : Half) {i : BitVec 4} {r : Half}
    (idx_dck : p = .dck → i.toNat ≤ 1) (idx_zero : p ∉ [Phase.hdr, .dck] → i = 0)
    (rem_data : p = .data → 1 ≤ r.toNat ∧ r.toNat ≤ b.len.toNat) (rem_zero : p ≠ .data → r = 0) :
    ({ b with acc := a, idx := i, rem := r, phase := p } : Block).Inv := by
  obtain ⟨henc, hlen, hseq, hill⟩ := clean
  exact { h with
    phase_code := Phase.code_listed _
    sending_clean := fun _ => ⟨henc, hlen, hseq, hill⟩
    idx_hdr := fun _ => Nat.le_of_lt_succ i.isLt
    idx_dck := idx_dck
    idx_zero := idx_zero
    rem_data := rem_data
    rem_zero := fun hm => rem_zero fun e => by simp [e] at hm
    err_cause := fun e => by simp [show p = .err from e] at hp
    stored_fault := fun hf => by simp [hseq, hill] at hf
    rem_le := by
      by_cases e : p = .data
      · exact (rem_data e).2
      · simp [rem_zero e] }

/-! ### The header's bytes -/

/-- The header is the fifteen bytes before its last, and its last, the high byte of its sum (R81). -/
theorem Block.frameHeader_snoc (b : Block) :
    b.frameHeader = b.frameHeader.take 15 ++ [highByte (checksum b.covered)] := by
  rw [Block.frameHeader_take_15, Block.frameHeader_eq]
  simp

/-- From index 14 on, `ACC` is the sum of the fourteen covered bytes (R33 (h), R81). -/
theorem State.acc_eq_checksum_covered {s : State}
    (hacc : s.acc = checksum ((s.frameHeader.take s.idx.toNat).take 14)) (hi : 14 ≤ s.idx.toNat) :
    s.acc = checksum s.covered := by
  rw [hacc, List.take_take, Nat.min_eq_left hi, Block.frameHeader_take_14]

/-! ### Each transition keeps the invariant -/

theorem State.Inv.raiseFault {s : State} (h : s.Inv) (hp : s.phase ∈ [Phase.idle, .data, .done]) {k : FaultKind}
    (cause : (k = .enc → s.enc = true) ∧ (k = .big → s.big = true)) : (s.raiseFault k).Inv := by
  have hout : s.phase ∉ [Phase.hdr, .dck] ∧ s.phase ≠ .err := by
    simp only [List.mem_cons, List.not_mem_nil, or_false] at hp
    rcases hp with hp | hp | hp <;> simp [hp]
  obtain ⟨hseq, hill⟩ := h.1.no_stored_fault hout.2
  refine .of_no_frame ?_ (.inr (by cases k <;> rfl))
  cases k with
  | enc => exact h.1.enterErr hout.1 h.1.one_fault (.inl (cause.1 rfl))
  | big => exact h.1.enterErr hout.1 h.1.one_fault (.inr (.inl (cause.2 rfl)))
  | seq => exact h.1.enterErr hout.1 (by simp [hill]) (.inr (.inr (.inl rfl)))
  | ill => exact h.1.enterErr hout.1 (by simp [hseq]) (.inr (.inr (.inr rfl)))

theorem State.clear_inv (s : State) : s.clear.Inv := .of_no_frame Block.reset_inv (.inl rfl)

theorem hardReset_inv (s : State) : (hardReset s).Inv := .of_no_frame Block.reset_inv (.inl rfl)

theorem State.Inv.namechEffect {s : State} (h : s.Inv) (hp : s.phase = .idle) (c : Imm) : (namechEffect c s).Inv := by
  rcases namechEffect_cases c s with ⟨-, e⟩ | ⟨hc, hn, e⟩ | ⟨-, -, e⟩ <;> rw [e]
  · exact .of_no_frame (h.1.setEnc hp) (.inl hp)
  · refine .of_no_frame (h.1.storeName ?_ hn) (.inl hp)
    rw [immByte_toNat]
    omega
  · exact h

theorem State.Inv.startEffect {s : State} (h : s.Inv) (hp : s.phase = .idle) : (startEffect s).Inv := by
  rcases startEffect_cases s with ⟨he, e⟩ | ⟨-, hb, e⟩ | ⟨he, hl, e⟩ <;> rw [e]
  · exact h.raiseFault (by simp [hp]) ⟨fun _ => he, nofun⟩
  · exact h.raiseFault (by simp [hp]) ⟨nofun, fun _ => (Block.big_iff _).2 hb⟩
  · have hidx : s.idx = 0 := h.1.idx_zero (by simp [hp])
    have hrem : s.rem = 0 := h.1.rem_zero (by simp [hp])
    refine ⟨h.1.sendStep ⟨he, hl, h.1.no_stored_fault (by simp [hp])⟩ (by simp) 0 nofun (by simp) nofun (fun _ => hrem),
      (State.frameInv_hdr rfl).2 ⟨s.trace, [], by simp, ?_, rfl⟩⟩
    simp [hidx]

/-- R122: the header bytes sent so far, and their sum, grow by the byte that is sent. -/
theorem State.Inv.headerEmit {s : State} (h : s.Inv) (hp : s.phase = .hdr) : (headerEmit s).Inv := by
  have clean := h.1.clean hp (by simp)
  have hrem : s.rem = 0 := h.1.rem_zero (by simp [hp])
  obtain ⟨before, sent, htrace, rfl, hacc⟩ := (State.frameInv_hdr hp).1 h.2
  rcases headerEmit_cases s with ⟨hi, e⟩ | ⟨hi, e⟩ | ⟨hi, hl, e⟩ | ⟨hi, hl, e⟩ <;> rw [e]
  · have hidx := count_succ_toNat (x := s.idx) (by omega)
    have hnext : s.frameHeader.take (s.idx.toNat + 1) =
        s.frameHeader.take s.idx.toNat ++ [s.headerByte s.idx.toNat] := by
      rw [Block.frameHeader_take _ _ (by omega), Block.frameHeader_take _ _ (by omega),
        Block.covered_take_succ _ _ (by omega)]
    refine ⟨h.1.sendStep clean (by simp [hp]) _ (by simp [hp]) (by simp [hp]) (by simp [hp]) (fun _ => hrem),
      (State.frameInv_hdr ?_).2 ⟨before, _, ?_, rfl, ?_⟩⟩
    · exact hp
    · change s.trace ++ _ = before ++ markNone (s.frameHeader.take (s.idx + 1).toNat)
      rw [hidx, hnext, htrace]
      simp [markNone_singleton]
    · change add8 s.acc _ = checksum ((s.frameHeader.take (s.idx + 1).toNat).take 14)
      rw [List.take_take, Nat.min_eq_right (by omega)] at hacc ⊢
      rw [hidx, hnext, checksum_snoc, hacc]
  · have hsum := State.acc_eq_checksum_covered hacc (by simp [hi])
    have hsent : s.frameHeader.take s.idx.toNat = s.covered := by simp [hi]
    refine ⟨h.1.sendStep clean (by simp [hp]) _ (by simp [hp]) (by simp [hp]) (by simp [hp]) (fun _ => hrem),
      (State.frameInv_hdr ?_).2 ⟨before, s.frameHeader.take 15, ?_, rfl, ?_⟩⟩
    · exact hp
    · rw [hsent] at htrace
      rw [Block.frameHeader_take_15, ← hsum]
      simp [htrace, markNone_singleton]
    · rw [List.take_take]
      exact hsum.trans (congrArg checksum s.frameHeader_take_14.symm)
  · have hsum := State.acc_eq_checksum_covered hacc (by simp [hi])
    have hframe : frame s.nameBytes [] = s.frameHeader.take 15 ++ [highByte s.acc] := by
      rw [hsum, ← Block.frameHeader_snoc, s.toBlock.frame_eq [] (by simp [hl]), if_pos rfl]
    refine ⟨h.1.sendStep clean (by simp) _ (by simp) (by simp) (by simp) (fun _ => hrem),
      (State.frameInv_done rfl).2 ⟨before, [], ?_, by simp [hl], ?_, fun hn => absurd hl hn⟩⟩
    · change s.trace ++ _ = before ++ markLast (frame s.nameBytes [])
      rw [hframe, markLast_snoc, htrace, hi]
      simp
    · intro _
      exact hsum.trans (congrArg checksum s.frameHeader_take_14.symm)
  · have hsum := State.acc_eq_checksum_covered hacc (by simp [hi])
    have hpos : s.len.toNat ≠ 0 := fun e0 => hl (BitVec.eq_of_toNat_eq e0)
    have hsize : s.size.toNat = s.len.toNat := by
      rw [Block.size_toNat]
      omega
    refine ⟨h.1.sendStep clean (by simp) _ (by simp) (by simp) (fun _ => by omega) (by simp),
      (State.frameInv_data rfl).2 ⟨before, [], ?_, ?_, rfl⟩⟩
    · change s.trace ++ _ = before ++ markNone (s.frameHeader ++ [])
      rw [List.append_nil, Block.frameHeader_snoc, ← hsum, htrace, hi]
      simp [markNone_singleton]
    · simpa using hsize

/-- A frame in DCK has a payload, so that in DONE its length counts (R28, R33 (j)). -/
theorem State.Inv.len_ne_zero_of_dck {s : State} (h : s.Inv) (hp : s.phase = .dck) : s.len ≠ 0 := by
  obtain ⟨-, d, -, hlen, hd, -⟩ := (State.frameInv_dck hp).1 h.2
  intro e
  rw [e] at hlen
  exact hd.ne' hlen

/-- R124: the two bytes of the payload's sum follow it, and the second ends the frame. -/
theorem State.Inv.trailerEmit {s : State} (h : s.Inv) (hp : s.phase = .dck) : (trailerEmit s).Inv := by
  have clean := h.1.clean hp (by simp)
  have hrem : s.rem = 0 := h.1.rem_zero (by simp [hp])
  obtain ⟨before, d, htrace, hlen, hd, hacc⟩ := (State.frameInv_dck hp).1 h.2
  by_cases hi : s.idx = 0
  · rw [trailerEmit_low hi]
    refine ⟨h.1.sendStep clean (by simp [hp]) _ (by simp) (by simp [hp]) (by simp [hp]) (fun _ => hrem),
      (State.frameInv_dck ?_).2 ⟨before, d, ?_, hlen, hd, hacc⟩⟩
    · exact hp
    · change s.trace ++ _ = before ++ markNone (s.frameHeader ++ d ++ (le16 (checksum d)).take 1)
      simp [htrace, hi, hacc, le16, markNone_singleton]
  · have hi1 := idx_eq_1 hi (h.1.idx_dck hp)
    have hne : d ≠ [] := List.ne_nil_of_length_pos hd
    have hframe : frame s.nameBytes d = (s.frameHeader ++ d ++ [lowByte s.acc]) ++ [highByte s.acc] := by
      rw [s.toBlock.frame_eq d hlen, if_neg hne, ← hacc]
      simp [le16]
    rw [trailerEmit_high hi]
    refine ⟨h.1.sendStep clean (by simp) _ (by simp) (by simp) (by simp) (fun _ => hrem),
      (State.frameInv_done rfl).2 ⟨before, d, ?_, hlen, fun hl => absurd hl (h.len_ne_zero_of_dck hp), fun _ => hacc⟩⟩
    change s.trace ++ _ = before ++ markLast (frame s.nameBytes d)
    rw [hframe, markLast_snoc, htrace, hi1, ← hacc]
    simp [le16]

/-- R123: the payload accepted so far, and its sum, grow by the byte that is passed through. -/
theorem State.Inv.dataEffect {s : State} (h : s.Inv) (hp : s.phase = .data) (b : Byte) : (dataEffect b s).Inv := by
  have clean := h.1.clean hp (by simp)
  have hidx : s.idx = 0 := h.1.idx_zero (by simp [hp])
  obtain ⟨hrem, hle⟩ := h.1.rem_data hp
  obtain ⟨before, d, htrace, hlen, hacc⟩ := (State.frameInv_data hp).1 h.2
  have htrace' : s.trace ++ [⟨b, false⟩] = before ++ markNone (s.frameHeader ++ (d ++ [b])) := by
    simp [htrace, markNone_singleton]
  have hacc' : add8 s.acc b = checksum (d ++ [b]) := by rw [checksum_snoc, hacc]
  have hcount := rem_pred_toNat hrem
  by_cases hr : s.rem = 1
  · rw [dataEffect_last b hr]
    refine ⟨h.1.sendStep clean (by simp) _ (by simp [hidx]) (by simp) (by simp) (by simp [hr]),
      (State.frameInv_dck rfl).2 ⟨before, d ++ [b], ?_, ?_, by simp, hacc'⟩⟩
    · change s.trace ++ _ = before ++ markNone (s.frameHeader ++ (d ++ [b]) ++ (le16 _).take s.idx.toNat)
      rw [htrace', hidx]
      simp
    · change (d ++ [b]).length = s.len.toNat
      rw [← hlen, hr]
      simp
  · have hr1 : s.rem.toNat ≠ 1 := fun e => hr (BitVec.eq_of_toNat_eq e)
    rw [dataEffect_more b hr]
    refine ⟨h.1.sendStep clean (by simp [hp]) _ (by simp [hp]) (by simp [hidx]) (fun _ => by omega) (by simp [hp]),
      (State.frameInv_data ?_).2 ⟨before, d ++ [b], htrace', ?_, hacc'⟩⟩
    · exact hp
    · change (d ++ [b]).length + (s.rem - 1).toNat = s.len.toNat
      rw [hcount, List.length_append, List.length_singleton]
      omega

theorem State.Inv.exec {s t : State} {i : Instr} (h : s.Inv) (he : exec i s = .next t) : t.Inv := by
  rcases exec_cases he with rfl | ⟨-, -, -, rfl⟩ | ⟨-, -, r, -, -, rfl⟩ | ⟨hp, -, rfl⟩ | ⟨hp, b, -, rfl⟩ |
    ⟨hp, c, -, rfl⟩ | ⟨hp, n, -, rfl⟩ | ⟨hp, -, rfl⟩ | ⟨hp, -, b, -, rfl⟩ | ⟨hp, rfl | rfl⟩
  · exact h
  · exact s.clear_inv
  · exact h.congr rfl rfl
  · exact .of_no_frame (h.1.setAcc _) (.inl hp)
  · exact .of_no_frame (h.1.setAcc _) (.inl hp)
  · exact h.namechEffect hp c
  · exact .of_no_frame (h.1.setLen hp n) (.inl hp)
  · exact h.startEffect hp
  · exact h.dataEffect hp b
  · exact h.raiseFault hp ⟨nofun, nofun⟩
  · exact h.raiseFault hp ⟨nofun, nofun⟩

theorem State.Inv.scheduled {s : State} (h : s.Inv) : s.scheduled.Inv := h.congr rfl rfl

theorem State.Inv.accepting {s : State} (h : s.Inv) (ws : List Word) : (s.accepting ws).Inv := h.congr rfl rfl

/-- The invariant is kept by one step of any agent. -/
theorem State.Inv.step {s t : State} (h : s.Inv) (hs : step s = .next t) : t.Inv := by
  rcases step_inv hs with rfl | ⟨-, rfl⟩ | ⟨m, rfl⟩ | ⟨k, -, rfl⟩ | ⟨-, hp, -, rfl⟩ | ⟨-, hp, -, rfl⟩ |
    ⟨-, w, ws, -, -, -, -, ⟨i, -, he⟩ | rfl | ⟨-, hp, rfl⟩⟩
  · exact h.scheduled
  · exact hardReset_inv _
  · exact h.scheduled.congr (hostMove_toBlock m _) (hostMove_trace m _)
  · exact h.congr rfl rfl
  · exact h.scheduled.headerEmit hp
  · exact h.scheduled.trailerEmit hp
  · exact State.Inv.exec (h.accepting ws) he
  · exact h.accepting ws
  · exact (h.accepting ws).raiseFault hp ⟨nofun, nofun⟩

/-- Settles O41: a step is one of the transitions above, and each keeps the invariant. -/
theorem everyStepKeepsTheInvariant : Obligations.EveryStepKeepsTheInvariant :=
  fun _ _ h hs => h.step hs

/-! ### No state of the invariant stops, and reset is one of them -/

/-- The block's move is the only one that can be refused, and not from a state in range. -/
theorem step_total {s : State} (hr : s.inRange = true) : ∃ t, step s = .next t := by
  cases hs : s.schedule with
  | nil =>
    by_cases he : s.blockEnabled = true
    · rw [step_default_block hs he]
      exact blockMove_total hr
    · simp only [step, hs, defaultMove, if_neg he]
      split
      · split <;> exact ⟨_, rfl⟩
      · exact ⟨_, rfl⟩
  | cons m ms =>
    cases m with
    | block =>
      rw [step_scheduled_block hs]
      exact blockMove_total (s := { s with schedule := ms }) hr
    | hardReset => exact ⟨_, by rw [step, hs]; rfl⟩
    | host m => exact ⟨_, by rw [step, hs]; rfl⟩
    | sink k => exact ⟨_, by rw [step, hs]; rfl⟩

theorem Block.Inv.inRange {b : Block} (h : b.Inv) : b.inRange = true :=
  b.inRange_iff.2 ⟨h.ncnt_le, h.idx_dck, h.rem_le, fun hp => (h.rem_data hp).1⟩

/-- Settles O42: a state of R33 is none of those that W6 and W7 refuse. -/
theorem invariantStatesGoOn : Obligations.InvariantStatesGoOn := fun _ h => step_total h.1.inRange

/-- Settles O40: the reset state is one of R33, and no frame is on its way. -/
theorem invariantAtReset : Obligations.InvariantAtReset := .of_no_frame Block.reset_inv (.inl rfl)

end Sys2Proof.Machine
end

section
/-! PROOFS. What a command may write, item by item (R38), and what sets and clears the stored flags (R29, R31,
R32). -/

namespace Sys2Proof.Machine

/-! ### The table of writes (R38) -/

/-- The items a command writes: the row of R38 for each command, and for a command that is out of place the fault.
NAMECH leaves `ENC` or sets it (R29). -/
theorem exec_writes {i : Instr} {s t : State} (h : exec i s = .next t) :
    t = s ∨
    (i = .clr ∧ s.phase ≠ .hdr ∧ s.phase ≠ .dck ∧ t = s.clear) ∨
    (∃ r, i = .read r ∧ r.toNat ≤ 6 ∧ t = readEffect r s) ∨
    ((i = .ckclr ∨ ∃ b, i = .ckadd b) ∧ ∃ a, t = { s with acc := a }) ∨
    (∃ c, i = .namech c ∧ s.phase = .idle ∧ ∃ name cnt e, t = { s with name := name, ncnt := cnt, enc := e } ∧
      (e = s.enc ∨ (0x7F < c.toNat ∧ e = true))) ∨
    (∃ n, i = .setlen n ∧ t = { s with len := n }) ∨
    (i = .start ∧ ∃ a p, t = { s with acc := a, phase := p }) ∨
    (∃ b, i = .data b ∧ s.phase = .data ∧ s.outReady = true ∧
      ∃ a r p tr k, t = { s with acc := a, rem := r, phase := p, trace := tr, sink := k }) ∨
    (s.phase ∈ [Phase.idle, .data, .done] ∧ (t = s.raiseFault .seq ∨ t = s.raiseFault .ill)) := by
  rcases exec_cases h with rfl | hclr | ⟨-, -, hread⟩ | ⟨-, hi, rfl⟩ | ⟨-, b, hi, rfl⟩ | ⟨hp, c, hi, rfl⟩ |
    ⟨-, n, hi, rfl⟩ | ⟨-, hi, rfl⟩ | ⟨hp, ho, b, hi, rfl⟩ | hfault
  · exact .inl rfl
  · obtain ⟨h₁, h₂, hi, e⟩ := hclr
    exact .inr (.inl ⟨hi, h₁, h₂, e⟩)
  · exact .inr (.inr (.inl hread))
  · exact .inr (.inr (.inr (.inl ⟨.inl hi, _, rfl⟩)))
  · exact .inr (.inr (.inr (.inl ⟨.inr ⟨b, hi⟩, _, rfl⟩)))
  · refine .inr (.inr (.inr (.inr (.inl ⟨c, hi, hp, ?_⟩))))
    rcases namechEffect_cases c s with ⟨hc, e⟩ | ⟨-, -, e⟩ | ⟨-, -, e⟩ <;> rw [e]
    · exact ⟨_, _, _, rfl, .inr ⟨hc, rfl⟩⟩
    · exact ⟨_, _, _, rfl, .inl rfl⟩
    · exact ⟨_, _, _, rfl, .inl rfl⟩
  · exact .inr (.inr (.inr (.inr (.inr (.inl ⟨n, hi, rfl⟩)))))
  · refine .inr (.inr (.inr (.inr (.inr (.inr (.inl ⟨hi, ?_⟩))))))
    rcases startEffect_cases s with ⟨-, e⟩ | ⟨-, -, e⟩ | ⟨-, -, e⟩ <;> rw [e] <;> exact ⟨_, _, rfl⟩
  · refine .inr (.inr (.inr (.inr (.inr (.inr (.inr (.inl ⟨b, hi, hp, ho, ?_⟩)))))))
    by_cases hr : s.rem = 1
    · rw [dataEffect_last b hr]; exact ⟨_, _, _, _, _, rfl⟩
    · rw [dataEffect_more b hr]; exact ⟨_, _, _, _, _, rfl⟩
  · exact .inr (.inr (.inr (.inr (.inr (.inr (.inr (.inr hfault)))))))

/-- Settles O32: the items of each command's row, read off one by one. -/
theorem commandsWriteOnlyTheirItems : Obligations.CommandsWriteOnlyTheirItems := by
  intro i s t h
  rcases exec_writes h with rfl | ⟨rfl, -, -, rfl⟩ | ⟨r, rfl, hr, rfl⟩ | ⟨rfl | ⟨b, rfl⟩, _, rfl⟩ |
    ⟨c, rfl, -, _, _, _, rfl, -⟩ | ⟨n, rfl, rfl⟩ | ⟨rfl, _, _, rfl⟩ |
    ⟨b, rfl, hp, ho, _, _, _, _, _, rfl⟩ | ⟨-, rfl | rfl⟩
  all_goals simp [readEffect, *]

/-- A command takes no word: the one it came from is already taken from the channel. -/
theorem exec_cmd {i : Instr} {s t : State} (h : exec i s = .next t) : t.cmd = s.cmd := by
  obtain ⟨-, -, -, -, -, -, -, -, -, hcmd, -, -⟩ := commandsWriteOnlyTheirItems i s t h
  exact hcmd

/-! ### The stored flags (R29, R31, R32) -/

/-- `ENC`, `SEQ` and `ILL` together. -/
def Block.flags (b : Block) : Bool × Bool × Bool := (b.enc, b.seq, b.ill)

theorem Block.flags_eq {b : Block} {e q l : Bool} : b.flags = (e, q, l) ↔ b.enc = e ∧ b.seq = q ∧ b.ill = l := by
  simp [Block.flags]

/-- Fault entry from IDLE, DATA or DONE, as far as the flags are concerned: `ENC` stays, `SEQ` and `ILL` are not
cleared. -/
def State.EntersErr (s t : State) : Prop :=
  s.phase ∈ [Phase.idle, .data, .done] ∧ t.phase = .err ∧ t.enc = s.enc ∧ (s.seq = true → t.seq = true) ∧
    (s.ill = true → t.ill = true)

theorem State.entersErr_raiseFault {s u : State} {k : FaultKind} (hp : s.phase ∈ [Phase.idle, .data, .done])
    (hu : u.toBlock = s.toBlock) : s.EntersErr (u.raiseFault k) := by
  unfold State.EntersErr
  rw [← hu]
  rw [← hu] at hp
  cases k <;> simp [hp]

/-- What a command can do to the three flags: nothing; clear them, which is CLR; set `ENC`, which is a NAMECH above
0x7F; or enter ERR. -/
theorem exec_flags {i : Instr} {s t : State} (h : exec i s = .next t) :
    t.flags = s.flags ∨
    (i = .clr ∧ s.phase ≠ .hdr ∧ s.phase ≠ .dck ∧ t.flags = (false, false, false)) ∨
    (s.phase = .idle ∧ (∃ c, i = .namech c ∧ 0x7F < c.toNat) ∧ t.flags = (true, s.seq, s.ill)) ∨
    s.EntersErr t := by
  rcases exec_writes h with rfl | ⟨hi, h₁, h₂, rfl⟩ | ⟨_, -, -, rfl⟩ | ⟨-, _, rfl⟩ |
    ⟨c, hi, hp, _, _, e, rfl, rfl | ⟨hc, rfl⟩⟩ | ⟨_, -, rfl⟩ | ⟨-, _, _, rfl⟩ |
    ⟨_, -, -, -, _, _, _, _, _, rfl⟩ | ⟨hp, rfl | rfl⟩
  · exact .inl rfl
  · exact .inr (.inl ⟨hi, h₁, h₂, rfl⟩)
  · exact .inl rfl
  · exact .inl rfl
  · exact .inl rfl
  · exact .inr (.inr (.inl ⟨hp, ⟨c, hi, hc⟩, rfl⟩))
  · exact .inl rfl
  · exact .inl rfl
  · exact .inl rfl
  · exact .inr (.inr (.inr (State.entersErr_raiseFault hp rfl)))
  · exact .inr (.inr (.inr (State.entersErr_raiseFault hp rfl)))

/-- What a step can do to the three flags. -/
theorem step_flags {s t : State} (h : step s = .next t) :
    t.flags = s.flags ∨
    (t.flags = (false, false, false) ∧
      (s.schedule.head? = some .hardReset ∨ (s.cmd = 0x01000000 :: t.cmd ∧ s.phase ≠ .hdr ∧ s.phase ≠ .dck))) ∨
    (t.flags = (true, s.seq, s.ill) ∧
      s.phase = .idle ∧ ∃ w c, s.cmd = w :: t.cmd ∧ decode w = .ok (.namech c) ∧ 0x7F < c.toNat) ∨
    s.EntersErr t := by
  rcases step_inv h with rfl | ⟨hs, rfl⟩ | ⟨m, rfl⟩ | ⟨k, -, rfl⟩ | ⟨-, -, -, rfl⟩ | ⟨-, -, -, rfl⟩ |
    ⟨-, w, ws, hc, -, -, -, ⟨i, hd, he⟩ | rfl | ⟨-, hp, rfl⟩⟩
  · exact .inl rfl
  · exact .inr (.inl ⟨rfl, .inl hs⟩)
  · exact .inl (congrArg Block.flags (hostMove_toBlock m _))
  · exact .inl rfl
  · rcases headerEmit_cases s.scheduled with ⟨-, e⟩ | ⟨-, e⟩ | ⟨-, -, e⟩ | ⟨-, -, e⟩ <;> rw [e] <;> exact .inl rfl
  · by_cases hi : s.scheduled.idx = 0
    · rw [trailerEmit_low hi]; exact .inl rfl
    · rw [trailerEmit_high hi]; exact .inl rfl
  · have hcmd : s.cmd = w :: t.cmd := by rw [exec_cmd he, hc]; rfl
    rcases exec_flags he with hf | ⟨rfl, h₁, h₂, hf⟩ | ⟨hp, ⟨c, rfl, hn⟩, hf⟩ | hf
    · exact .inl hf
    · exact .inr (.inl ⟨hf, .inr ⟨word_of_clr hd ▸ hcmd, h₁, h₂⟩⟩)
    · exact .inr (.inr (.inl ⟨hf, hp, w, c, hcmd, hd, hn⟩))
    · exact .inr (.inr (.inr hf))
  · exact .inl rfl
  · exact .inr (.inr (.inr (State.entersErr_raiseFault hp rfl)))

/-- Settles O30: of the ways the flags can change, only NAMECH sets `ENC`, and only hardware reset and CLR clear
it. -/
theorem encSetByNamechClearedByClr : Obligations.EncSetByNamechClearedByClr := by
  intro s t h
  rcases step_flags h with hf | ⟨hf, hcause⟩ | ⟨hf, hcause⟩ | ⟨-, -, henc, -, -⟩
  · obtain ⟨henc, -, -⟩ := Block.flags_eq.1 hf
    constructor <;> intro h₁ h₂ <;> simp_all
  · obtain ⟨henc, -, -⟩ := Block.flags_eq.1 hf
    exact ⟨fun _ hset => absurd (henc.symm.trans hset) nofun, fun _ _ => hcause⟩
  · obtain ⟨henc, -, -⟩ := Block.flags_eq.1 hf
    exact ⟨fun _ _ => hcause, fun _ hclr => absurd (henc.symm.trans hclr) nofun⟩
  · constructor <;> intro h₁ h₂ <;> simp_all

/-- Settles O31: of the ways the flags can change, only entry to ERR sets `SEQ` or `ILL`, and only hardware reset
and CLR clear them. -/
theorem seqAndIllStayUntilClr : Obligations.SeqAndIllStayUntilClr := by
  intro s t h
  rcases step_flags h with hf | ⟨hf, hcause⟩ | ⟨hf, -⟩ | ⟨hp, ht, -, hseq, hill⟩
  · obtain ⟨-, hseq, hill⟩ := Block.flags_eq.1 hf
    refine ⟨fun h₁ h₂ => ?_, fun h₁ h₂ => ?_, fun h₁ => ?_⟩ <;> simp_all
  · obtain ⟨-, hseq, hill⟩ := Block.flags_eq.1 hf
    exact ⟨fun _ hset => absurd (hseq.symm.trans hset) nofun, fun _ hset => absurd (hill.symm.trans hset) nofun,
      fun _ => hcause⟩
  · obtain ⟨-, hseq, hill⟩ := Block.flags_eq.1 hf
    refine ⟨fun h₁ h₂ => ?_, fun h₁ h₂ => ?_, fun h₁ => ?_⟩ <;> simp_all
  · refine ⟨fun _ _ => ⟨ht, hp⟩, fun _ _ => ⟨ht, hp⟩, ?_⟩
    rintro (⟨h₁, h₂⟩ | ⟨h₁, h₂⟩)
    · exact absurd (h₂.symm.trans (hseq h₁)) nofun
    · exact absurd (h₂.symm.trans (hill h₁)) nofun

end Sys2Proof.Machine
end

section
/-! PROOFS. The frame offset `OFS` (R28): its bound in the states of the invariant, and its advance with every byte
emitted. -/

namespace Sys2Proof.Machine

/-! ### Which steps emit a byte (R60, R130) -/

/-- A command leaves the trace alone, or it is a DATA that passes its byte through. -/
theorem exec_emits {i : Instr} {s t : State} (h : exec i s = .next t) :
    t.trace = s.trace ∨ ∃ b, i = .data b ∧ s.phase = .data ∧ s.outReady = true ∧ t = dataEffect b s := by
  by_cases ht : t.trace = s.trace
  · exact .inl ht
  · obtain ⟨-, -, -, -, -, -, -, -, hdata, -⟩ := commandsWriteOnlyTheirItems i s t h
    obtain ⟨b, rfl, hp, ho⟩ := hdata (.inl ht)
    rw [exec_data, runCommand_payload_ready hp ho] at h
    exact .inr ⟨b, rfl, hp, ho, (Host.Outcome.next.inj h).symm⟩

/-- A step leaves the trace alone, or empties it by hardware reset, or is an emit step of the sequencer or a DATA. -/
theorem step_emits {s t : State} (h : step s = .next t) :
    t.trace = s.trace ∨
    (s.schedule.head? = some .hardReset ∧ t.trace = []) ∨
    (s.phase = .hdr ∧ s.outReady = true ∧ t = headerEmit s.scheduled) ∨
    (s.phase = .dck ∧ s.outReady = true ∧ t = trailerEmit s.scheduled) ∨
    ∃ w ws b, s.cmd = w :: ws ∧ decode w = .ok (.data b) ∧ s.phase = .data ∧ s.outReady = true ∧
      t = dataEffect b (s.accepting ws) := by
  rcases step_inv h with rfl | ⟨hs, rfl⟩ | ⟨m, rfl⟩ | ⟨k, -, rfl⟩ | ⟨-, hp, ho, rfl⟩ | ⟨-, hp, ho, rfl⟩ |
    ⟨-, w, ws, hc, -, -, -, ⟨i, hd, he⟩ | rfl | ⟨-, -, rfl⟩⟩
  · exact .inl rfl
  · exact .inr (.inl ⟨hs, rfl⟩)
  · exact .inl (hostMove_trace m _)
  · exact .inl rfl
  · exact .inr (.inr (.inl ⟨hp, ho, rfl⟩))
  · exact .inr (.inr (.inr (.inl ⟨hp, ho, rfl⟩)))
  · rcases exec_emits he with ht | ⟨b, rfl, hp, ho, ht⟩
    · exact .inl ht
    · exact .inr (.inr (.inr (.inr ⟨w, ws, b, hc, hd, hp, ho, ht⟩)))
  · exact .inl rfl
  · exact .inl rfl

/-! ### The offset, phase by phase (R28) -/

theorem Block.ofs_idle {b : Block} (hp : b.phase = .idle) : b.ofs = some 0 := by simp [Block.ofs, hp]

theorem Block.ofs_hdr {b : Block} (hp : b.phase = .hdr) : b.ofs = some b.idx.toNat := by simp [Block.ofs, hp]

theorem Block.ofs_data {b : Block} (hp : b.phase = .data) : b.ofs = some (16 + (b.len.toNat - b.rem.toNat)) := by
  simp [Block.ofs, hp]

theorem Block.ofs_dck {b : Block} (hp : b.phase = .dck) : b.ofs = some (16 + b.len.toNat + b.idx.toNat) := by
  simp [Block.ofs, hp]

theorem Block.ofs_done {b : Block} (hp : b.phase = .done) :
    b.ofs = if b.len = 0 then some 16 else some (18 + b.len.toNat) := by simp [Block.ofs, hp]

theorem Block.ofs_err {b : Block} (hp : b.phase = .err) : b.ofs = none := by simp [Block.ofs, hp]

/-- The longest frame, of 65535 payload bytes, has 65553 bytes. -/
theorem Block.Inv.ofs_le {b : Block} (h : b.Inv) {k : Nat} (hk : b.ofs = some k) : k ≤ 65553 := by
  cases hp : b.phase with
  | idle =>
    rw [Block.ofs_idle hp, Option.some.injEq] at hk
    omega
  | hdr =>
    rw [Block.ofs_hdr hp, Option.some.injEq] at hk
    have := h.idx_hdr hp
    omega
  | data =>
    rw [Block.ofs_data hp, Option.some.injEq] at hk
    obtain ⟨-, hlen, -⟩ := h.clean hp (by simp)
    omega
  | dck =>
    rw [Block.ofs_dck hp, Option.some.injEq] at hk
    obtain ⟨-, hlen, -⟩ := h.clean hp (by simp)
    have := h.idx_dck hp
    omega
  | done =>
    rw [Block.ofs_done hp] at hk
    obtain ⟨-, hlen, -⟩ := h.clean hp (by simp)
    split at hk <;> rw [Option.some.injEq] at hk <;> omega
  | err => simp [Block.ofs_err hp] at hk

/-! ### Each emitting step advances it by one -/

theorem headerEmit_ofs {s : State} (h : s.Inv) (hp : s.phase = .hdr) :
    (headerEmit s).ofs = some (s.idx.toNat + 1) := by
  rcases headerEmit_cases s with ⟨hi, e⟩ | ⟨hi, e⟩ | ⟨hi, hl, e⟩ | ⟨hi, -, e⟩ <;> rw [e]
  · exact (Block.ofs_hdr (by exact hp)).trans (congrArg some (count_succ_toNat (by omega)))
  · rw [hi]
    exact Block.ofs_hdr (by exact hp)
  · rw [hi]
    exact (Block.ofs_done rfl).trans (if_pos hl)
  · obtain ⟨-, hlen, -⟩ := h.1.clean hp (by simp)
    rw [Block.ofs_data rfl, hi]
    change some (16 + (s.len.toNat - s.size.toNat)) = some 16
    rw [Block.size_toNat, Nat.mod_eq_of_lt (by omega), Nat.sub_self]

theorem trailerEmit_ofs {s : State} (h : s.Inv) (hp : s.phase = .dck) :
    (trailerEmit s).ofs = some (16 + s.len.toNat + s.idx.toNat + 1) := by
  by_cases hi : s.idx = 0
  · rw [trailerEmit_low hi, hi]
    exact Block.ofs_dck (by exact hp)
  · rw [trailerEmit_high hi, idx_eq_1 hi (h.1.idx_dck hp), show (1 : BitVec 4).toNat = 1 from rfl]
    refine (Block.ofs_done rfl).trans ((if_neg (h.len_ne_zero_of_dck hp)).trans (congrArg some ?_))
    change 18 + s.len.toNat = _
    omega

theorem dataEffect_ofs {s : State} (h : s.Inv) (hp : s.phase = .data) (b : Byte) :
    (dataEffect b s).ofs = some (16 + (s.len.toNat - s.rem.toNat) + 1) := by
  obtain ⟨hrem, hle⟩ := h.1.rem_data hp
  by_cases hr : s.rem = 1
  · have hidx : s.idx = 0 := h.1.idx_zero (by simp [hp])
    have hlast : s.rem.toNat = 1 := congrArg BitVec.toNat hr
    rw [dataEffect_last b hr]
    refine (Block.ofs_dck rfl).trans (congrArg some ?_)
    change 16 + s.len.toNat + s.idx.toNat = _
    rw [hidx, show (0 : BitVec 4).toNat = 0 from rfl]
    omega
  · rw [dataEffect_more b hr]
    refine (Block.ofs_data (by exact hp)).trans (congrArg some ?_)
    change 16 + (s.len.toNat - (s.rem - 1).toNat) = _
    rw [rem_pred_toNat hrem]
    omega

/-- Settles O28: the bound is R33's on `LEN` and `IDX`; the three steps that emit are treated one by one, and no other
step makes the trace longer. -/
theorem emittedByteAdvancesTheOffset : Obligations.EmittedByteAdvancesTheOffset := by
  refine fun s h => ⟨fun k => h.1.ofs_le, fun t hs hlen => ?_⟩
  rcases step_emits hs with ht | ⟨-, ht⟩ | ⟨hp, -, rfl⟩ | ⟨hp, -, rfl⟩ | ⟨w, ws, b, -, -, hp, -, rfl⟩
  · simp [ht] at hlen
  · simp [ht] at hlen
  · exact ⟨_, Block.ofs_hdr hp, headerEmit_ofs h.scheduled hp⟩
  · exact ⟨_, Block.ofs_dck hp, trailerEmit_ofs h.scheduled hp⟩
  · exact ⟨_, Block.ofs_data hp, dataEffect_ofs (h.accepting ws) hp b⟩

end Sys2Proof.Machine
end

section
/-! PROOFS. STATUS field by field (R35), and the outputs `done` and `fault` (R41). -/

namespace Sys2Proof.Machine

/-- Fields side by side, as a number. -/
theorem append_toNat {m n : Nat} (x : BitVec m) (y : BitVec n) : (x ++ y).toNat = x.toNat * 2 ^ n + y.toNat := by
  rw [BitVec.toNat_append, ← Nat.shiftLeft_add_eq_or_of_lt y.isLt, Nat.shiftLeft_eq]

@[simp] theorem flagBit_toNat (f : Bool) : (flagBit f).toNat = f.toNat := BitVec.toNat_ofBool f

/-- STATUS as a number (R35): each field at the weight of its lowest bit. -/
theorem Block.status_toNat (b : Block) :
    b.status.toNat = b.phase.code.toNat + 16 * b.enc.toNat + 32 * b.big.toNat + 64 * b.seq.toNat +
      128 * b.ill.toNat + 256 * b.ncnt.toNat := by
  simp only [Block.status, append_toNat, flagBit_toNat, BitVec.ofNat_eq_ofNat, BitVec.toNat_ofNat]
  omega

/-- A bit of a word, from the word as a number. -/
theorem getLsbD_of_div_mod {n k : Nat} {w : BitVec n} {f : Bool} (h : w.toNat / 2 ^ k % 2 = f.toNat) :
    w.getLsbD k = f := by
  rw [BitVec.getLsbD, Nat.testBit_eq_decide_div_mod_eq, h]
  cases f <;> rfl

/-- The code of a phase is 7 in ERR and nowhere else (R26). -/
theorem Phase.code_eq_7 (p : Phase) : p.code.toNat = 7 ↔ p = .err := by
  cases p <;> decide

/-- Settles O33: every field is read off STATUS as a number. -/
theorem statusFields : Obligations.StatusFields := by
  intro b
  have hp := b.phase.code.isLt
  have he := b.enc.toNat_le
  have hb := b.big.toNat_le
  have hq := b.seq.toNat_le
  have hi := b.ill.toNat_le
  have hnum := b.status_toNat
  have hcode : b.status.toNat % 8 = b.phase.code.toNat := by omega
  have hbig : b.status.getLsbD 5 = b.big := getLsbD_of_div_mod (by omega)
  refine ⟨?_, getLsbD_of_div_mod (f := false) ?_, getLsbD_of_div_mod (by omega), hbig ▸ b.big_iff,
    getLsbD_of_div_mod (by omega), getLsbD_of_div_mod (by omega), by omega, hcode ▸ b.phase.code_eq_7, ?_⟩
  · rw [hcode]
    cases b.phase <;> rfl
  · rw [Bool.toNat_false]
    omega
  · intro hn hdone henc hlen hseq hill
    apply BitVec.eq_of_toNat_eq
    rw [hnum, hn, hdone, henc, Block.big_eq_false.2 hlen, hseq, hill]
    rfl

/-- Settles O34: each output is the test for its phase, and a state has one phase. -/
theorem doneAndFaultOutputs : Obligations.DoneAndFaultOutputs := by
  intro b
  have hdone : b.doneOut = true ↔ b.phase = .done := decide_eq_true_iff
  have hfault : b.faultOut = true ↔ b.phase = .err := decide_eq_true_iff
  refine ⟨hdone, hfault, fun ⟨h₁, h₂⟩ => ?_⟩
  exact absurd ((hdone.1 h₁).symm.trans (hfault.1 h₂)) nofun

end Sys2Proof.Machine
end

section
/-! PROOFS. The moves of the sink, the line they feed (R155, R156), and the moves from outside the block (R63). -/

namespace Sys2Proof.Machine

/-! ### What a move of the sink does to the UART and the line -/

/-- `k'` has what `k` has in its UART and on its line. -/
def Sink.SameBytes (k k' : Sink) : Prop := k'.uart = k.uart ∧ k'.line = k.line

/-- Everything a move of the sink can do to the bytes in the UART and on the line: nothing; the oldest leaves; the
settle delay ends; the sink is released with an error; it is restarted. -/
theorem Sink.move_cases (k : Sink) (m : SinkMove) :
    k.SameBytes (k.move m) ∨
    (m = .drain ∧ ∃ b, k.uart = b :: (k.move m).uart ∧ (k.move m).line = k.line ++ [b]) ∨
    (k.state = .settling ∧ k.move m = ({ k with line := k.line ++ k.uart } : Sink).release .ok) ∨
    (k.state ≠ .closed ∧ ∃ e, k.move m = k.release (.failed e)) ∨
    (m = .restart ∧ k.move m = k.restart) := by
  cases m with
  | openSink c ok =>
    by_cases hs : k.state = .idle
    · rw [Sink.move, Sink.openSink_idle hs]
      cases ok with
      | true => exact .inl ⟨rfl, rfl⟩
      | false => exact .inr (.inr (.inr (.inl ⟨by simp [hs], _, rfl⟩)))
    · rw [Sink.move, Sink.openSink, if_neg hs]
      exact .inl ⟨rfl, rfl⟩
  | beginWrite =>
    rw [Sink.move, Sink.beginWrite]
    split <;> exact .inl ⟨rfl, rfl⟩
  | setReady b =>
    rw [Sink.move, Sink.setReady]
    split <;> exact .inl ⟨rfl, rfl⟩
  | drain =>
    cases hu : k.uart with
    | nil => exact .inl (by simp [Sink.SameBytes, Sink.move, Sink.drain, hu])
    | cons b bs => exact .inr (.inl ⟨rfl, b, by simp [Sink.move, Sink.drain, hu]⟩)
  | writeFails =>
    by_cases hs : k.state = .writing
    · rw [Sink.move, Sink.writeFails, if_pos hs]
      exact .inr (.inr (.inr (.inl ⟨by simp [hs], _, rfl⟩)))
    · rw [Sink.move, Sink.writeFails, if_neg hs]
      exact .inl ⟨rfl, rfl⟩
  | flush ok =>
    by_cases hs : k.state = .writing ∧ k.ended = true
    · rw [Sink.move, Sink.flush, if_pos hs]
      cases ok with
      | true => exact .inl ⟨rfl, rfl⟩
      | false => exact .inr (.inr (.inr (.inl ⟨by simp [hs.1], _, rfl⟩)))
    · rw [Sink.move, Sink.flush, if_neg hs]
      exact .inl ⟨rfl, rfl⟩
  | settleDone =>
    by_cases hs : k.state = .settling
    · rw [Sink.move, Sink.settleDone, if_pos hs]
      exact .inr (.inr (.inl ⟨hs, rfl⟩))
    · rw [Sink.move, Sink.settleDone, if_neg hs]
      exact .inl ⟨rfl, rfl⟩
  | restart => exact .inr (.inr (.inr (.inr ⟨rfl, rfl⟩)))

/-- A fair sink drains no byte of itself: a drain move is scheduled. -/
theorem State.MakesSinkMove.drain {s : State} (h : s.MakesSinkMove .drain) :
    s.schedule.head? = some (.sink .drain) := by
  rcases h with h | ⟨-, -, h⟩
  · exact h
  · exact absurd (Sink.fairMove_cases h) (by simp)

/-- A restart is scheduled, or a fair sink makes it after a success. -/
theorem State.MakesSinkMove.restart {s : State} (h : s.MakesSinkMove .restart) :
    s.schedule.head? = some (.sink .restart) ∨
      (s.schedule = [] ∧ s.sinkFair = true ∧ s.sink.state = .closed ∧ s.sink.result = some .ok) := by
  rcases h with h | ⟨hs, hf, h⟩
  · exact .inl h
  · have hk : s.sink.state = .closed ∧ s.presented.isSome = true ∧ s.sink.result = some .ok := by
      simpa using Sink.fairMove_cases h
    exact .inr ⟨hs, hf, hk.1, hk.2.2⟩

/-- Settles O55: a step leaves the sink alone, makes one of its moves, or hands it the byte emitted. -/
theorem lineCarriesTakenBytesInOrder : Obligations.LineCarriesTakenBytesInOrder := by
  intro s t h
  rcases step_sink h with hk | ⟨m, hm, hk⟩ | ⟨ho, o, ht, hk⟩ <;> rw [hk]
  · exact .inl ⟨rfl, rfl⟩
  · rcases s.sink.move_cases m with hsame | ⟨rfl, hdrain⟩ | ⟨hs, e⟩ | ⟨hs, err, e⟩ | ⟨rfl, e⟩
    · exact .inl hsame
    · exact .inr (.inr (.inl ⟨hm.drain, hdrain⟩))
    · rw [e]
      exact .inr (.inr (.inr (.inl ⟨hs, rfl, rfl, rfl, rfl⟩)))
    · rw [e]
      exact .inr (.inr (.inr (.inr (.inl ⟨hs, rfl, ⟨err, rfl⟩, rfl, rfl⟩))))
    · rw [e]
      exact .inr (.inr (.inr (.inr (.inr ⟨hm.restart, rfl, rfl, rfl⟩))))
  · exact .inr (.inl ⟨ho, o, ht, rfl, rfl⟩)

/-! ### The moves from outside -/

theorem step_scheduled {s : State} {m : Move} {ms : List Move} (hs : s.schedule = m :: ms) :
    step s = runMove m { s with schedule := ms } := by
  rw [step, hs]

/-- Settles O50: a move of the host writes the command channel, and a move of the sink the sink. -/
theorem outsideMovesLeaveTheBlock : Obligations.OutsideMovesLeaveTheBlock := by
  intro s t m ms hs hblock hreset h
  rw [step_scheduled hs] at h
  cases m with
  | block => exact absurd rfl hblock
  | hardReset => exact absurd rfl hreset
  | host m =>
    obtain rfl := Host.Outcome.next.inj h
    exact ⟨hostMove_toBlock m _, hostMove_trace m _, hostMove_responses m _⟩
  | sink k =>
    obtain rfl := Host.Outcome.next.inj h
    exact ⟨rfl, rfl, rfl⟩

end Sys2Proof.Machine
end

section
/-! PROOFS. The command channel: when a word is taken (R62), and that what the block makes of it is decided by the
ten items alone (R63, R64). -/

namespace Sys2Proof.Machine

/-! ### When a word is taken (R62) -/

theorem headerEmit_cmd (s : State) : (headerEmit s).cmd = s.cmd := by
  rcases headerEmit_cases s with ⟨-, e⟩ | ⟨-, e⟩ | ⟨-, -, e⟩ | ⟨-, -, e⟩ <;> rw [e] <;> rfl

theorem trailerEmit_cmd (s : State) : (trailerEmit s).cmd = s.cmd := by
  by_cases h : s.idx = 0
  · rw [trailerEmit_low h]; rfl
  · rw [trailerEmit_high h]; rfl

/-- Accepting a word takes that word and no more. -/
theorem acceptWord_cmd {w : Word} {s t : State} (h : acceptWord w s = .next t) : t.cmd = s.cmd := by
  rcases acceptWord_cases h with ⟨i, -, he⟩ | rfl | ⟨-, -, rfl⟩
  · exact exec_cmd he
  · rfl
  · rfl

/-- With nothing scheduled and no step of the block enabled, the step is a fair sink's or a wait: no word is
taken. -/
theorem step_default_wait_cmd {s t : State} (hs : s.schedule = []) (he : s.blockEnabled = false)
    (h : step s = .next t) : t.cmd = s.cmd := by
  simp only [step, hs, defaultMove, he, Bool.false_eq_true, if_false] at h
  split at h
  · split at h <;> obtain rfl := Host.Outcome.next.inj h <;> rfl
  · obtain rfl := Host.Outcome.next.inj h
    rfl

/-- In HDR and DCK the word presented is held, whether the block emits or waits. -/
theorem step_default_cmd_sending {s t : State} (hs : s.schedule = []) (hp : s.phase = .hdr ∨ s.phase = .dck)
    (h : step s = .next t) : t.cmd = s.cmd := by
  cases he : s.blockEnabled with
  | false => exact step_default_wait_cmd hs he h
  | true =>
    rw [step_default_block hs he] at h
    obtain ⟨-, ⟨-, rfl⟩ | ⟨-, -, rfl⟩ | ⟨-, -, rfl⟩ | ⟨w, ws, -, h₁, h₂, -⟩⟩ := blockMove_cases h
    · rfl
    · exact headerEmit_cmd s
    · exact trailerEmit_cmd s
    · exact absurd hp (by simp [h₁, h₂])

/-- In the other phases the word presented is taken when `cmd_ready`, and stays presented when not. -/
theorem step_default_cmd_accepting {s t : State} {w : Word} {ws : List Word} (hs : s.schedule = [])
    (hc : s.cmd = w :: ws) (hp : ¬(s.phase = .hdr ∨ s.phase = .dck)) (h : step s = .next t) :
    t.cmd = if s.cmdReady w then ws else w :: ws := by
  obtain ⟨h₁, h₂⟩ := not_or.1 hp
  have he := State.blockEnabled_cmd h₁ h₂ hc
  cases hw : s.cmdReady w with
  | false => exact (step_default_wait_cmd hs (he.trans hw) h).trans hc
  | true =>
    rw [step_default_block hs (he.trans hw)] at h
    obtain ⟨hr, -⟩ := blockMove_cases h
    rw [blockMove_accept hr h₁ h₂ hc hw] at h
    exact acceptWord_cmd h

theorem State.cmdReady_data {s : State} {w : Word} (hp : s.phase = .data) (hw : w &&& 0xFFFFFF00 = 0x07000000) :
    s.cmdReady w = s.outReady := by
  simp only [State.cmdReady, hp, (isDataWord_iff w).2 hw, if_true]

/-- Settles O9: in HDR and DCK no word is taken, and elsewhere `cmd_ready` decides. -/
theorem wordAcceptedExactlyWhenReady : Obligations.WordAcceptedExactlyWhenReady := by
  intro s t w ws hc hs h
  refine ⟨fun hp => ?_, fun ⟨hp, hw⟩ => ?_, fun hp hn => ?_⟩
  · exact (step_default_cmd_sending hs hp h).trans hc
  · rw [step_default_cmd_accepting hs hc (by simp [hp]) h, State.cmdReady_data hp hw]
  · obtain ⟨h₁, h₂⟩ := not_or.1 hp
    have hready : s.cmdReady w = true := State.cmdReady_of_not_data h₁ h₂ fun hd =>
      Bool.eq_false_iff.2 fun hw => hn ⟨hd, (isDataWord_iff w).1 hw⟩
    rw [step_default_cmd_accepting hs hc hp h, if_pos hready]

/-! ### What the block's step writes outside the block -/

/-- `s` after a step of the block that leaves the items `b`, emits `out` and responds `rsp`. -/
def State.acts (s : State) (b : Block) (out : List OutByte) (rsp : List Word) : State :=
  { s with toBlock := b, trace := s.trace ++ out, responses := s.responses ++ rsp, sink := out.foldl Sink.take s.sink }

theorem State.acts_silent (s : State) (b : Block) : s.acts b [] [] = { s with toBlock := b } := by
  simp [State.acts]

theorem State.acts_emit (s : State) (b : Block) (x : Byte) (last : Bool) :
    s.acts b [⟨x, last⟩] [] = { s.emit x last with toBlock := b } := by
  simp [State.acts, State.emit]

theorem State.acts_respond (s : State) (v : Word) : s.acts s.toBlock [] [v] = s.respond v := by
  simp [State.acts, State.respond]

/-- An effect that is decided by the ten items: in all states with the items `b` it leaves the same items, emits the
same bytes and responds the same values. -/
def DecidedByBlock (f : State → State) : Prop :=
  ∀ b : Block, ∃ b' out rsp, ∀ s : State, s.toBlock = b → f s = s.acts b' out rsp

theorem decidedByBlock_silent (g : Block → Block) : DecidedByBlock fun s => { s with toBlock := g s.toBlock } :=
  fun b => ⟨g b, [], [], fun s hb => by subst hb; exact (State.acts_silent s _).symm⟩

theorem decidedByBlock_emit (x : Block → Byte) (last : Block → Bool) (g : Block → Block) :
    DecidedByBlock fun s => { s.emit (x s.toBlock) (last s.toBlock) with toBlock := g s.toBlock } :=
  fun b => ⟨g b, [⟨x b, last b⟩], [], fun s hb => by subst hb; exact (State.acts_emit s _ _ _).symm⟩

theorem decidedByBlock_respond (v : Block → Word) : DecidedByBlock fun s => s.respond (v s.toBlock) :=
  fun b => ⟨b, [], [v b], fun s hb => by subst hb; exact (State.acts_respond s _).symm⟩

/-- A choice between two effects by a test on the items. -/
theorem DecidedByBlock.ite {f g : State → State} (hf : DecidedByBlock f) (hg : DecidedByBlock g) (p : Block → Prop)
    [DecidablePred p] : DecidedByBlock fun s => if p s.toBlock then f s else g s := by
  intro b
  by_cases hp : p b
  · obtain ⟨b', out, rsp, h⟩ := hf b
    exact ⟨b', out, rsp, fun s hb => by subst hb; exact (if_pos hp).trans (h s rfl)⟩
  · obtain ⟨b', out, rsp, h⟩ := hg b
    exact ⟨b', out, rsp, fun s hb => by subst hb; exact (if_neg hp).trans (h s rfl)⟩

/-! ### Every effect of the block is decided by its items -/

theorem decidedByBlock_id : DecidedByBlock id := decidedByBlock_silent id

theorem decidedByBlock_raiseFault (k : FaultKind) : DecidedByBlock (State.raiseFault · k) := by
  cases k with
  | enc => exact decidedByBlock_silent ({ · with phase := .err })
  | big => exact decidedByBlock_silent ({ · with phase := .err })
  | seq => exact decidedByBlock_silent ({ · with seq := true, phase := .err })
  | ill => exact decidedByBlock_silent ({ · with ill := true, phase := .err })

theorem decidedByBlock_namechEffect (c : Imm) : DecidedByBlock (namechEffect c) :=
  (decidedByBlock_silent ({ · with enc := true })).ite
    ((decidedByBlock_silent (·.storeName (immByte c))).ite decidedByBlock_id (·.ncnt.toNat < Config.nameLen))
    (fun _ => Config.asciiMax < c.toNat)

theorem decidedByBlock_startEffect : DecidedByBlock startEffect :=
  (decidedByBlock_raiseFault .enc).ite
    ((decidedByBlock_raiseFault .big).ite (decidedByBlock_silent ({ · with acc := 0, phase := .hdr })) (·.big = true))
    (·.enc = true)

theorem decidedByBlock_dataEffect (x : Byte) : DecidedByBlock (dataEffect x) :=
  (decidedByBlock_emit (fun _ => x) (fun _ => false)
      (fun b => { b with acc := add8 b.acc x, rem := b.rem - 1, phase := .dck })).ite
    (decidedByBlock_emit (fun _ => x) (fun _ => false) (fun b => { b with acc := add8 b.acc x, rem := b.rem - 1 }))
    (·.rem = 1)

theorem decidedByBlock_trailerEmit : DecidedByBlock trailerEmit :=
  (decidedByBlock_emit (lowByte ·.acc) (fun _ => false) ({ · with idx := 1 })).ite
    (decidedByBlock_emit (highByte ·.acc) (fun _ => true) ({ · with idx := 0, phase := .done })) (·.idx = 0)

theorem decidedByBlock_headerEmit : DecidedByBlock headerEmit := by
  have emits := decidedByBlock_emit (fun b => b.headerByte b.idx.toNat)
    (fun b => decide (b.idx.toNat = 15) && decide (b.len = 0))
  exact (emits (fun b => { b with acc := add8 b.acc (b.headerByte b.idx.toNat), idx := b.idx + 1 })).ite
    ((emits (fun b => { b with idx := b.idx + 1 })).ite
      ((emits ({ · with idx := 0, phase := .done })).ite
        (emits (fun b => { b with idx := 0, acc := 0, rem := b.size, phase := .data }))
        (·.len = 0))
      (·.idx.toNat < 15))
    (·.idx.toNat ≤ 13)

/-! ### The commands, and the block's move -/

/-- What the command runner makes of an entry of R77. -/
def Verdict.effect (f : State → State) : Verdict → State → State
  | .legal => f
  | .hold => id
  | .drop => id
  | .seq => (State.raiseFault · .seq)
  | .ill => (State.raiseFault · .ill)

theorem runCommand_effect (c : CmdClass) (f : State → State) (s : State) :
    runCommand c f s = .next ((verdict c s.phase s.outReady).effect f s) := by
  unfold runCommand
  cases verdict c s.phase s.outReady <;> rfl

theorem DecidedByBlock.verdict_effect {f : State → State} (hf : DecidedByBlock f) (v : Verdict) :
    DecidedByBlock (v.effect f) := by
  cases v with
  | legal => exact hf
  | hold => exact decidedByBlock_id
  | drop => exact decidedByBlock_id
  | seq => exact decidedByBlock_raiseFault .seq
  | ill => exact decidedByBlock_raiseFault .ill

/-- Only a DATA in phase DATA looks at `out_ready` (R61, R77). -/
theorem verdict_eq_ready {c : CmdClass} {p : Phase} {r : Bool} (h : c = .payload → p = .data → r = true) :
    verdict c p r = verdict c p true := by
  cases r with
  | true => rfl
  | false => cases p <;> cases c <;> simp_all [verdict]

/-- Every command is one run of an effect that is decided by the items, and only DATA is of the class that needs
`out_ready`. -/
theorem exec_eq_runCommand (i : Instr) :
    ∃ c f, DecidedByBlock f ∧ (c = .payload → ∃ x, i = .data x) ∧ ∀ s, exec i s = runCommand c f s := by
  cases i with
  | nop => exact ⟨.system, nopEffect, decidedByBlock_id, nofun, exec_nop⟩
  | clr => exact ⟨.system, State.clear, decidedByBlock_silent fun _ => Block.reset, nofun, exec_clr⟩
  | ckclr => exact ⟨.load, ckclrEffect, decidedByBlock_silent ({ · with acc := 0 }), nofun, exec_ckclr⟩
  | ckadd x =>
    exact ⟨.load, ckaddEffect x, decidedByBlock_silent fun b => { b with acc := add8 b.acc x }, nofun, exec_ckadd x⟩
  | namech c => exact ⟨.load, namechEffect c, decidedByBlock_namechEffect c, nofun, exec_namech c⟩
  | setlen n => exact ⟨.load, setlenEffect n, decidedByBlock_silent ({ · with len := n }), nofun, exec_setlen n⟩
  | start => exact ⟨.load, startEffect, decidedByBlock_startEffect, nofun, exec_start⟩
  | data x => exact ⟨.payload, dataEffect x, decidedByBlock_dataEffect x, fun _ => ⟨x, rfl⟩, exec_data x⟩
  | read r =>
    by_cases hr : r.toNat ≤ 6
    · exact ⟨.system, readEffect r, decidedByBlock_respond (·.regView r.toNat), nofun, exec_read hr⟩
    · exact ⟨.malformed, id, decidedByBlock_id, nofun, exec_read_malformed (by omega)⟩

theorem acceptWord_eq_runCommand (w : Word) :
    ∃ c f, DecidedByBlock f ∧ (c = .payload → isDataWord w = true) ∧ ∀ s, acceptWord w s = runCommand c f s := by
  cases hd : decode w with
  | ok i =>
    obtain ⟨c, f, hf, hc, e⟩ := exec_eq_runCommand i
    refine ⟨c, f, hf, fun h => ?_, fun s => (acceptWord_ok hd s).trans (e s)⟩
    obtain ⟨x, rfl⟩ := hc h
    exact (isDataWord_iff w).2 (word_of_data hd)
  | error err => exact ⟨.malformed, id, decidedByBlock_id, nofun, acceptWord_error hd⟩

/-- What a word does where it is accepted is decided by the word and the items. -/
theorem acceptWord_decided (w : Word) (b : Block) :
    ∃ b' out rsp, ∀ s : State, s.toBlock = b → s.cmdReady w = true →
      ∀ ws, acceptWord w { s with cmd := ws } = .next { s.acts b' out rsp with cmd := ws } := by
  obtain ⟨c, f, hf, hc, e⟩ := acceptWord_eq_runCommand w
  obtain ⟨b', out, rsp, h⟩ := hf.verdict_effect (verdict c b.phase true) b
  refine ⟨b', out, rsp, fun s hb hr ws => ?_⟩
  subst hb
  have hv : verdict c s.phase s.outReady = verdict c s.phase true := verdict_eq_ready fun hpay hp => by
    rwa [State.cmdReady_data hp ((isDataWord_iff w).1 (hc hpay))] at hr
  rw [e, runCommand_effect]
  refine congrArg Host.Outcome.next (Eq.trans ?_ (h { s with cmd := ws } rfl))
  exact congrArg (Verdict.effect f · _) hv

/-- Where a step of the block is enabled, what it does is decided by the items and the words presented. -/
theorem blockMove_decided {b : Block} (hr : b.inRange = true) (ws : List Word) :
    ∃ b' ws' out rsp, ∀ s : State, s.toBlock = b → s.cmd = ws → s.blockEnabled = true →
      blockMove s = .next { s.acts b' out rsp with cmd := ws' } := by
  by_cases h₁ : b.phase = .hdr
  · obtain ⟨b', out, rsp, h⟩ := decidedByBlock_headerEmit b
    refine ⟨b', ws, out, rsp, fun s hb hc he => ?_⟩
    subst hb hc
    rw [State.blockEnabled_emit (.inl h₁)] at he
    rw [blockMove_header hr h₁ he, h s rfl]
    rfl
  by_cases h₂ : b.phase = .dck
  · obtain ⟨b', out, rsp, h⟩ := decidedByBlock_trailerEmit b
    refine ⟨b', ws, out, rsp, fun s hb hc he => ?_⟩
    subst hb hc
    rw [State.blockEnabled_emit (.inr h₂)] at he
    rw [blockMove_trailer hr h₂ he, h s rfl]
    rfl
  cases ws with
  | nil =>
    refine ⟨b, [], [], [], fun s hb hc he => ?_⟩
    subst hb
    rw [State.blockEnabled_nil h₁ h₂ hc] at he
    exact absurd he nofun
  | cons w ws =>
    obtain ⟨b', out, rsp, h⟩ := acceptWord_decided w b
    refine ⟨b', ws, out, rsp, fun s hb hc he => ?_⟩
    subst hb
    rw [State.blockEnabled_cmd h₁ h₂ hc] at he
    rw [blockMove_accept hr h₁ h₂ hc he, h s rfl he]

/-- Settles O51: the step of each state is its block's move, and that is decided by what the two states share. -/
theorem sinkAndPastDoNotSteerTheBlock : Obligations.SinkAndPastDoNotSteerTheBlock := by
  intro s₁ s₂ t₁ t₂ hb hc hs₁ hs₂ he₁ he₂ h₁ h₂
  rw [step_default_block hs₁ he₁] at h₁
  rw [step_default_block hs₂ he₂] at h₂
  obtain ⟨hr, -⟩ := blockMove_cases h₁
  obtain ⟨b', ws', out, rsp, h⟩ := blockMove_decided hr s₁.cmd
  obtain rfl := Host.Outcome.next.inj ((h s₁ rfl rfl he₁).symm.trans h₁)
  obtain rfl := Host.Outcome.next.inj ((h s₂ hb.symm hc.symm he₂).symm.trans h₂)
  exact ⟨rfl, rfl, out, rsp, rfl, rfl, rfl, rfl, rfl, rfl⟩

end Sys2Proof.Machine
end

section
/-! PROOFS. The fields of a frame at their offsets (R53, R78, R79, R81). -/

namespace Sys2Proof.Machine

@[simp] theorem le16_length (v : Half) : (le16 v).length = 2 := rfl

/-- A 16-bit field after `pre` is read back, low byte first (R55). -/
theorem getD_le16 (pre post : List Byte) (v : Half) {n : Nat} (hn : pre.length = n) :
    ((pre ++ le16 v ++ post).getD n 0).toNat + 256 * ((pre ++ le16 v ++ post).getD (n + 1) 0).toNat = v.toNat := by
  subst hn
  have hlow : (pre ++ le16 v ++ post).getD pre.length 0 = lowByte v := by simp [le16]
  have hhigh : (pre ++ le16 v ++ post).getD (pre.length + 1) 0 = highByte v := by simp [le16]
  rw [hlow, hhigh, lowByte_toNat, highByte_toNat]
  omega

/-- What follows the header: the payload and its checksum, or nothing at all (R81). -/
def frameTail (data : List Byte) : List Byte := if data.isEmpty then [] else data ++ le16 (checksum data)

/-- A frame, field by field (R78, R83). -/
theorem frame_fields (n12 data : List Byte) :
    frame n12 data = le16 (BitVec.ofNat 16 data.length) ++ n12 ++
      le16 (checksum (le16 (BitVec.ofNat 16 data.length) ++ n12)) ++ frameTail data := by
  cases data <;> simp [frame, frameHeader, frameTail]

theorem frameTail_take (data : List Byte) : (frameTail data).take data.length = data := by
  cases data <;> simp [frameTail]

/-- Settles O38: each field is what stands after the fields before it. -/
theorem frameFieldsAtTheirOffsets : Obligations.FrameFieldsAtTheirOffsets := by
  intro n12 data hname hlen f
  have hf : f = _ := frame_fields n12 data
  have hcovered : (le16 (BitVec.ofNat 16 data.length) ++ n12).length = 14 := by simp [hname]
  have hsize : (BitVec.ofNat 16 data.length).toNat = data.length := by
    rw [BitVec.toNat_ofNat]
    omega
  refine ⟨?_, ?_, ?_, ?_, fun hpos => ?_⟩
  · rw [hf, List.append_assoc, List.append_assoc]
    exact (getD_le16 [] _ _ rfl).trans hsize
  · rw [hf, List.append_assoc, List.append_assoc, List.drop_left' (le16_length _), List.take_left' hname]
  · rw [hf, getD_le16 _ _ _ hcovered, checksum_toNat, List.append_assoc, List.take_left' hcovered]
  · rw [hf, List.drop_left' (by simp [hname]), frameTail_take]
  · have hne : data.isEmpty = false := List.isEmpty_eq_false_iff.2 (List.ne_nil_of_length_pos hpos)
    rw [hf, frameTail, hne, if_neg nofun, ← List.append_assoc, ← List.append_nil (_ ++ _ ++ le16 (checksum data)),
      show 17 + data.length = 16 + data.length + 1 by omega, getD_le16 _ _ _ ?_, checksum_toNat]
    simp [hname]
    omega

end Sys2Proof.Machine
end

section
/-! PROOFS. Command words (R70 to R75): decoding and encoding are inverse, the rows of R73, and the words of R74. -/

namespace Sys2Proof

/-! ### Decoding and encoding -/

/-- The operand of form B read back (R71, R72). -/
theorem zeroExtend_eq_iff {b : Byte} {imm : Imm} : b.zeroExtend 24 = imm ↔ immHigh imm = 0 ∧ b = immByte imm := by
  constructor
  · rintro rfl
    exact ⟨immHigh_byte b, (immByte_byte b).symm⟩
  · rintro ⟨h, rfl⟩
    exact zeroExtend_immByte h

/-- The operand field that the decoder wants for a command is the one the encoder gives it (R71). -/
theorem Instr.fieldOk_iff {i : Instr} {imm : Imm} : i.fieldOk imm ↔ i.operand = imm := by
  cases i with
  | nop => exact eq_comm
  | clr => exact eq_comm
  | ckclr => exact eq_comm
  | ckadd b => exact zeroExtend_eq_iff.symm
  | namech c => exact Iff.rfl
  | setlen n => exact Iff.rfl
  | start => exact eq_comm
  | data b => exact zeroExtend_eq_iff.symm
  | read r => exact zeroExtend_eq_iff.symm

/-- The decoder is the inverse of the encoder on the well-formed commands. -/
theorem decode_eq_ok_iff {w : Word} {i : Instr} : decode w = .ok i ↔ encode i = w ∧ i.wellFormed = true := by
  rw [decode_ok, Instr.fieldOk_iff]
  constructor
  · rintro ⟨hop, hwf, hf⟩
    exact ⟨encode_eq_of_fields hop.symm hf, hwf⟩
  · rintro ⟨rfl, hwf⟩
    exact ⟨opField_encode i, hwf, (immField_encode i).symm⟩

/-- Settles O1: a well-formed command is what its word decodes to. -/
theorem decodeOfEncodeIsTheCommand : Obligations.DecodeOfEncodeIsTheCommand :=
  fun _ hwf => decode_eq_ok_iff.2 ⟨rfl, hwf⟩

/-- Settles O2: the other direction of the same equivalence. -/
theorem encodeOfDecodeIsTheWord : Obligations.EncodeOfDecodeIsTheWord :=
  fun _ _ h => decode_eq_ok_iff.1 h

/-! ### The rows of R73 -/

/-- A word decodes to a command exactly when it is, as a number, the command's two fields. -/
theorem decode_eq_ok_iff_toNat {w : Word} {i : Instr} :
    decode w = .ok i ↔ w.toNat = i.opcode.toNat * 2 ^ 24 + i.operand.toNat ∧ i.wellFormed = true := by
  rw [decode_eq_ok_iff, ← encode_toNat, ← BitVec.toNat_inj, eq_comm]

section
variable {w p : Word} {i : Instr} {k : Nat}

/-- A row of form Z. -/
theorem decode_row_Z (hk : i.opcode.toNat = k) (hp : p.toNat = k * 2 ^ 24) (hz : i.operand = 0)
    (hwf : i.wellFormed = true) : decode w = .ok i ↔ w &&& 0xFFFFFFFF = p := by
  rw [decode_eq_ok_iff_toNat, and_maskZ, and_iff_left hwf, hk, hp, hz, show (0 : Imm).toNat = 0 from rfl, Nat.add_zero]

/-- A row of form B. -/
theorem decode_row_B {b : Byte} (hk : i.opcode.toNat = k) (hp : p.toNat = k * 2 ^ 24)
    (hb : i.operand = b.zeroExtend 24) :
    decode w = .ok i ↔ (w &&& 0xFFFFFF00 = p ∧ b.toNat = w.toNat % 2 ^ 8) ∧ i.wellFormed = true := by
  have hlt := b.isLt
  have hop : i.operand.toNat = b.toNat := by
    rw [hb, BitVec.zeroExtend, BitVec.toNat_setWidth]
    omega
  rw [decode_eq_ok_iff_toNat, and_maskB, hk, hp, hop]
  exact and_congr_left' (by omega)

/-- A row of form W. -/
theorem decode_row_W (hk : i.opcode.toNat = k) (hp : p.toNat = k * 2 ^ 24) (hwf : i.wellFormed = true) :
    decode w = .ok i ↔ w &&& 0xFF000000 = p ∧ i.operand.toNat = w.toNat % 2 ^ 24 := by
  have hlt := i.operand.isLt
  rw [decode_eq_ok_iff_toNat, and_maskW, and_iff_left hwf, hk, hp]
  omega

end

/-- Settles O3: each row by its form; for READ, well-formedness is the bound on the register number. -/
theorem wordIsCommandOfItsRow : Obligations.WordIsCommandOfItsRow := by
  intro w
  refine ⟨decode_row_Z (k := 0) rfl (by decide) rfl rfl, decode_row_Z (k := 1) rfl (by decide) rfl rfl,
    decode_row_Z (k := 2) rfl (by decide) rfl rfl, fun b => ?_, fun c => decode_row_W (k := 4) rfl (by decide) rfl,
    fun n => decode_row_W (k := 5) rfl (by decide) rfl, decode_row_Z (k := 6) rfl (by decide) rfl rfl, fun b => ?_,
    fun r => ?_⟩
  · exact (decode_row_B (k := 3) rfl (by decide) rfl).trans (and_iff_left rfl)
  · exact (decode_row_B (k := 7) rfl (by decide) rfl).trans (and_iff_left rfl)
  · rw [decode_row_B (k := 8) (b := r) (p := 0x08000000) rfl (by decide) rfl, and_assoc]
    refine and_congr_right' (and_congr_right fun hr => ?_)
    rw [← hr]
    exact registerExists_iff r

/-! ### The words of R74 -/

theorem immHigh_immField_eq_zero {w : Word} : immHigh (immField w) = 0 ↔ w.toNat % 2 ^ 24 / 2 ^ 8 = 0 := by
  rw [immHigh_eq_zero, immField_toNat]

/-- The three conditions of R74 on the opcode and the operand field of a word. -/
theorem decodes_iff (w : Word) :
    (∃ i, decode w = .ok i) ↔
      ((w.toNat / 2 ^ 24) ∈ [0x00, 0x01, 0x02, 0x06] ∧ w.toNat % 2 ^ 24 = 0) ∨
      ((w.toNat / 2 ^ 24) ∈ [0x03, 0x07] ∧ w.toNat % 2 ^ 24 / 2 ^ 8 = 0) ∨
      (w.toNat / 2 ^ 24) ∈ [0x04, 0x05] ∨
      (w.toNat / 2 ^ 24 = 0x08 ∧ w.toNat % 2 ^ 24 / 2 ^ 8 = 0 ∧ w.toNat % 2 ^ 24 % 2 ^ 8 ≤ 6) := by
  simp only [List.mem_cons, List.not_mem_nil, or_false]
  constructor
  · rintro ⟨i, hd⟩
    obtain ⟨hop, hwf, hf⟩ := decode_ok.1 hd
    rw [opField_eq] at hop
    cases i with
    | nop => exact .inl ⟨.inl hop, immField_eq.1 hf⟩
    | clr => exact .inl ⟨.inr (.inl hop), immField_eq.1 hf⟩
    | ckclr => exact .inl ⟨.inr (.inr (.inl hop)), immField_eq.1 hf⟩
    | start => exact .inl ⟨.inr (.inr (.inr hop)), immField_eq.1 hf⟩
    | ckadd b => exact .inr (.inl ⟨.inl hop, immHigh_immField_eq_zero.1 hf.1⟩)
    | data b => exact .inr (.inl ⟨.inr hop, immHigh_immField_eq_zero.1 hf.1⟩)
    | namech c => exact .inr (.inr (.inl (.inl hop)))
    | setlen n => exact .inr (.inr (.inl (.inr hop)))
    | read r =>
      obtain ⟨hhigh, rfl⟩ := hf
      have hr := (registerExists_iff _).1 hwf
      rw [immByte_toNat, immField_toNat] at hr
      exact .inr (.inr (.inr ⟨hop, immHigh_immField_eq_zero.1 hhigh, hr⟩))
  · rintro (⟨hop | hop | hop | hop, hz⟩ | ⟨hop | hop, hhigh⟩ | (hop | hop) | ⟨hop, hhigh, hr⟩)
    · exact ⟨.nop, decode_ok.2 ⟨opField_eq.2 hop, rfl, immField_eq.2 hz⟩⟩
    · exact ⟨.clr, decode_ok.2 ⟨opField_eq.2 hop, rfl, immField_eq.2 hz⟩⟩
    · exact ⟨.ckclr, decode_ok.2 ⟨opField_eq.2 hop, rfl, immField_eq.2 hz⟩⟩
    · exact ⟨.start, decode_ok.2 ⟨opField_eq.2 hop, rfl, immField_eq.2 hz⟩⟩
    · exact ⟨.ckadd _, decode_ok.2 ⟨opField_eq.2 hop, rfl, immHigh_immField_eq_zero.2 hhigh, rfl⟩⟩
    · exact ⟨.data _, decode_ok.2 ⟨opField_eq.2 hop, rfl, immHigh_immField_eq_zero.2 hhigh, rfl⟩⟩
    · exact ⟨.namech _, decode_ok.2 ⟨opField_eq.2 hop, rfl, rfl⟩⟩
    · exact ⟨.setlen _, decode_ok.2 ⟨opField_eq.2 hop, rfl, rfl⟩⟩
    · have hreg : (immByte (immField w)).toNat ≤ 6 := by rwa [immByte_toNat, immField_toNat]
      exact ⟨.read _, decode_ok.2 ⟨opField_eq.2 hop, (registerExists_iff _).2 hreg,
        immHigh_immField_eq_zero.2 hhigh, rfl⟩⟩

end Sys2Proof

namespace Sys2Proof.Machine

/-- A word that no command has takes ILL, or is dropped in ERR (R174). -/
theorem takesIll_of_error {w : Word} {e : Malformed} (h : decode w = .error e) : TakesIll w :=
  fun s => ⟨fun hp => (acceptWord_error h s).trans (takeMalformed_ill hp),
    fun hp => (acceptWord_error h s).trans (takeMalformed_err hp)⟩

/-- Settles O4: the three conditions on the fields, and what the block makes of a word that has no command. -/
theorem wellFormedWordsAreTheOnesThatDecode : Obligations.WellFormedWordsAreTheOnesThatDecode := by
  intro w
  refine ⟨decodes_iff w, fun hn => ?_⟩
  cases hd : decode w with
  | ok i => exact absurd ⟨i, hd⟩ hn
  | error e => exact takesIll_of_error hd

/-! ### Examples (R73, R75, R84, R85) -/

/-- Settles O5, by running the decoder on each word. -/
theorem sampleWordsDecode : Obligations.SampleWordsDecode := by
  unfold Obligations.SampleWordsDecode
  decide

/-- Settles O6, by running the assembler on each text. -/
theorem assemblerExamples : Obligations.AssemblerExamples := by
  unfold Obligations.AssemblerExamples
  decide

end Sys2Proof.Machine
end

section
/-! PROOFS. The length of a frame (R82, R128), and the receiver's reading of it (R86). -/

namespace Sys2Proof.Machine

/-! ### What follows the header, and the length (R82, R128) -/

theorem frameTail_length (data : List Byte) :
    (frameTail data).length = if data.length = 0 then 0 else data.length + 2 := by
  cases data <;> simp [frameTail]

theorem frameTail_drop (data : List Byte) :
    (frameTail data).drop data.length = if data.isEmpty then [] else le16 (checksum data) := by
  cases data <;> simp [frameTail]

theorem frame_length {n12 : List Byte} (hname : n12.length = 12) (data : List Byte) :
    (frame n12 data).length = if data.length = 0 then 16 else 18 + data.length := by
  rw [frame_fields]
  simp only [List.length_append, le16_length, hname, frameTail_length]
  split <;> omega

/-- Settles O37: the header's sixteen bytes, then the payload and two bytes of checksum. -/
theorem frameLength : Obligations.FrameLength := by
  intro n12 data hname hlen
  rw [frame_length hname data]
  refine ⟨rfl, ?_⟩
  split <;> omega

/-! ### Reading a frame (R86) -/

/-- A 16-bit field is read back from its two bytes (R12, R55). -/
theorem fromLe16_bytes (v : Half) : fromLe16 (lowByte v) (highByte v) = v := by
  apply BitVec.eq_of_toNat_eq
  rw [fromLe16, append_toNat, highByte_toNat, lowByte_toNat]
  exact Nat.div_add_mod' v.toNat 256

theorem checkLe16_append (c : Half) (bs : List Byte) : checkLe16 c (le16 c ++ bs) = true := by
  rw [checkLe16, Config.ckBytes, List.take_left' (le16_length c)]
  exact beq_self_eq_true _

/-- What the receiver makes of sixteen header bytes with a good checksum, and whatever follows them. -/
theorem parseFrame_header {n12 : List Byte} (hname : n12.length = 12) (size : Half) (tail : List Byte) :
    parseFrame (frameHeader size n12 ++ tail) =
      if size.toNat = 0 then
        if tail.isEmpty then some ⟨n12.takeWhile (fun b => decide (b ≠ 0)), []⟩ else none
      else if tail.length = size.toNat + 2 && checkLe16 (checksum (tail.take size.toNat)) (tail.drop size.toNat) then
        some ⟨n12.takeWhile (fun b => decide (b ≠ 0)), tail.take size.toNat⟩
      else none := by
  have hcovered : (le16 size ++ n12).length = 14 := by simp [hname]
  have hheader : (frameHeader size n12).length = 16 := by simp [frameHeader, hname]
  have htake : (frameHeader size n12 ++ tail).take 14 = le16 size ++ n12 := by
    rw [frameHeader, List.append_assoc, List.take_left' hcovered]
  have hdrop : (frameHeader size n12 ++ tail).drop 14 = le16 (checksum (le16 size ++ n12)) ++ tail := by
    rw [frameHeader, List.append_assoc, List.drop_left' hcovered]
  have hrest : (frameHeader size n12 ++ tail).drop 16 = tail := List.drop_left' hheader
  have hlen : ¬(frameHeader size n12 ++ tail).length < 16 := by
    rw [List.length_append, hheader]
    omega
  obtain ⟨bs, hbs⟩ : ∃ bs, frameHeader size n12 ++ tail = lowByte size :: highByte size :: bs := ⟨_, rfl⟩
  have hname' : (le16 size ++ n12).drop 2 = n12 := List.drop_left' (le16_length size)
  rw [hbs] at htake hdrop hrest hlen ⊢
  simp only [parseFrame, Config.hdrCovered, Config.hdrLen, Config.sizeBytes, Config.ckBytes, htake, hdrop, hrest, hlen,
    hname', fromLe16_bytes, checkLe16_append, decide_false, Bool.not_true, Bool.or_false, Bool.false_eq_true, if_false]

/-- Settles O39: the Size field is the payload's length, and tells the receiver where the payload ends. -/
theorem parseInvertsFrame : Obligations.ParseInvertsFrame := by
  intro n12 data hname hlen
  have hsize : (BitVec.ofNat 16 data.length).toNat = data.length := by
    rw [BitVec.toNat_ofNat]
    omega
  have hframe : frame n12 data = frameHeader (BitVec.ofNat 16 data.length) n12 ++ frameTail data :=
    frame_fields n12 data
  rw [hframe, parseFrame_header hname, hsize, frameTail_take, frameTail_length, frameTail_drop]
  cases data with
  | nil => rfl
  | cons b bs =>
    have hgood := checkLe16_append (checksum (b :: bs)) []
    rw [List.append_nil] at hgood
    simp [hgood]

end Sys2Proof.Machine
end

section
/-! PROOFS. A step that takes a well-formed word is the command it decodes to (R62, R63, R76). -/

namespace Sys2Proof.Machine

/-- The block's move on a word that is ready to be accepted runs the word's command. -/
theorem blockMove_command {s : State} {w : Word} {ws : List Word} {i : Instr} (hc : s.cmd = w :: ws)
    (hd : decode w = .ok i) (hr : s.inRange = true) (h₁ : s.phase ≠ .hdr) (h₂ : s.phase ≠ .dck)
    (hw : s.cmdReady w = true) : blockMove s = exec i { s with cmd := ws } :=
  (blockMove_accept hr h₁ h₂ hc hw).trans (acceptWord_ok hd _)

/-- Settles O7: by default or on schedule the step is the block's move. -/
theorem stepRunsTheDecodedCommand : Obligations.StepRunsTheDecodedCommand := by
  intro s w ws i hc hd hr h₁ h₂ hw
  refine ⟨fun hs => ?_, fun ms hs => ?_⟩
  · rw [step_default_block hs ((State.blockEnabled_cmd h₁ h₂ hc).trans hw)]
    exact blockMove_command hc hd hr h₁ h₂ hw
  · rw [step_scheduled_block hs]
    exact blockMove_command (s := { s with schedule := ms }) hc hd hr h₁ h₂ hw

end Sys2Proof.Machine
end

section
/-! PROOFS. NAMECH of each code loads the name of `encname` (R80, R110, R113). -/

namespace Sys2Proof.Machine

/-! ### NAMECH on the items -/

/-- What NAMECH writes in IDLE: the items of `namechEffect`, apart from the machine around them (R110). -/
def Block.loadChar (b : Block) (c : Imm) : Block :=
  if Config.asciiMax < c.toNat then { b with enc := true }
  else if b.ncnt.toNat < Config.nameLen then b.storeName (immByte c)
  else b

theorem namechEffect_eq_loadChar (c : Imm) (s : State) :
    namechEffect c s = { s with toBlock := s.toBlock.loadChar c } := by
  unfold namechEffect Block.loadChar
  split
  · rfl
  · split <;> rfl

section
variable {b : Block} {c : Imm}

theorem Block.loadChar_not_ascii (h : 0x7F < c.toNat) : b.loadChar c = { b with enc := true } := if_pos h

theorem Block.loadChar_store (h : c.toNat ≤ 0x7F) (hn : b.ncnt.toNat < 12) :
    b.loadChar c = b.storeName (immByte c) := (if_neg (Nat.not_lt.2 h)).trans (if_pos hn)

theorem Block.loadChar_full (h : c.toNat ≤ 0x7F) (hn : 12 ≤ b.ncnt.toNat) : b.loadChar c = b :=
  (if_neg (Nat.not_lt.2 h)).trans (if_neg (Nat.not_lt.2 hn))

/-- The three cases of R110. -/
theorem Block.loadChar_cases (b : Block) (c : Imm) :
    (0x7F < c.toNat ∧ b.loadChar c = { b with enc := true }) ∨
    (c.toNat ≤ 0x7F ∧ b.ncnt.toNat < 12 ∧ b.loadChar c = b.storeName (immByte c)) ∨
    (c.toNat ≤ 0x7F ∧ 12 ≤ b.ncnt.toNat ∧ b.loadChar c = b) := by
  rcases Nat.lt_or_ge 0x7F c.toNat with h | h
  · exact .inl ⟨h, Block.loadChar_not_ascii h⟩
  · rcases Nat.lt_or_ge b.ncnt.toNat 12 with hn | hn
    · exact .inr (.inl ⟨h, hn, Block.loadChar_store h hn⟩)
    · exact .inr (.inr ⟨h, hn, Block.loadChar_full h hn⟩)

end

@[simp] theorem Block.loadChar_phase (b : Block) (c : Imm) : (b.loadChar c).phase = b.phase := by
  rcases b.loadChar_cases c with ⟨-, e⟩ | ⟨-, -, e⟩ | ⟨-, -, e⟩
  all_goals rw [e]
  exact Block.storeName_phase b _

theorem Block.loadChar_enc (b : Block) (c : Imm) : (b.loadChar c).enc = true ↔ b.enc = true ∨ 0x7F < c.toNat := by
  rcases b.loadChar_cases c with ⟨h, e⟩ | ⟨h, -, e⟩ | ⟨h, -, e⟩
  all_goals simp [e, h]

theorem Block.storeName_ncnt_toNat {b : Block} (c : Byte) (h : b.ncnt.toNat < 12) :
    (b.storeName c).ncnt.toNat = b.ncnt.toNat + 1 := count_succ_toNat (by omega)

/-- NAMECH in IDLE leaves a state from which the rules of the block start. -/
theorem Block.loadChar_inRange {b : Block} (hp : b.phase = .idle) (hr : b.inRange = true) (c : Imm) :
    (b.loadChar c).inRange = true := by
  rcases b.loadChar_cases c with ⟨-, e⟩ | ⟨-, hn, e⟩ | ⟨-, -, e⟩
  all_goals rw [e]
  · exact hr
  · obtain ⟨-, -, hrem, -⟩ := b.inRange_iff.1 hr
    have hcount := Block.storeName_ncnt_toNat (immByte c) hn
    exact (Block.inRange_iff _).2 ⟨by omega, by simp [hp], hrem, by simp [hp]⟩
  · exact hr

/-! ### A run of NAMECH commands -/

theorem step_namech {s : State} {c : Imm} {ws : List Word} (hp : s.phase = .idle) (hr : s.inRange = true)
    (hs : s.schedule = []) (hc : s.cmd = encode (.namech c) :: ws) :
    step s = .next { s with cmd := ws, toBlock := s.toBlock.loadChar c } := by
  have hstep := (stepRunsTheDecodedCommand s _ ws _ hc (decodeOfEncodeIsTheCommand (.namech c) rfl) hr
    (by simp [hp]) (by simp [hp]) (by simp [State.cmdReady, hp])).1 hs
  rw [hstep, exec_namech, runCommand_load_idle (s := { s with cmd := ws }) hp, namechEffect_eq_loadChar]

/-- One NAMECH per code, presented in IDLE before the words `ws`: the items are loaded code by code. -/
theorem runs_pseudoName (codes : List Imm) {s : State} {ws : List Word} (hp : s.phase = .idle)
    (hr : s.inRange = true) (hs : s.schedule = []) (hc : s.cmd = (pseudoName codes).map encode ++ ws) :
    runs codes.length s = .next { s with cmd := ws, toBlock := codes.foldl Block.loadChar s.toBlock } := by
  induction codes generalizing s with
  | nil =>
    subst hc
    rfl
  | cons c codes ih =>
    rw [List.length_cons, runs_succ (step_namech hp hr hs hc)]
    exact ih (s := { s with cmd := (pseudoName codes).map encode ++ ws, toBlock := s.toBlock.loadChar c })
      ((Block.loadChar_phase _ c).trans hp) (Block.loadChar_inRange hp hr c) hs rfl

/-! ### The name that is loaded (R80) -/

theorem all_ascii_iff {codes : List Imm} :
    codes.all (fun c => decide (c.toNat ≤ Config.asciiMax)) = true ↔ ∀ c ∈ codes, c.toNat ≤ 0x7F := by
  simp only [List.all_eq_true, decide_eq_true_eq]
  rfl

theorem encname_eq_some_iff {codes : List Imm} {n12 : List Byte} :
    encname codes = some n12 ↔
      (∀ c ∈ codes, c.toNat ≤ 0x7F) ∧
        (codes.take 12).map immByte ++ List.replicate (12 - codes.length) 0 = n12 := by
  rw [encname, ← all_ascii_iff]
  simp only [Option.ite_none_right_eq_some, Option.some.injEq]
  rfl

theorem encname_eq_none_iff {codes : List Imm} : encname codes = none ↔ ∃ c ∈ codes, 0x7F < c.toNat := by
  have h : encname codes = none ↔ ¬∀ c ∈ codes, c.toNat ≤ 0x7F := by
    rw [encname, ← all_ascii_iff]
    simp only [ite_eq_right_iff, reduceCtorEq, imp_false]
  rw [h]
  simp only [not_forall, not_le, exists_prop]

theorem Block.loadChars_phase (codes : List Imm) (b : Block) : (codes.foldl Block.loadChar b).phase = b.phase := by
  induction codes generalizing b with
  | nil => rfl
  | cons c codes ih => exact (ih _).trans (b.loadChar_phase c)

/-- `ENC` is set by a code above 0x7F, wherever it stands (R29, R110). -/
theorem Block.loadChars_enc (codes : List Imm) (b : Block) :
    (codes.foldl Block.loadChar b).enc = true ↔ b.enc = true ∨ ∃ c ∈ codes, 0x7F < c.toNat := by
  induction codes generalizing b with
  | nil => simp
  | cons c codes ih => rw [List.foldl_cons, ih, Block.loadChar_enc, List.exists_mem_cons_iff, or_assoc]

/-- The bytes of R80 after one more code: it is stored behind those before it, or the name is full. -/
theorem Block.loadChars_name {codes : List Imm} {b : Block} (hn : b.ncnt = 0) (hz : b.name = Vector.replicate 12 0)
    (ha : ∀ c ∈ codes, c.toNat ≤ 0x7F) :
    (codes.foldl Block.loadChar b).nameBytes =
      (codes.take 12).map immByte ++ List.replicate (12 - codes.length) 0 ∧
    (codes.foldl Block.loadChar b).ncnt.toNat = min codes.length 12 := by
  induction codes using List.reverseRecOn with
  | nil => simp [hn, hz, Block.nameBytes]
  | append_singleton codes c ih =>
    obtain ⟨hname, hcount⟩ := ih fun x hx => ha x (List.mem_append_left _ hx)
    have hc : c.toNat ≤ 0x7F := ha c (by simp)
    rw [List.foldl_concat, List.length_append, List.length_singleton]
    rcases Nat.lt_or_ge codes.length 12 with hlt | hge
    · have hn12 : (codes.foldl Block.loadChar b).ncnt.toNat = codes.length := by omega
      have hroom : 12 - codes.length = (12 - (codes.length + 1)) + 1 := by omega
      rw [Block.loadChar_store hc (by omega), Block.storeName_nameBytes, Block.storeName_ncnt_toNat _ (by omega), hn12,
        hname, List.take_of_length_le (by omega), List.take_of_length_le (by simp; omega), hroom, List.replicate_succ]
      refine ⟨?_, by omega⟩
      simp
    · rw [Block.loadChar_full hc (by omega), hname, hcount, List.take_append_of_le_length hge,
        Nat.sub_eq_zero_of_le hge, Nat.sub_eq_zero_of_le (by omega)]
      exact ⟨rfl, by omega⟩

/-- Settles O46: the run loads the codes one by one, and that is `encname` or `ENC`. -/
theorem nameLoadsAsEncname : Obligations.NameLoadsAsEncname := by
  intro s codes hp hr hs hn hz henc hc
  have hc' : s.cmd = (pseudoName codes).map encode ++ [] := by rw [hc, List.append_nil]
  refine ⟨_, runs_pseudoName codes hp hr hs hc', rfl, (Block.loadChars_phase codes _).trans hp, fun n12 h => ?_,
    fun h => ?_⟩
  · obtain ⟨hascii, rfl⟩ := encname_eq_some_iff.1 h
    obtain ⟨hname, hcount⟩ := Block.loadChars_name hn hz hascii
    refine ⟨?_, hname, hcount⟩
    rw [← Bool.not_eq_true, Block.loadChars_enc, henc]
    rintro (h | ⟨c, hmem, hbig⟩)
    · cases h
    · exact absurd (hascii c hmem) (by omega)
  · exact (Block.loadChars_enc codes _).2 (.inr (encname_eq_none_iff.1 h))

end Sys2Proof.Machine
end

section
/-! PROOFS. The laws of the checksum (R100, R101) and the sums of the header and of a payload (R106). -/

namespace Sys2Proof.Machine

/-! ### The checksum is a function of the exact sum (R101) -/

theorem byteSum_eq_sum (s : List Byte) : byteSum s = (s.map BitVec.toNat).sum := by
  induction s with
  | nil => rfl
  | cons b s ih => rw [byteSum_cons, ih, List.map_cons, List.sum_cons]

theorem checksum_congr {s u : List Byte} (h : byteSum s = byteSum u) : checksum s = checksum u := by
  rw [checksum, checksum, h]

/-- The fold of R100, from any accumulator value that is already a checksum. -/
theorem foldl_add8_checksum (u s : List Byte) : s.foldl add8 (checksum u) = checksum (u ++ s) := by
  induction s generalizing u with
  | nil => rw [List.foldl_nil, List.append_nil]
  | cons b s ih => rw [List.foldl_cons, ← checksum_snoc, ih, List.append_assoc, List.singleton_append]

theorem foldl_add8_zero (s : List Byte) : s.foldl add8 0 = checksum s := foldl_add8_checksum [] s

theorem byteSum_perm {s u : List Byte} (h : s.Perm u) : byteSum s = byteSum u := by
  rw [byteSum_eq_sum, byteSum_eq_sum, (h.map BitVec.toNat).sum_eq]

theorem byteSum_append_zeros (s : List Byte) (n : Nat) : byteSum (s ++ List.replicate n 0) = byteSum s := by
  rw [byteSum_append, byteSum_replicate]
  rfl

/-- Settles O35: each law is one of the exact sum, reduced modulo 65536. -/
theorem checksumLaws : Obligations.ChecksumLaws := by
  refine ⟨add8_toNat, checksum_nil, fun s => ?_, foldl_add8_zero, fun s u h => checksum_congr (byteSum_perm h),
    fun s u => ?_, fun s n => checksum_congr (byteSum_append_zeros s n)⟩
  · rw [checksum_toNat, byteSum_eq_sum]
  · rw [checksum_toNat, checksum_toNat, checksum_toNat, byteSum_append, Nat.add_mod]

/-! ### Bounds on the sum (R106) -/

theorem byteSum_le (s : List Byte) : byteSum s ≤ s.length * 255 :=
  byteSum_le_of_forall fun b _ => Nat.le_of_lt_succ b.isLt

/-- The largest sum of `n` bytes. -/
theorem byteSum_replicate_ff (n : Nat) : byteSum (List.replicate n 0xFF) = n * 255 := byteSum_replicate n 0xFF

theorem checksum_replicate_ff (n : Nat) : checksum (List.replicate n 0xFF) = BitVec.ofNat 16 (n * 255 % 65536) := by
  rw [checksum, byteSum_replicate_ff, Config.ckMod]

/-- The Size field adds at most two bytes' worth to the sum of the name (R53, R106). -/
theorem byteSum_covered_le (size : Half) {n12 : List Byte} {m : Nat} (hname : n12.length = 12)
    (hm : ∀ b ∈ n12, b.toNat ≤ m) : byteSum (le16 size ++ n12) ≤ 510 + 12 * m := by
  have hsize := byteSum_le (le16 size)
  have hsum := byteSum_le_of_forall hm
  rw [le16_length] at hsize
  rw [hname] at hsum
  rw [byteSum_append]
  exact Nat.add_le_add hsize hsum

/-- Settles O36: two bytes of Size and twelve of the name are too few to wrap. -/
theorem headerChecksumNeverWraps : Obligations.HeaderChecksumNeverWraps := by
  refine ⟨fun size n12 hname => ⟨?_, fun hascii => ?_⟩, fun d hd => ?_, byteSum_replicate_ff 258,
    checksum_replicate_ff 258, byteSum_replicate_ff 257, checksum_replicate_ff 257, byteSum_replicate_ff 65535,
    checksum_replicate_ff 65535⟩
  · exact byteSum_covered_le size hname fun b _ => Nat.le_of_lt_succ b.isLt
  · exact byteSum_covered_le size hname hascii
  · have hsum := byteSum_le d
    omega

end Sys2Proof.Machine
end

section
/-! PROOFS. CKCLR and CKADD, command by command (R102, R103), and the stand-alone checksum they make with
`READ ACC` (R104). -/

namespace Sys2Proof.Machine

/-! ### What the load commands share: phases without effect, and malformed words -/

/-- In the phases that neither perform a load command nor fault on it, the state stays as it is (R77). -/
theorem runCommand_load_kept {s : State} (h : s.phase = .err ∨ s.phase = .hdr ∨ s.phase = .dck)
    (f : State → State) : runCommand .load f s = .next s := by
  rcases h with h | h
  · exact runCommand_load_err h f
  · exact runCommand_held h .load f

/-- A word of form Z with an operand bit set is malformed (R71, R74). -/
theorem takesIll_of_formZ {w : Word} {k : Nat} (hk : k ∈ [0x00, 0x01, 0x02, 0x06]) (hop : w.toNat / 2 ^ 24 = k)
    (hz : w.toNat % 2 ^ 24 ≠ 0) : TakesIll w := by
  refine (wellFormedWordsAreTheOnesThatDecode w).2 fun hd => ?_
  have hfields := (decodes_iff w).1 hd
  simp only [List.mem_cons, List.not_mem_nil, or_false] at hk hfields
  omega

/-- A word of form B with one of the bits above its byte set is malformed (R71, R74). -/
theorem takesIll_of_formB {w : Word} {k : Nat} (hk : k ∈ [0x03, 0x07, 0x08]) (hop : w.toNat / 2 ^ 24 = k)
    (hhigh : w.toNat / 2 ^ 8 % 2 ^ 16 ≠ 0) : TakesIll w := by
  refine (wellFormedWordsAreTheOnesThatDecode w).2 fun hd => ?_
  have hfields := (decodes_iff w).1 hd
  simp only [List.mem_cons, List.not_mem_nil, or_false] at hk hfields
  omega

/-! ### CKCLR (R102) -/

/-- Settles O16: a load command, whose effect is the accumulator alone. -/
theorem ckclrClearsTheAccumulator : Obligations.CkclrClearsTheAccumulator := by
  refine ⟨by decide, fun s => ⟨fun h => ?_, fun h => ?_, fun h => ?_⟩,
    fun w hop hz => takesIll_of_formZ (by decide) hop hz⟩
  · exact (exec_ckclr s).trans (runCommand_load_idle h ckclrEffect)
  · exact (exec_ckclr s).trans (runCommand_load_seq h ckclrEffect)
  · exact (exec_ckclr s).trans (runCommand_load_kept h ckclrEffect)

/-! ### CKADD (R103) -/

/-- The word of a form-B command, from its byte (R71, R84). -/
theorem encode_formB_toNat {i : Instr} {b : Byte} {k : Nat} (hk : i.opcode.toNat = k)
    (hb : i.operand = b.zeroExtend 24) : (encode i).toNat = k * 2 ^ 24 + b.toNat := by
  have hlt := b.isLt
  rw [encode_toNat, hk, hb, BitVec.zeroExtend, BitVec.toNat_setWidth, Nat.mod_eq_of_lt (by omega)]

/-- Settles O17: a load command, whose effect is one sum of R100. -/
theorem ckaddAddsOneByte : Obligations.CkaddAddsOneByte := by
  refine ⟨fun b => encode_formB_toNat (k := 3) rfl rfl, fun b s => ⟨fun h => ?_, fun h => ?_, fun h => ?_⟩,
    fun w hop hhigh => takesIll_of_formB (by decide) hop hhigh⟩
  · rw [exec_ckadd, runCommand_load_idle h, ckaddEffect, add8_eq]
  · exact (exec_ckadd b s).trans (runCommand_load_seq h (ckaddEffect b))
  · exact (exec_ckadd b s).trans (runCommand_load_kept h (ckaddEffect b))

/-! ### The run of R104 -/

section
variable {s : State} {ws : List Word}

/-- In IDLE with nothing scheduled, the next step is the command presented (R62, R76). -/
theorem step_idle_command {i : Instr} (hi : i.wellFormed = true) (hp : s.phase = .idle) (hr : s.inRange = true)
    (hs : s.schedule = []) (hc : s.cmd = encode i :: ws) : step s = exec i { s with cmd := ws } :=
  (stepRunsTheDecodedCommand s _ ws i hc (decodeOfEncodeIsTheCommand i hi) hr (by simp [hp]) (by simp [hp])
    (State.cmdReady_of_not_data (by simp [hp]) (by simp [hp]) (by simp [hp]))).1 hs

theorem step_ckclr (hp : s.phase = .idle) (hr : s.inRange = true) (hs : s.schedule = [])
    (hc : s.cmd = encode .ckclr :: ws) : step s = .next { s with cmd := ws, acc := 0 } :=
  (step_idle_command rfl hp hr hs hc).trans (runCommand_load_idle (s := { s with cmd := ws }) hp ckclrEffect)

theorem step_ckadd {b : Byte} (hp : s.phase = .idle) (hr : s.inRange = true) (hs : s.schedule = [])
    (hc : s.cmd = encode (.ckadd b) :: ws) : step s = .next { s with cmd := ws, acc := add8 s.acc b } :=
  (step_idle_command rfl hp hr hs hc).trans (runCommand_load_idle (s := { s with cmd := ws }) hp (ckaddEffect b))

theorem step_read_acc (hp : s.phase = .idle) (hr : s.inRange = true) (hs : s.schedule = [])
    (hc : s.cmd = encode (.read 1) :: ws) :
    step s = .next { s with cmd := ws, responses := s.responses ++ [s.acc.zeroExtend 32] } := by
  rw [step_idle_command rfl hp hr hs hc, exec_read (by decide), runCommand_system (by simp [hp]) (by simp [hp])]
  rfl

/-- One CKADD per byte, presented in IDLE before the words `ws`: the accumulator folds `add8` over the bytes. -/
theorem runs_ckadd (bytes : List Byte) (hp : s.phase = .idle) (hr : s.inRange = true) (hs : s.schedule = [])
    (hc : s.cmd = (bytes.map Instr.ckadd).map encode ++ ws) :
    runs bytes.length s = .next { s with cmd := ws, acc := bytes.foldl add8 s.acc } := by
  induction bytes generalizing s with
  | nil =>
    subst hc
    rfl
  | cons b bytes ih =>
    rw [List.length_cons, runs_succ (step_ckadd hp hr hs hc)]
    exact ih (s := { s with cmd := (bytes.map Instr.ckadd).map encode ++ ws, acc := add8 s.acc b }) hp hr hs rfl

end

/-- Settles O45: CKCLR makes the accumulator 0, the CKADDs fold the bytes into it, and READ responds with it. -/
theorem standAloneChecksum : Obligations.StandAloneChecksum := by
  intro s bytes hp hr hs hc
  have hwords : s.cmd = encode .ckclr :: ((bytes.map Instr.ckadd).map encode ++ [encode (.read 1)]) := by
    rw [hc, pseudoChecksum]
    simp
  change runs (bytes.length + 1 + 1) s = _
  have hadds := runs_ckadd (s := { s with cmd := (bytes.map Instr.ckadd).map encode ++ [encode (.read 1)], acc := 0 })
    bytes hp hr hs rfl
  rw [foldl_add8_zero] at hadds
  rw [runs_succ (step_ckclr hp hr hs hwords), runs_add hadds]
  exact runs_one (step_read_acc (s := { s with cmd := [encode (.read 1)], acc := checksum bytes }) hp hr hs rfl)

end Sys2Proof.Machine
end

section
/-! PROOFS. The block's move refuses the states that W6 and W7 say to refuse. -/

namespace Sys2Proof.Machine

theorem blockMove_refused {s : State} (hr : ¬s.inRange = true) : blockMove s = .refused .unreachableState := if_neg hr

/-- Settles O11: each of the four conditions breaks one clause of the range, whatever is presented. -/
theorem outOfRangeStatesAreRefused : Obligations.OutOfRangeStatesAreRefused := by
  intro s ms hs hbad
  rw [step_scheduled_block hs]
  refine blockMove_refused fun hr => ?_
  obtain ⟨hncnt, hidx, hrem, hdata⟩ := s.inRange_iff.1 hr
  rcases hbad with h | ⟨hp, h⟩ | h | ⟨hp, h⟩
  · omega
  · exact absurd (hidx hp) (Nat.not_le.2 h)
  · omega
  · have hone := hdata hp
    rw [h] at hone
    exact absurd hone (by decide)

end Sys2Proof.Machine
end

section
/-! PROOFS. NAMECH, SETLEN and START, command by command (R110 to R112), and the frame of the stored name. -/

namespace Sys2Proof.Machine

/-! ### What the commands share: the word of form W, and the phases other than IDLE -/

/-- The word of a form-W command, from its operand (R71, R84). -/
theorem encode_formW_toNat {i : Instr} {imm : Imm} {k : Nat} (hk : i.opcode.toNat = k) (himm : i.operand = imm) :
    (encode i).toNat = k * 2 ^ 24 + imm.toNat := by
  rw [encode_toNat, hk, himm]

/-- Outside IDLE every load command answers alike, whatever its effect `f` is: SEQ in DATA and DONE, and the state as
it was in ERR, HDR and DCK (R77). -/
theorem exec_load_outside_idle {i : Instr} {f : State → State} {s : State} (hi : exec i s = runCommand .load f s) :
    (s.phase = .data ∨ s.phase = .done → exec i s = .next (s.raiseFault .seq)) ∧
    (s.phase = .err ∨ s.phase = .hdr ∨ s.phase = .dck → exec i s = .next s) :=
  ⟨fun h => hi.trans (runCommand_load_seq h f), fun h => hi.trans (runCommand_load_kept h f)⟩

/-! ### NAMECH (R110) -/

theorem exec_namech_idle {s : State} (hp : s.phase = .idle) (c : Imm) :
    exec (.namech c) s = .next { s with toBlock := s.toBlock.loadChar c } := by
  rw [exec_namech, runCommand_load_idle hp, namechEffect_eq_loadChar]

/-- The stored byte and the new count as numbers: the byte is the code cut to 8 bits, the count is 4 bits wide. -/
theorem Block.storeName_immByte (b : Block) (c : Imm) :
    b.storeName (immByte c) =
      { b with name := b.name.setIfInBounds b.ncnt.toNat (BitVec.ofNat 8 c.toNat),
               ncnt := BitVec.ofNat 4 (b.ncnt.toNat + 1) } := by
  have hbyte : immByte c = BitVec.ofNat 8 c.toNat := BitVec.eq_of_toNat_eq (by simp)
  have hcount : b.ncnt + 1 = BitVec.ofNat 4 (b.ncnt.toNat + 1) := BitVec.eq_of_toNat_eq (by simp)
  rw [Block.storeName, hbyte, hcount]

/-- NAMECH writes behind the stored characters, never over them (R110). -/
theorem Block.loadChar_nameByte_stored {b : Block} {j : Nat} (hj : j < b.ncnt.toNat) (c : Imm) :
    (b.loadChar c).nameByte j = b.nameByte j := by
  rcases b.loadChar_cases c with ⟨-, e⟩ | ⟨-, hn, e⟩ | ⟨-, -, e⟩
  all_goals rw [e]
  · rfl
  · rw [Block.storeName_nameByte b _ j (by omega), if_neg (by omega)]

theorem Block.nameByte_congr {b b' : Block} (h : b'.name = b.name) (j : Nat) : b'.nameByte j = b.nameByte j := by
  rw [Block.nameByte, Block.nameByte, h]

/-- Only CLR changes a stored character: besides CLR, NAMECH alone writes `NAME` (R38), and it appends. -/
theorem exec_keeps_stored_chars {i : Instr} {s t : State} (h : exec i s = .next t) (hi : i ≠ .clr) {j : Nat}
    (hj : j < s.ncnt.toNat) : t.nameByte j = s.nameByte j := by
  by_cases hname : t.name = s.name
  · exact Block.nameByte_congr hname j
  · obtain ⟨-, -, hwriter, -⟩ := commandsWriteOnlyTheirItems i s t h
    obtain ⟨c, rfl⟩ := (hwriter hname).resolve_left hi
    rw [exec_namech] at h
    rcases runCommand_cases h with ⟨-, rfl⟩ | rfl | ⟨-, -, -, rfl⟩ | ⟨-, -, rfl⟩
    · rw [namechEffect_eq_loadChar]
      exact Block.loadChar_nameByte_stored hj c
    · rfl
    · rfl
    · rfl

/-- Settles O18: the cases of `loadChar` in IDLE, the load commands' answer elsewhere, and the frame of the stored
characters. -/
theorem namechStoresOneCharacter : Obligations.NamechStoresOneCharacter := by
  refine ⟨fun c => encode_formW_toNat (k := 4) rfl rfl, fun c s => ⟨fun hp hc => ?_, fun hp hc hn => ?_, fun hp hc hn => ?_,
    exec_load_outside_idle (exec_namech c s)⟩,
    fun w hop => ⟨immField w, decode_ok.2 ⟨opField_eq.2 hop, rfl, rfl⟩⟩,
    fun i s t h hi j hj => exec_keeps_stored_chars h hi hj⟩
  · rw [exec_namech_idle hp, Block.loadChar_not_ascii hc]
  · rw [exec_namech_idle hp, Block.loadChar_store hc hn, Block.storeName_immByte]
  · rw [exec_namech_idle hp, Block.loadChar_full hc hn]

/-! ### SETLEN (R111) -/

/-- Settles O19: a load command whose effect is `LEN` alone; `BIG` is read off `LEN`. -/
theorem setlenDeclaresTheLength : Obligations.SetlenDeclaresTheLength := by
  refine ⟨fun n => encode_formW_toNat (k := 5) rfl rfl,
    fun n s => ⟨fun hp => ⟨?_, ?_⟩, exec_load_outside_idle (exec_setlen n s)⟩,
    fun w hop => ⟨immField w, decode_ok.2 ⟨opField_eq.2 hop, rfl, rfl⟩⟩⟩
  · exact (exec_setlen n s).trans (runCommand_load_idle hp (setlenEffect n))
  · exact Block.big_iff _

/-! ### START (R112) -/

section
variable {s : State}

theorem startEffect_enc (he : s.enc = true) : startEffect s = { s with phase := .err } := if_pos he

theorem startEffect_big (he : s.enc = false) (hl : 65535 < s.len.toNat) :
    startEffect s = { s with phase := .err } :=
  (if_neg (by simp [he])).trans (if_pos (s.big_iff.2 hl))

theorem startEffect_begins (he : s.enc = false) (hl : s.len.toNat ≤ 65535) :
    startEffect s = { s with acc := 0, phase := .hdr } :=
  (if_neg (by simp [he])).trans (if_neg (by simpa using hl))

theorem exec_start_idle (hp : s.phase = .idle) : exec .start s = .next (startEffect s) :=
  (exec_start s).trans (runCommand_load_idle hp startEffect)

end

/-- Settles O20: in IDLE one of the three effects of START, with ENC before BIG (R178). -/
theorem startChecksAndBeginsTheHeader : Obligations.StartChecksAndBeginsTheHeader := by
  refine ⟨by decide, fun s => ⟨fun hp he => ?_, fun hp he hl => ?_, fun hp he hl => ?_,
    exec_load_outside_idle (exec_start s)⟩, fun w hop hz => takesIll_of_formZ (by decide) hop hz⟩
  · rw [exec_start_idle hp, startEffect_enc he]
  · rw [exec_start_idle hp, startEffect_big he hl]
  · rw [exec_start_idle hp, startEffect_begins he hl]

end Sys2Proof.Machine
end

section
/-! PROOFS. The header emit step, DATA and the trailer emit step, each rule whole (R121 to R124). -/

namespace Sys2Proof.Machine

/-! ### The header emit step (R121, R122) -/

theorem Block.headerByte_name (b : Block) {i : Nat} (h₂ : 2 ≤ i) (h₁₃ : i ≤ 13) :
    b.headerByte i = b.nameByte (i - 2) := by
  rw [Block.headerByte, if_neg (by omega), if_neg (by omega), if_pos h₁₃]

/-- Settles O23: the byte is `hdr(IDX)`, and each range of `IDX` is one case of the step. -/
theorem headerEmitStep : Obligations.HeaderEmitStep := by
  intro s ms hp ho hr hs
  have hstep : step s = .next (headerEmit { s with schedule := ms }) :=
    (step_scheduled_block hs).trans (blockMove_header (s := { s with schedule := ms }) hr hp ho)
  refine ⟨s.headerByte s.idx.toNat, fun hi => ?_, fun hi => ?_, fun h₂ h₁₃ => s.headerByte_name h₂ h₁₃,
    fun hi => ?_, fun hi => ?_, fun hi => ?_, fun hi => ?_, fun hi hl => ?_, fun hi hl => ?_⟩
  · rw [hi]
    change (lowByte s.size).toNat = _
    rw [lowByte_toNat, Block.size_toNat]
    omega
  · rw [hi]
    change (highByte s.size).toNat = _
    rw [highByte_toNat, Block.size_toNat]
    omega
  · rw [hi]
    exact lowByte_toNat s.acc
  · rw [hi]
    exact highByte_toNat s.acc
  · have hidx : s.idx + 1 = BitVec.ofNat 4 (s.idx.toNat + 1) := BitVec.eq_of_toNat_eq (by simp)
    rw [hstep, headerEmit_covered (s := { s with schedule := ms }) hi, add8_eq, hidx]
    rfl
  · rw [hstep, headerEmit_low (s := { s with schedule := ms }) hi, hi]
    rfl
  · rw [hstep, headerEmit_delete (s := { s with schedule := ms }) hi hl, hi]
    rfl
  · have hsize : s.size = BitVec.ofNat 16 (s.len.toNat % 65536) := BitVec.eq_of_toNat_eq (by simp)
    rw [hstep, headerEmit_upload (s := { s with schedule := ms }) hi hl, hi, ← hsize]
    rfl

/-! ### The trailer emit step (R124) -/

/-- Settles O24: the low byte of `ACC` and then the high byte, `ACC` itself unchanged. -/
theorem trailerEmitStep : Obligations.TrailerEmitStep := by
  intro s ms hp ho hr hs
  have hstep : step s = .next (trailerEmit { s with schedule := ms }) :=
    (step_scheduled_block hs).trans (blockMove_trailer (s := { s with schedule := ms }) hr hp ho)
  refine ⟨fun hi => ⟨lowByte s.acc, lowByte_toNat _, ?_⟩, fun hi => ⟨highByte s.acc, highByte_toNat _, ?_⟩⟩
  · rw [hstep, trailerEmit_low (s := { s with schedule := ms }) hi]
    rfl
  · rw [hstep, trailerEmit_high (s := { s with schedule := ms }) (by simp [hi])]
    rfl

/-! ### DATA (R123) -/

/-- Settles O21: the entries of R77 for DATA in each phase, and its effect where it is legal. -/
theorem dataPassesOneByteThrough : Obligations.DataPassesOneByteThrough := by
  refine ⟨fun b => encode_formB_toNat (k := 7) rfl rfl, fun b s => ⟨fun hp ho hrem => ?_, fun hp ho => ?_,
    fun hp => ?_, fun hp => ?_⟩, fun w hop hhigh => takesIll_of_formB (by decide) hop hhigh⟩
  · have hcount : s.rem - 1 = BitVec.ofNat 16 (s.rem.toNat - 1) := by
      apply BitVec.eq_of_toNat_eq
      rw [rem_pred_toNat hrem, BitVec.toNat_ofNat]
      omega
    rw [exec_data, runCommand_payload_ready hp ho, ← add8_eq, ← hcount]
    by_cases h1 : s.rem = 1
    · rw [dataEffect_last b h1, if_pos (by simp [h1])]
      rfl
    · have h1' : s.rem.toNat ≠ 1 := fun e => h1 (BitVec.eq_of_toNat_eq e)
      rw [dataEffect_more b h1, if_neg h1', ← hp]
      rfl
  · exact (exec_data b s).trans (runCommand_payload_wait hp ho _)
  · exact (exec_data b s).trans (runCommand_payload_seq hp _)
  · rw [exec_data]
    rcases hp with hp | hp
    · exact runCommand_payload_err hp _
    · exact runCommand_held hp _ _

end Sys2Proof.Machine
end

section
/-! PROOFS. Every byte emitted was presented while the sink was ready (R59 to R61, R130). -/

namespace Sys2Proof.Machine

/-! ### What is presented -/

theorem State.presented_hdr {s : State} (hp : s.phase = .hdr) :
    s.presented = some ⟨s.headerByte s.idx.toNat, decide (s.idx.toNat = 15) && decide (s.len = 0)⟩ := by
  simp [State.presented, hp]

theorem State.presented_dck {s : State} (hp : s.phase = .dck) :
    s.presented = some (if s.idx = 0 then ⟨lowByte s.acc, false⟩ else ⟨highByte s.acc, true⟩) := by
  simp [State.presented, hp]

theorem State.presented_data {s : State} {w : Word} {ws : List Word} {b : Byte} (hp : s.phase = .data)
    (hc : s.cmd = w :: ws) (hd : decode w = .ok (.data b)) : s.presented = some ⟨b, false⟩ := by
  have hw := word_of_data hd
  obtain rfl : immByte (immField w) = b := by simpa using (data_of_word hw).symm.trans hd
  simp [State.presented, hp, hc, (isDataWord_iff w).2 hw]

/-! ### The steps that emit -/

theorem headerEmit_presented {s : State} (hp : s.phase = .hdr) :
    ∃ o, s.presented = some o ∧ (headerEmit s).trace = s.trace ++ [o] ∧ (headerEmit s).sink = s.sink.take o := by
  refine ⟨_, State.presented_hdr hp, ?_⟩
  rcases headerEmit_cases s with ⟨hi, e⟩ | ⟨hi, e⟩ | ⟨hi, hl, e⟩ | ⟨hi, hl, e⟩ <;> rw [e]
  · have h15 : s.idx.toNat ≠ 15 := by omega
    simp [h15]
  · simp [hi, Block.headerByte]
  · simp [hi, hl, Block.headerByte]
  · have hlast : ¬s.len = 0#24 := hl
    simp [hi, hlast, Block.headerByte]

theorem trailerEmit_presented {s : State} (hp : s.phase = .dck) :
    ∃ o, s.presented = some o ∧ (trailerEmit s).trace = s.trace ++ [o] ∧ (trailerEmit s).sink = s.sink.take o := by
  refine ⟨_, State.presented_dck hp, ?_⟩
  by_cases hi : s.idx = 0
  · rw [trailerEmit_low hi, if_pos hi]
    exact ⟨rfl, rfl⟩
  · rw [trailerEmit_high hi, if_neg hi]
    exact ⟨rfl, rfl⟩

/-- Settles O27: of the steps that change the trace, each but hardware reset emits what was presented. -/
theorem onlyPresentedBytesAreEmitted : Obligations.OnlyPresentedBytesAreEmitted := by
  intro s t h
  rcases step_emits h with ht | hreset | ⟨hp, ho, rfl⟩ | ⟨hp, ho, rfl⟩ | ⟨w, ws, b, hc, hd, hp, ho, rfl⟩
  · exact .inl ht
  · exact .inr (.inl hreset)
  · obtain ⟨o, hpres, ht, hk⟩ := headerEmit_presented (s := s.scheduled) hp
    exact .inr (.inr ⟨o, ht, hk, ho, hpres, .inl hp⟩)
  · obtain ⟨o, hpres, ht, hk⟩ := trailerEmit_presented (s := s.scheduled) hp
    exact .inr (.inr ⟨o, ht, hk, ho, hpres, .inr (.inl hp)⟩)
  · exact .inr (.inr ⟨⟨b, false⟩, dataEffect_trace b _, dataEffect_sink b _, ho, State.presented_data hp hc hd,
      .inr (.inr ⟨hp, b, rfl, w, by rw [hc]; rfl, hd⟩)⟩)

end Sys2Proof.Machine
end

section
/-! PROOFS. In DONE one whole frame has been sent, in every state that a run reaches (R127, R214). -/

namespace Sys2Proof.Machine

/-- R33 holds in every state that a run reaches. -/
theorem Reachable.inv {s : State} (h : Reachable s) : s.Inv :=
  reachable_induct (fun _ hb _ _ => .of_no_frame (hb ▸ Block.reset_inv) (.inl (hb ▸ Block.reset_phase)))
    (fun _ _ hs ht => State.Inv.step hs ht) h

/-- R33 (a), of the bytes as a list. -/
theorem Block.Inv.nameBytes_ascii {b : Block} (h : b.Inv) : ∀ c ∈ b.nameBytes, c.toNat ≤ 0x7F := by
  intro c hc
  obtain ⟨i, hi, rfl⟩ := List.mem_iff_getElem.1 hc
  rw [Block.nameBytes_getElem]
  exact h.name_ascii i (by simpa using hi)

/-- Settles O43: it is what the invariant says of DONE. -/
theorem doneMeansOneWholeFrameWasSent : Obligations.DoneMeansOneWholeFrameWasSent := by
  intro s hreach hp
  obtain ⟨hblock, hframe⟩ := hreach.inv
  obtain ⟨before, d, htrace, hlen, -, -⟩ := (State.frameInv_done hp).1 hframe
  exact ⟨before, d, hlen, htrace, hblock.nameBytes_ascii⟩

end Sys2Proof.Machine
end

section
/-! PROOFS. `PHASE` changes only along the edges of R120, each with its cause. -/

namespace Sys2Proof.Machine

/-! ### The edges a command makes -/

/-- What a command can do to `PHASE`. -/
theorem exec_phase {i : Instr} {s t : State} (h : exec i s = .next t) :
    t.phase = s.phase ∨ t.phase = .err ∨
    (i = .clr ∧ s.phase ≠ .hdr ∧ s.phase ≠ .dck ∧ t.phase = .idle) ∨
    (i = .start ∧ s.phase = .idle ∧ s.enc = false ∧ s.len.toNat ≤ 65535 ∧ t.phase = .hdr) ∨
    (∃ b, i = .data b ∧ s.phase = .data ∧ s.rem = 1 ∧ t.phase = .dck) := by
  rcases exec_cases h with rfl | ⟨h₁, h₂, hi, rfl⟩ | ⟨-, -, _, -, -, rfl⟩ | ⟨-, -, rfl⟩ | ⟨-, _, -, rfl⟩ |
    ⟨-, c, -, rfl⟩ | ⟨-, _, -, rfl⟩ | ⟨hp, hi, rfl⟩ | ⟨hp, -, b, hi, rfl⟩ | ⟨-, rfl | rfl⟩
  · exact .inl rfl
  · exact .inr (.inr (.inl ⟨hi, h₁, h₂, rfl⟩))
  · exact .inl rfl
  · exact .inl rfl
  · exact .inl rfl
  · rw [namechEffect_eq_loadChar]
    exact .inl (s.loadChar_phase c)
  · exact .inl rfl
  · rcases startEffect_cases s with ⟨-, e⟩ | ⟨-, -, e⟩ | ⟨henc, hlen, e⟩ <;> rw [e]
    · exact .inr (.inl rfl)
    · exact .inr (.inl rfl)
    · exact .inr (.inr (.inr (.inl ⟨hi, hp, henc, hlen, rfl⟩)))
  · by_cases hr : s.rem = 1
    · rw [dataEffect_last b hr]
      exact .inr (.inr (.inr (.inr ⟨b, hi, hp, hr, rfl⟩)))
    · rw [dataEffect_more b hr]
      exact .inl rfl
  · exact .inr (.inl rfl)
  · exact .inr (.inl rfl)

/-- The cause of an edge to ERR, for the word `w` that is accepted (R74, R77, R112). -/
def State.ErrCause (s t : State) (w : Word) : Prop :=
  (t.ill = true ∧ ∀ i, decode w ≠ .ok i) ∨
  (t.seq = true ∧ ∃ i, decode w = .ok i ∧ MisplacedIn i s.phase) ∨
  (s.phase = .idle ∧ w = 0x06000000 ∧ (s.enc = true ∨ 65535 < s.len.toNat))

/-- A word that decodes enters ERR by SEQ, or by a START that finds ENC or BIG: a READ that decodes names a
register. -/
theorem errCause_of_exec {i : Instr} {s u t : State} {w : Word} (hd : decode w = .ok i) (h : exec i u = .next t)
    (hu : u.toBlock = s.toBlock) (hp : s.phase ≠ .err) (ht : t.phase = .err) : s.ErrCause t w := by
  unfold State.ErrCause
  rw [← hu] at hp ⊢
  rcases exec_enters_err h hp ht with ⟨rfl, hidle, hcause⟩ | ⟨hseq, hmis⟩ | ⟨r, rfl, hr⟩
  · exact .inr (.inr ⟨hidle, word_of_start hd, hcause⟩)
  · exact .inr (.inl ⟨hseq, i, hd, hmis⟩)
  · have hreg : r.toNat ≤ 6 := (registerExists_iff r).1 (decode_ok.1 hd).2.1
    omega

/-- The phases in which words are accepted (R62). -/
theorem Phase.accepting_of_not_sending {p : Phase} (h₁ : p ≠ .hdr) (h₂ : p ≠ .dck) :
    p ∈ [Phase.idle, .data, .done, .err] := by
  cases p <;> simp_all

/-! ### The edges a step makes -/

/-- The edges of R120, one by one; every other step leaves `PHASE` as it is. -/
theorem step_phase {s t : State} (h : step s = .next t) :
    t.phase = s.phase ∨
    (t.phase = .hdr ∧ s.phase = .idle ∧ s.enc = false ∧ s.len.toNat ≤ 65535 ∧ s.cmd = 0x06000000 :: t.cmd) ∨
    (t.phase = .data ∧ s.phase = .hdr ∧ s.idx = 15 ∧ s.len ≠ 0) ∨
    (t.phase = .dck ∧ s.phase = .data ∧ s.rem = 1 ∧ ∃ w, s.cmd = w :: t.cmd ∧ w &&& 0xFFFFFF00 = 0x07000000) ∨
    (t.phase = .done ∧ ((s.phase = .hdr ∧ s.idx = 15 ∧ s.len = 0) ∨ (s.phase = .dck ∧ s.idx = 1))) ∨
    (t.phase = .err ∧ s.phase ≠ .hdr ∧ s.phase ≠ .dck ∧
      ∃ w, s.cmd = w :: t.cmd ∧ (s.phase ≠ .err → s.ErrCause t w)) ∨
    (t.phase = .idle ∧ (s.schedule.head? = some .hardReset ∨
      (s.phase ≠ .hdr ∧ s.phase ≠ .dck ∧ s.cmd = 0x01000000 :: t.cmd))) := by
  rcases step_inv h with rfl | ⟨hs, rfl⟩ | ⟨m, rfl⟩ | ⟨k, -, rfl⟩ | ⟨-, hp, -, rfl⟩ | ⟨hr, hp, -, rfl⟩ |
    ⟨-, w, ws, hc, h₁, h₂, -, ⟨i, hd, he⟩ | rfl | ⟨hn, hp, rfl⟩⟩
  · exact .inl rfl
  · exact .inr (.inr (.inr (.inr (.inr (.inr ⟨rfl, .inl hs⟩)))))
  · exact .inl (congrArg Block.phase (hostMove_toBlock m _))
  · exact .inl rfl
  · rcases headerEmit_cases s.scheduled with ⟨-, e⟩ | ⟨-, e⟩ | ⟨hi, hl, e⟩ | ⟨hi, hl, e⟩ <;> rw [e]
    · exact .inl rfl
    · exact .inl rfl
    · exact .inr (.inr (.inr (.inr (.inl ⟨rfl, .inl ⟨hp, hi, hl⟩⟩))))
    · exact .inr (.inr (.inl ⟨rfl, hp, hi, hl⟩))
  · by_cases hi : s.scheduled.idx = 0
    · rw [trailerEmit_low hi]
      exact .inl rfl
    · obtain ⟨-, hidx, -, -⟩ := s.inRange_iff.1 hr
      rw [trailerEmit_high hi]
      exact .inr (.inr (.inr (.inr (.inl ⟨rfl, .inr ⟨hp, idx_eq_1 hi (hidx hp)⟩⟩))))
  · have hcmd : s.cmd = w :: t.cmd := by rw [exec_cmd he, hc]; rfl
    rcases exec_phase he with ht | ht | ⟨rfl, -, -, ht⟩ | ⟨rfl, hp, henc, hlen, ht⟩ | ⟨b, rfl, hp, hrem, ht⟩
    · exact .inl ht
    · have hcause : s.phase ≠ .err → s.ErrCause t w := fun hp => errCause_of_exec hd he rfl hp ht
      exact .inr (.inr (.inr (.inr (.inr (.inl ⟨ht, h₁, h₂, w, hcmd, hcause⟩)))))
    · exact .inr (.inr (.inr (.inr (.inr (.inr ⟨ht, .inr ⟨h₁, h₂, word_of_clr hd ▸ hcmd⟩⟩)))))
    · exact .inr (.inl ⟨ht, hp, henc, hlen, word_of_start hd ▸ hcmd⟩)
    · exact .inr (.inr (.inr (.inl ⟨ht, hp, hrem, w, hcmd, word_of_data hd⟩)))
  · exact .inl rfl
  · exact .inr (.inr (.inr (.inr (.inr (.inl ⟨rfl, h₁, h₂, w, hc, fun _ => .inl ⟨rfl, hn⟩⟩)))))

/-- Settles O26: each edge leads to one phase, so that its cause answers that phase's clause alone. -/
theorem phaseChangesOnlyAlongTheGraph : Obligations.PhaseChangesOnlyAlongTheGraph := by
  intro s t h hne
  rcases step_phase h with ht | ⟨ht, hcause⟩ | ⟨ht, hcause⟩ | ⟨ht, hcause⟩ | ⟨ht, hcause⟩ |
    ⟨ht, h₁, h₂, w, hcmd, hcause⟩ | ⟨ht, hcause⟩
  · exact absurd ht hne
  all_goals rw [ht] at hne ⊢
  · exact ⟨fun _ => hcause, nofun, nofun, nofun, nofun, nofun⟩
  · exact ⟨nofun, fun _ => hcause, nofun, nofun, nofun, nofun⟩
  · exact ⟨nofun, nofun, fun _ => hcause, nofun, nofun, nofun⟩
  · exact ⟨nofun, nofun, nofun, fun _ => hcause, nofun, nofun⟩
  · have hp := Phase.accepting_of_not_sending h₁ h₂
    exact ⟨nofun, nofun, nofun, nofun, fun _ => ⟨by simpa [hne.symm] using hp, w, hcmd, hcause hne.symm⟩, nofun⟩
  · refine ⟨nofun, nofun, nofun, nofun, nofun, fun _ => hcause.imp id ?_⟩
    rintro ⟨h₁, h₂, hcmd⟩
    have hp := Phase.accepting_of_not_sending h₁ h₂
    exact ⟨by simpa [hne.symm] using hp, hcmd⟩

end Sys2Proof.Machine
end

section
/-! PROOFS. The block's own moves one after another, from the header of a frame to its last byte (R121 to R128). -/

namespace Sys2Proof.Machine

/-! ### Runs of the block's own moves -/

/-- The next `n` moves are the block's wherever one of its steps is enabled: they are scheduled, or nothing is. -/
def State.BlockMovesNext (s : State) (n : Nat) : Prop := ∀ m ∈ s.schedule.take n, m = .block

/-- `s` after `n` moves of the block that leave the items `b` and the words `ws` and send `out`. -/
def State.moved (s : State) (n : Nat) (b : Block) (ws : List Word) (out : List OutByte) : State :=
  { s with toBlock := b, cmd := ws, trace := s.trace ++ out, sink := out.foldl Sink.take s.sink,
           schedule := s.schedule.drop n }

theorem State.blockMovesNext_of_nil {s : State} (hs : s.schedule = []) (n : Nat) : s.BlockMovesNext n := by
  simp [State.BlockMovesNext, hs]

theorem State.moved_moved (s : State) (m n : Nat) (b b' : Block) (ws ws' : List Word) (out out' : List OutByte) :
    (s.moved m b ws out).moved n b' ws' out' = s.moved (m + n) b' ws' (out ++ out') := by
  simp [State.moved]

theorem State.BlockMovesNext.first {s : State} {m n : Nat} (h : s.BlockMovesNext (m + n)) : s.BlockMovesNext m :=
  fun x hx => h x (List.take_subset_take_left _ (Nat.le_add_right m n) hx)

theorem State.BlockMovesNext.rest {s : State} {m n : Nat} (h : s.BlockMovesNext (m + n)) (b : Block) (ws : List Word)
    (out : List OutByte) : (s.moved m b ws out).BlockMovesNext n := fun x hx => h x (by
  rw [List.take_add]
  exact List.mem_append_right _ hx)

/-- Bytes that do not end the frame leave the sink as ready as it was (R61, R161). -/
theorem State.moved_outReady (s : State) (n : Nat) (b : Block) (ws : List Word) (bs : List Byte) :
    (s.moved n b ws (markNone bs)).outReady = s.outReady := by
  have hlast : (markNone bs).any (·.last) = false := by simp [markNone]
  simp [State.outReady, State.moved, Sink.take_foldl, Sink.outReady, hlast]

/-- An enabled step of the block, scheduled or by default. -/
theorem step_block_next {s : State} (hs : s.BlockMovesNext 1) (he : s.blockEnabled = true) :
    step s = blockMove s.scheduled := by
  cases hsch : s.schedule with
  | nil => rw [step_default_block hsch he, State.scheduled_of_nil hsch]
  | cons m ms =>
    obtain rfl : m = .block := hs m (by simp [hsch])
    rw [step_scheduled_block hsch, State.scheduled, hsch]
    rfl

/-- With the items `b` and the words `ws` presented to a ready sink, the block's next `n` moves leave `b'` and `ws'`
and send `out`. -/
def Block.Sends (b : Block) (ws : List Word) (n : Nat) (b' : Block) (ws' : List Word) (out : List OutByte) : Prop :=
  ∀ s : State, s.toBlock = b → s.cmd = ws → s.outReady = true → s.BlockMovesNext n →
    runs n s = .next (s.moved n b' ws' out)

section
variable {b b' b'' : Block} {ws ws' ws'' : List Word}

theorem Block.sends_zero (b : Block) (ws : List Word) : b.Sends ws 0 b ws [] := by
  rintro s rfl rfl - -
  rw [runs_zero, State.moved, List.append_nil]
  rfl

theorem Block.Sends.trans {m n : Nat} {bs : List Byte} {out : List OutByte} (h : b.Sends ws m b' ws' (markNone bs))
    (h' : b'.Sends ws' n b'' ws'' out) : b.Sends ws (m + n) b'' ws'' (markNone bs ++ out) := by
  intro s hb hc ho hs
  rw [runs_add (h s hb hc ho hs.first), h' _ rfl rfl ((s.moved_outReady m _ _ bs).trans ho) (hs.rest _ _ _),
    State.moved_moved]

/-- One enabled step of the block that emits one byte. -/
theorem Block.sends_one {o : OutByte} (he : ∀ s : State, s.toBlock = b → s.cmd = ws → s.outReady = true →
      s.blockEnabled = true ∧ blockMove s = .next { s.emit o.byte o.last with toBlock := b', cmd := ws' }) :
    b.Sends ws 1 b' ws' [o] := by
  intro s hb hc ho hs
  rw [runs_one (step_block_next hs (he s hb hc ho).1 ▸ (he s.scheduled hb hc ho).2), State.moved, List.drop_one]
  rfl

/-! ### One emit step, one DATA -/

theorem Block.sends_headerEmit {o : OutByte} (hr : b.inRange = true) (hp : b.phase = .hdr)
    (h : ∀ s : State, s.toBlock = b → headerEmit s = { s.emit o.byte o.last with toBlock := b' }) (ws : List Word) :
    b.Sends ws 1 b' ws [o] := by
  refine Block.sends_one ?_
  rintro s rfl rfl ho
  exact ⟨(State.blockEnabled_emit (.inl hp)).trans ho, (blockMove_header hr hp ho).trans (congrArg _ (h s rfl))⟩

theorem Block.sends_trailerEmit {o : OutByte} (hr : b.inRange = true) (hp : b.phase = .dck)
    (h : ∀ s : State, s.toBlock = b → trailerEmit s = { s.emit o.byte o.last with toBlock := b' }) (ws : List Word) :
    b.Sends ws 1 b' ws [o] := by
  refine Block.sends_one ?_
  rintro s rfl rfl ho
  exact ⟨(State.blockEnabled_emit (.inr hp)).trans ho, (blockMove_trailer hr hp ho).trans (congrArg _ (h s rfl))⟩

theorem Block.sends_data {x : Byte} (hr : b.inRange = true) (hp : b.phase = .data)
    (h : ∀ s : State, s.toBlock = b → dataEffect x s = { s.emit x false with toBlock := b' }) (ws : List Word) :
    b.Sends (encode (.data x) :: ws) 1 b' ws [⟨x, false⟩] := by
  refine Block.sends_one ?_
  rintro s rfl hc ho
  have hd := decodeOfEncodeIsTheCommand (.data x) rfl
  have hready : s.cmdReady (encode (.data x)) = true := (State.cmdReady_data hp (word_of_data hd)).trans ho
  have h₁ : s.phase ≠ .hdr := by simp [hp]
  have h₂ : s.phase ≠ .dck := by simp [hp]
  refine ⟨(State.blockEnabled_cmd h₁ h₂ hc).trans hready, ?_⟩
  rw [blockMove_command hc hd hr h₁ h₂ hready, exec_data, runCommand_payload_ready (s := { s with cmd := ws }) hp ho,
    h { s with cmd := ws } rfl]
  rfl

end

/-! ### The header (R121, R122, R126) -/

section
variable {b : Block} (hr : b.inRange = true) (hp : b.phase = .hdr) (ws : List Word)
include hr hp

theorem Block.sends_covered_byte (hi : b.idx.toNat ≤ 13) :
    b.Sends ws 1 { b with acc := add8 b.acc (b.headerByte b.idx.toNat), idx := b.idx + 1 } ws
      [⟨b.headerByte b.idx.toNat, false⟩] :=
  Block.sends_headerEmit hr hp (by rintro s rfl; exact headerEmit_covered hi) ws

theorem Block.sends_sum_low (hi : b.idx = 14) :
    b.Sends ws 1 { b with idx := 15 } ws [⟨lowByte b.acc, false⟩] :=
  Block.sends_headerEmit hr hp (by rintro s rfl; exact headerEmit_low hi) ws

theorem Block.sends_sum_high_delete (hi : b.idx = 15) (hl : b.len = 0) :
    b.Sends ws 1 { b with idx := 0, phase := .done } ws [⟨highByte b.acc, true⟩] :=
  Block.sends_headerEmit hr hp (by rintro s rfl; exact headerEmit_delete hi hl) ws

theorem Block.sends_sum_high_upload (hi : b.idx = 15) (hl : b.len ≠ 0) :
    b.Sends ws 1 { b with idx := 0, acc := 0, rem := b.size, phase := .data } ws [⟨highByte b.acc, false⟩] :=
  Block.sends_headerEmit hr hp (by rintro s rfl; exact headerEmit_upload hi hl) ws

end

/-- The items after `n` of the fourteen covered bytes have been sent. -/
def Block.afterCovered (b : Block) (n : Nat) : Block :=
  { b with acc := checksum (b.covered.take n), idx := BitVec.ofNat 4 n }

theorem Block.afterCovered_zero {b : Block} (hi : b.idx = 0) (ha : b.acc = 0) : b.afterCovered 0 = b := by
  rw [Block.afterCovered, List.take_zero, checksum_nil, ← ha, show BitVec.ofNat 4 0 = b.idx from hi.symm]

theorem Block.afterCovered_14 (b : Block) : b.afterCovered 14 = { b with acc := checksum b.covered, idx := 14 } := by
  rw [Block.afterCovered, Block.covered_take_14]
  rfl

theorem Block.afterCovered_idx (b : Block) {n : Nat} (hn : n ≤ 14) : (b.afterCovered n).idx.toNat = n :=
  Nat.mod_eq_of_lt (by omega)

/-- A header byte below 14 is read from `LEN` and `NAME` alone (R121). -/
theorem Block.afterCovered_headerByte (b : Block) {n : Nat} (hn : n < 14) :
    (b.afterCovered n).headerByte n = b.headerByte n :=
  ((b.afterCovered n).covered_getElem n hn).symm.trans (b.covered_getElem n hn)

/-- One more of the covered bytes, as the header emit step adds and counts it (R122). -/
theorem Block.afterCovered_succ (b : Block) {n : Nat} (hn : n < 14) :
    { b.afterCovered n with acc := add8 (b.afterCovered n).acc (b.headerByte n), idx := (b.afterCovered n).idx + 1 } =
      b.afterCovered (n + 1) := by
  have hidx : BitVec.ofNat 4 (n + 1) = BitVec.ofNat 4 n + 1 := BitVec.eq_of_toNat_eq (by simp)
  rw [Block.afterCovered, Block.afterCovered, Block.covered_take_succ b n hn, checksum_snoc, hidx]

/-- In HDR the rules start whatever `IDX` and `ACC` are (W6, W7). -/
theorem Block.inRange_hdr {b : Block} (hr : b.inRange = true) (hp : b.phase = .hdr) (a : Half) (i : BitVec 4) :
    ({ b with acc := a, idx := i } : Block).inRange = true := by
  obtain ⟨hncnt, -, hrem, -⟩ := b.inRange_iff.1 hr
  exact (Block.inRange_iff _).2 ⟨hncnt, by simp [hp], hrem, by simp [hp]⟩

section
variable {b : Block} (hr : b.inRange = true) (hp : b.phase = .hdr) (hi : b.idx = 0) (ha : b.acc = 0) (ws : List Word)
include hr hp hi ha

/-- The first `n` of the covered bytes go out, and into `ACC`. -/
theorem Block.sends_covered {n : Nat} (hn : n ≤ 14) :
    b.Sends ws n (b.afterCovered n) ws (markNone (b.covered.take n)) := by
  induction n with
  | zero =>
    rw [Block.afterCovered_zero hi ha, List.take_zero]
    exact b.sends_zero ws
  | succ n ih =>
    have hidx := b.afterCovered_idx (n := n) (by omega)
    have hnext := Block.sends_covered_byte (b := b.afterCovered n) (Block.inRange_hdr hr hp _ _) hp ws (by omega)
    rw [hidx, b.afterCovered_headerByte (by omega), b.afterCovered_succ (by omega)] at hnext
    rw [Block.covered_take_succ _ n (by omega), markNone_append]
    exact (ih (by omega)).trans hnext

/-- The low byte of the sum follows the covered bytes. -/
theorem Block.sends_header_but_last :
    b.Sends ws 15 { b with acc := checksum b.covered, idx := 15 } ws (markNone (b.frameHeader.take 15)) := by
  have h14 := b.sends_covered hr hp hi ha ws le_rfl
  rw [Block.covered_take_14, Block.afterCovered_14] at h14
  rw [Block.frameHeader_take_15, markNone_append]
  exact h14.trans (Block.sends_sum_low (b := { b with acc := checksum b.covered, idx := 14 })
    (Block.inRange_hdr hr hp _ _) hp ws rfl)

/-- With no payload declared the sixteen header bytes are the frame, and end it (R82, R126). -/
theorem Block.sends_header_delete (hl : b.len = 0) :
    b.Sends ws 16 { b with acc := checksum b.covered, idx := 0, phase := .done } ws (markLast b.frameHeader) := by
  rw [Block.frameHeader_snoc, markLast_snoc]
  exact (b.sends_header_but_last hr hp hi ha ws).trans
    (Block.sends_sum_high_delete (b := { b with acc := checksum b.covered, idx := 15 })
      (Block.inRange_hdr hr hp _ _) hp ws rfl hl)

/-- With a payload declared the sixteen header bytes go out and the payload is awaited (R126). -/
theorem Block.sends_header_upload (hl : b.len ≠ 0) :
    b.Sends ws 16 { b with acc := 0, idx := 0, rem := b.size, phase := .data } ws (markNone b.frameHeader) := by
  rw [Block.frameHeader_snoc, markNone_append]
  exact (b.sends_header_but_last hr hp hi ha ws).trans
    (Block.sends_sum_high_upload (b := { b with acc := checksum b.covered, idx := 15 })
      (Block.inRange_hdr hr hp _ _) hp ws rfl hl)

end

/-! ### The payload (R123) -/

section
variable {b : Block} (hr : b.inRange = true) (hp : b.phase = .data) (x : Byte) (ws : List Word)
include hr hp

theorem Block.sends_data_last (h1 : b.rem = 1) :
    b.Sends (encode (.data x) :: ws) 1 { b with acc := add8 b.acc x, rem := 0, phase := .dck } ws [⟨x, false⟩] :=
  Block.sends_data hr hp (by rintro s rfl; rw [dataEffect_last x h1, h1]; rfl) ws

theorem Block.sends_data_more (h1 : b.rem ≠ 1) :
    b.Sends (encode (.data x) :: ws) 1 { b with acc := add8 b.acc x, rem := b.rem - 1 } ws [⟨x, false⟩] :=
  Block.sends_data hr hp (by rintro s rfl; exact dataEffect_more x h1) ws

end

/-- In DATA the payload goes out byte by byte, and into `ACC`; the last byte that `REM` awaits leads to DCK. -/
theorem Block.sends_payload (d : List Byte) (hd : d ≠ []) {b : Block} (hr : b.inRange = true) (hp : b.phase = .data)
    (hrem : b.rem.toNat = d.length) (ws : List Word) :
    b.Sends ((pseudoPayload d).map encode ++ ws) d.length
      { b with acc := d.foldl add8 b.acc, rem := 0, phase := .dck } ws (markNone d) := by
  induction d generalizing b with
  | nil => exact absurd rfl hd
  | cons x d ih =>
    rw [List.length_cons] at hrem
    by_cases hnil : d = []
    · subst hnil
      exact Block.sends_data_last hr hp x ws (BitVec.eq_of_toNat_eq hrem)
    · have hpos := List.length_pos_iff.2 hnil
      have hcount := rem_pred_toNat (r := b.rem) (by omega)
      obtain ⟨hncnt, -, hle, -⟩ := b.inRange_iff.1 hr
      have hmore : b.rem ≠ 1 := fun e => by
        rw [e, show (1 : Half).toNat = 1 from rfl] at hrem
        omega
      have hr' : ({ b with acc := add8 b.acc x, rem := b.rem - 1 } : Block).inRange = true := by
        refine (Block.inRange_iff _).2 ⟨hncnt, by simp [hp], ?_, fun _ => ?_⟩
        · exact hcount ▸ (Nat.sub_le _ _).trans hle
        · rw [hcount]
          omega
      rw [List.length_cons, Nat.add_comm]
      exact (Block.sends_data_more hr hp x _ hmore).trans (bs := [x]) (ih hnil hr' hp (by rw [hcount]; omega))

/-! ### The trailer (R124) -/

section
variable {b : Block} (hr : b.inRange = true) (hp : b.phase = .dck) (ws : List Word)
include hr hp

theorem Block.sends_trailer_low (hi : b.idx = 0) : b.Sends ws 1 { b with idx := 1 } ws [⟨lowByte b.acc, false⟩] :=
  Block.sends_trailerEmit hr hp (by rintro s rfl; exact trailerEmit_low hi) ws

theorem Block.sends_trailer_high (hi : b.idx ≠ 0) :
    b.Sends ws 1 { b with idx := 0, phase := .done } ws [⟨highByte b.acc, true⟩] :=
  Block.sends_trailerEmit hr hp (by rintro s rfl; exact trailerEmit_high hi) ws

/-- In DCK the two bytes of `ACC` go out, and the second ends the frame. -/
theorem Block.sends_trailer (hi : b.idx = 0) :
    b.Sends ws 2 { b with idx := 0, phase := .done } ws (markLast (le16 b.acc)) := by
  obtain ⟨hncnt, -, hrem, -⟩ := b.inRange_iff.1 hr
  exact (Block.sends_trailer_low hr hp ws hi).trans (bs := [lowByte b.acc])
    (Block.sends_trailer_high (b := { b with idx := 1 }) ((Block.inRange_iff _).2 ⟨hncnt, by simp, hrem, by simp [hp]⟩)
      hp ws (by simp))

end

/-! ### The frame (R83, R127) -/

theorem markLast_append (s : List Byte) {t : List Byte} (ht : t ≠ []) :
    markLast (s ++ t) = markNone s ++ markLast t := by
  obtain ⟨t, x, rfl⟩ := (List.eq_nil_or_concat' t).resolve_left ht
  rw [← List.append_assoc, markLast_snoc, markLast_snoc, markNone_append, List.append_assoc]

/-- The items after the frame of the payload `d` has been sent: `ACC` keeps the last sum that went out. -/
def Block.afterFrame (b : Block) (d : List Byte) : Block :=
  { b with acc := if d = [] then checksum b.covered else checksum d, rem := 0, phase := .done, idx := 0 }

/-- From the beginning of the header, with the payload presented, the block's moves send the frame, one byte each. -/
theorem Block.sends_frame {b : Block} (hr : b.inRange = true) (hp : b.phase = .hdr) (hi : b.idx = 0) (ha : b.acc = 0)
    (hrem : b.rem = 0) {d : List Byte} (hd : d.length = b.len.toNat) (hmax : d.length ≤ 65535) (ws : List Word) :
    b.Sends ((pseudoPayload d).map encode ++ ws) (frame b.nameBytes d).length (b.afterFrame d) ws
      (markLast (frame b.nameBytes d)) := by
  rw [frame_length b.nameBytes_length, b.frame_eq d hd, Block.afterFrame, ← hrem]
  by_cases hnil : d = []
  · subst hnil
    exact Block.sends_header_delete hr hp hi ha ws (BitVec.eq_of_toNat_eq hd.symm)
  · have hpos := List.length_pos_iff.2 hnil
    have hl : b.len ≠ 0 := fun e => by rw [e] at hd; exact hpos.ne' hd
    have hsize : b.size.toNat = d.length := by
      rw [Block.size_toNat]
      omega
    obtain ⟨hncnt, -, -, -⟩ := b.inRange_iff.1 hr
    have hheader := Block.sends_header_upload hr hp hi ha ((pseudoPayload d).map encode ++ ws) hl
    have hpayload := Block.sends_payload d hnil (b := { b with acc := 0, idx := 0, rem := b.size, phase := .data })
      ((Block.inRange_iff _).2 ⟨hncnt, by simp, (hsize.trans hd).le, fun _ => hsize ▸ hpos⟩) rfl hsize ws
    have htrailer := Block.sends_trailer (b := { b with acc := checksum d, idx := 0, rem := 0, phase := .dck })
      ((Block.inRange_iff _).2 ⟨hncnt, by simp, by simp, by simp⟩) rfl ws rfl
    rw [foldl_add8_zero] at hpayload
    have hsent := hheader.trans hpayload
    rw [← markNone_append] at hsent
    rw [if_neg hnil, if_neg hnil, if_neg hpos.ne', markLast_append _ (by simp [le16]), hrem,
      show 18 + d.length = 16 + d.length + 2 by omega]
    exact hsent.trans htrailer

/-! ### START and the header (R126) -/

/-- The items as START leaves them where it begins the header (R112). -/
def Block.started (b : Block) : Block := { b with acc := 0, phase := .hdr }

theorem Block.started_inRange {b : Block} (hr : b.inRange = true) : b.started.inRange = true := by
  obtain ⟨hncnt, -, hrem, -⟩ := b.inRange_iff.1 hr
  exact (Block.inRange_iff _).2 ⟨hncnt, by simp [Block.started], hrem, by simp [Block.started]⟩

section
variable {s : State} {ws : List Word} (hp : s.phase = .idle) (hr : s.inRange = true) (he : s.enc = false)
  (hl : s.len.toNat ≤ 65535) (hc : s.cmd = encode .start :: ws)
include hp hr he hl hc

/-- START in IDLE, with a name that is ASCII and a length that fits, is one move of the block. -/
theorem runs_start (hs : s.BlockMovesNext 1) : runs 1 s = .next (s.moved 1 s.started ws []) := by
  have h₁ : s.phase ≠ .hdr := by simp [hp]
  have h₂ : s.phase ≠ .dck := by simp [hp]
  have hready : s.cmdReady (encode .start) = true := State.cmdReady_of_not_data h₁ h₂ (by simp [hp])
  refine runs_one ?_
  rw [step_block_next hs ((State.blockEnabled_cmd h₁ h₂ hc).trans hready),
    blockMove_command (s := s.scheduled) hc (decodeOfEncodeIsTheCommand .start rfl) hr h₁ h₂ hready,
    exec_start_idle (s := { s.scheduled with cmd := ws }) hp,
    startEffect_begins (s := { s.scheduled with cmd := ws }) he hl, State.moved, List.drop_one, List.append_nil]
  rfl

/-- START, and with a ready sink what follows it. -/
theorem runs_start_sends (ho : s.outReady = true) {n : Nat} {b : Block} {ws' : List Word} {out : List OutByte}
    (hs : s.BlockMovesNext (1 + n)) (h : s.started.Sends ws n b ws' out) :
    runs (1 + n) s = .next (s.moved (1 + n) b ws' out) := by
  have hready : (s.moved 1 s.started ws []).outReady = true := (s.moved_outReady 1 _ ws []).trans ho
  rw [runs_add (runs_start hp hr he hl hc hs.first), h _ rfl rfl hready (hs.rest _ _ _), State.moved_moved,
    List.nil_append]

end

theorem le16_eq (v : Half) : le16 v = [BitVec.ofNat 8 (v.toNat % 256), BitVec.ofNat 8 (v.toNat / 256)] := by
  have hlow : lowByte v = BitVec.ofNat 8 (v.toNat % 256) := BitVec.eq_of_toNat_eq (by simp)
  have hhigh : highByte v = BitVec.ofNat 8 (v.toNat / 256) := BitVec.eq_of_toNat_eq (by
    have := v.isLt
    rw [highByte_toNat, BitVec.toNat_ofNat]
    omega)
  rw [le16, hlow, hhigh]

@[simp] theorem markNone_bytes (s : List Byte) : (markNone s).map (·.byte) = s := by
  simp [markNone, Function.comp_def]

/-- The sum of the covered bytes does not wrap (R106). -/
theorem Block.checksum_covered_toNat (b : Block) : (checksum b.covered).toNat = byteSum b.covered := by
  have hsum : byteSum b.covered ≤ 3570 := (headerChecksumNeverWraps.1 b.size b.nameBytes b.nameBytes_length).1
  rw [checksum_toNat, Nat.mod_eq_of_lt (by omega)]

/-- Settles O25: START, and then the header, whose end depends on `LEN`. -/
theorem startSendsExactlyTheHeader : Obligations.StartSendsExactlyTheHeader := by
  intro s ws ms hp he hl hr hi ho hs hc covered sum
  have hnext : s.BlockMovesNext (1 + 16) := fun m hm => by
    rw [hs, List.take_left' (List.length_replicate ..)] at hm
    exact List.eq_of_mem_replicate hm
  have hrest : s.schedule.drop (1 + 16) = ms := by
    rw [hs]
    exact List.drop_left' (List.length_replicate ..)
  have hsize : s.size.toNat = s.len.toNat := by
    rw [Block.size_toNat]
    omega
  have hcovered : covered = s.covered := by
    rw [Block.covered, le16_eq, hsize]
    rfl
  have hsum : (checksum s.covered).toNat = sum := s.checksum_covered_toNat.trans (congrArg byteSum hcovered.symm)
  have hheader : s.frameHeader = covered ++ [BitVec.ofNat 8 (sum % 256), BitVec.ofNat 8 (sum / 256)] := by
    rw [hcovered, ← hsum, ← le16_eq]
    rfl
  have hb := Block.started_inRange hr
  have hrun : ∀ {b out}, s.started.Sends ws 16 b ws out → runs (1 + 16) s = .next (s.moved (1 + 16) b ws out) :=
    runs_start_sends hp hr he hl hc ho hnext
  by_cases h0 : s.len = 0
  · refine ⟨_, hrun (Block.sends_header_delete hb rfl hi rfl ws h0), rfl, hrest, rfl, ?_, fun _ => ⟨rfl, hsum⟩,
      fun h => absurd h0 h⟩
    rw [State.moved, List.map_append, markLast_bytes, List.append_assoc, ← hheader]
    rfl
  · refine ⟨_, hrun (Block.sends_header_upload hb rfl hi rfl ws h0), rfl, hrest, rfl, ?_, fun h => absurd h h0,
      fun _ => ⟨rfl, rfl, hsize⟩⟩
    rw [State.moved, List.map_append, markNone_bytes, List.append_assoc, ← hheader]
    rfl

end Sys2Proof.Machine
end

section
/-! PROOFS. An upload from its first word to its end (R85, R112, R127, R181), with a sink that goes on by itself
(R213, R216), and on to the line (R158 to R161). -/

namespace Sys2Proof.Machine

/-! ### A fair sink gets ready -/

/-- A bound on the moves a fair sink has yet to make before it is ready, while a byte is presented to it: from a sink
whose frame is ended they are the way to its close, a restart, and the three moves of a fresh sink. -/
def Sink.wait (k : Sink) : Nat :=
  match k.state with
  | .writing => if k.ended then 6 else if k.ready then 0 else 1
  | .opened => if k.ended then 7 else 2
  | .idle => if k.ended then 8 else 3
  | .closed => 4
  | .settling => 5

/-- `send` has not failed: a fair sink does nothing more of itself after a failure (R159, R206). -/
def Sink.NotFailed (k : Sink) : Prop := k.state = .closed → k.result = some .ok

/-- No byte has been taken since the sink was made, and none has left. -/
def Sink.Unused (k : Sink) : Prop := k.count = 0 ∧ k.uart = [] ∧ k.line = []

/-- A sink that has taken a frame, after the settle delay and the release: every byte is on the line (R156, R157,
R160). -/
def Sink.finish (k : Sink) : Sink := ({ k with line := k.line ++ k.uart } : Sink).release .ok

theorem Sink.move_flush {k : Sink} (hs : k.state = .writing) (he : k.ended = true) :
    k.move (.flush true) = { k with state := .settling, ready := false } := if_pos ⟨hs, he⟩

theorem Sink.move_settleDone {k : Sink} (hs : k.state = .settling) : k.move .settleDone = k.finish := if_pos hs

theorem Sink.fairMove_ended {k : Sink} (hs : k.state = .writing) (he : k.ended = true) (wanted : Bool) :
    k.fairMove wanted = some (.flush true) := by simp [Sink.fairMove, hs, he]

theorem Sink.fairMove_settling {k : Sink} (hs : k.state = .settling) (wanted : Bool) :
    k.fairMove wanted = some .settleDone := by simp [Sink.fairMove, hs]

/-- While a byte is presented, a sink that is fair and not ready comes one move nearer to being ready. -/
theorem Sink.fairMove_approaches {k : Sink} (ho : k.outReady = false) (hk : k.NotFailed) :
    ∃ m, k.fairMove true = some m ∧ (k.move m).wait < k.wait ∧ (k.move m).NotFailed ∧
      (k.Unused → (k.move m).Unused) := by
  cases hs : k.state with
  | idle =>
    refine ⟨.openSink Config.sinkConfig true, by simp [Sink.fairMove, hs], ?_⟩
    rw [Sink.move, Sink.openSink_idle hs]
    refine ⟨?_, nofun, id⟩
    cases he : k.ended <;> simp [Sink.wait, hs, he]
  | opened =>
    refine ⟨.beginWrite, by simp [Sink.fairMove, hs], ?_⟩
    rw [Sink.move, Sink.beginWrite, if_pos hs]
    refine ⟨?_, nofun, id⟩
    cases he : k.ended with
    | true => simp [Sink.wait, hs, he]
    | false => cases k.ready <;> simp [Sink.wait, hs, he]
  | writing =>
    cases he : k.ended with
    | true =>
      refine ⟨.flush true, Sink.fairMove_ended hs he true, ?_⟩
      rw [Sink.move_flush hs he]
      exact ⟨by simp [Sink.wait, hs, he], nofun, id⟩
    | false =>
      have hr : k.ready = false := by simpa [Sink.outReady, hs, he] using ho
      refine ⟨.setReady true, by simp [Sink.fairMove, hs, he, hr], ?_⟩
      rw [Sink.move, Sink.setReady, if_pos hs]
      exact ⟨by simp [Sink.wait, hs, he, hr], by simp [Sink.NotFailed, hs], id⟩
  | settling =>
    refine ⟨.settleDone, Sink.fairMove_settling hs true, ?_⟩
    rw [Sink.move_settleDone hs]
    refine ⟨by simp [Sink.wait, Sink.finish, Sink.release, hs], fun _ => rfl, ?_⟩
    rintro ⟨hcount, huart, hline⟩
    exact ⟨hcount, rfl, by simp [Sink.finish, Sink.release, huart, hline]⟩
  | closed =>
    refine ⟨.restart, by simp [Sink.fairMove, hs, hk hs], ?_⟩
    refine ⟨by simp [Sink.wait, Sink.move, Sink.restart, Sink.fresh, hs], nofun, ?_⟩
    rintro ⟨-, -, hline⟩
    exact ⟨rfl, rfl, hline⟩

/-- With nothing scheduled and no step of the block enabled, the step is the fair sink's move (R213). -/
theorem step_fairMove {s : State} {m : SinkMove} (hs : s.schedule = []) (hf : s.sinkFair = true)
    (he : s.blockEnabled = false) (hm : s.sink.fairMove s.presented.isSome = some m) :
    step s = .next { s with sink := s.sink.move m } := by
  simp [step, hs, defaultMove, he, hf, hm]

/-- In HDR, where a byte is presented, a fair sink gets ready, and the block waits for it (R61, R206). -/
theorem runs_until_ready {s : State} (hp : s.phase = .hdr) (hs : s.schedule = []) (hf : s.sinkFair = true)
    (hk : s.sink.NotFailed) :
    ∃ n k, runs n s = .next { s with sink := k } ∧ k.outReady = true ∧ (s.sink.Unused → k.Unused) := by
  induction hw : s.sink.wait using Nat.strong_induction_on generalizing s with
  | _ w ih =>
    subst hw
    cases ho : s.sink.outReady with
    | true => exact ⟨0, s.sink, rfl, ho, id⟩
    | false =>
      obtain ⟨m, hm, hlt, hk', hunused⟩ := Sink.fairMove_approaches ho hk
      have hstep := step_fairMove hs hf ((State.blockEnabled_emit (.inl hp)).trans ho)
        (by rw [State.presented_hdr hp]; exact hm)
      obtain ⟨n, k, hrun, hready, hk''⟩ := ih _ hlt (s := { s with sink := s.sink.move m }) hp hs hf hk' rfl
      exact ⟨n + 1, k, (runs_succ hstep n).trans hrun, hready, hk'' ∘ hunused⟩

/-! ### Loading: CLR, the name, the length -/

/-- The items that CLR, NAMECH of the codes and SETLEN `n` leave. -/
def Block.loaded (codes : List Imm) (n : Nat) : Block :=
  { codes.foldl Block.loadChar Block.reset with len := BitVec.ofNat 24 n }

theorem Block.Inv.loadChar {b : Block} (h : b.Inv) (hp : b.phase = .idle) (c : Imm) : (b.loadChar c).Inv := by
  rcases b.loadChar_cases c with ⟨-, e⟩ | ⟨hc, hn, e⟩ | ⟨-, -, e⟩ <;> rw [e]
  · exact h.setEnc hp
  · refine h.storeName ?_ hn
    rw [immByte_toNat]
    omega
  · exact h

theorem Block.Inv.loadChars (codes : List Imm) {b : Block} (h : b.Inv) (hp : b.phase = .idle) :
    (codes.foldl Block.loadChar b).Inv := by
  induction codes generalizing b with
  | nil => exact h
  | cons c codes ih => exact ih (h.loadChar hp c) ((b.loadChar_phase c).trans hp)

section
variable (codes : List Imm)

theorem Block.loaded_phase (n : Nat) : (Block.loaded codes n).phase = .idle := Block.loadChars_phase codes Block.reset

theorem Block.loaded_inv (n : Nat) : (Block.loaded codes n).Inv :=
  (Block.reset_inv.loadChars codes rfl).setLen (Block.loadChars_phase codes Block.reset) _

theorem Block.loaded_len {n : Nat} (hn : n ≤ 16777215) : (Block.loaded codes n).len.toNat = n :=
  Nat.mod_eq_of_lt (by omega)

theorem Block.loaded_enc (n : Nat) : (Block.loaded codes n).enc = true ↔ encname codes = none := by
  rw [encname_eq_none_iff]
  exact (Block.loadChars_enc codes Block.reset).trans (by simp)

variable {codes}

theorem Block.loaded_enc_false (n : Nat) {n12 : List Byte} (h : encname codes = some n12) :
    (Block.loaded codes n).enc = false := by
  rw [← Bool.not_eq_true, Block.loaded_enc, h]
  nofun

theorem Block.loaded_nameBytes (n : Nat) {n12 : List Byte} (h : encname codes = some n12) :
    (Block.loaded codes n).nameBytes = n12 := by
  obtain ⟨hascii, rfl⟩ := encname_eq_some_iff.1 h
  exact (Block.loadChars_name rfl rfl hascii).1

end

section
variable {s : State} {ws : List Word}

theorem step_clr (h₁ : s.phase ≠ .hdr) (h₂ : s.phase ≠ .dck) (hr : s.inRange = true) (hs : s.schedule = [])
    (hc : s.cmd = encode .clr :: ws) : step s = .next { s with cmd := ws, toBlock := Block.reset } := by
  have hready : s.cmdReady (encode .clr) = true := State.cmdReady_of_not_data h₁ h₂ fun _ => by decide
  rw [(stepRunsTheDecodedCommand s _ ws .clr hc (decodeOfEncodeIsTheCommand .clr rfl) hr h₁ h₂ hready).1 hs]
  exact (exec_clr _).trans (runCommand_system (s := { s with cmd := ws }) h₁ h₂ State.clear)

theorem step_setlen {n : Imm} (hp : s.phase = .idle) (hr : s.inRange = true) (hs : s.schedule = [])
    (hc : s.cmd = encode (.setlen n) :: ws) : step s = .next { s with cmd := ws, len := n } :=
  (step_idle_command rfl hp hr hs hc).trans (runCommand_load_idle (s := { s with cmd := ws }) hp (setlenEffect n))

/-- CLR, NAMECH of each code, SETLEN: from any state that accepts CLR, whatever its items. -/
theorem runs_load (codes : List Imm) (n : Nat) (h₁ : s.phase ≠ .hdr) (h₂ : s.phase ≠ .dck) (hr : s.inRange = true)
    (hs : s.schedule = [])
    (hc : s.cmd = encode .clr :: ((pseudoName codes).map encode ++ encode (.setlen (BitVec.ofNat 24 n)) :: ws)) :
    runs (codes.length + 1 + 1) s = .next { s with cmd := ws, toBlock := Block.loaded codes n } := by
  have hname := runs_pseudoName codes (s := { s with cmd := _, toBlock := Block.reset })
    (ws := encode (.setlen (BitVec.ofNat 24 n)) :: ws) rfl rfl hs rfl
  have hlen := step_setlen (s := { s with cmd := _, toBlock := codes.foldl Block.loadChar Block.reset })
    (n := BitVec.ofNat 24 n) (ws := ws) (Block.loadChars_phase codes _) (Block.reset_inv.loadChars codes rfl).inRange hs
    rfl
  exact (runs_succ (step_clr h₁ h₂ hr hs hc) _).trans ((runs_add hname 1).trans (runs_one hlen))

/-- The payload's words presented in ERR are dropped one by one (R179). -/
theorem runs_payload_dropped (d : List Byte) (hp : s.phase = .err) (hr : s.inRange = true) (hs : s.schedule = [])
    (hc : s.cmd = (pseudoPayload d).map encode) : runs d.length s = .next { s with cmd := [] } := by
  induction d generalizing s with
  | nil =>
    rw [List.length_nil, runs_zero, show ([] : List Word) = s.cmd from hc.symm]
  | cons x d ih =>
    have hd := decodeOfEncodeIsTheCommand (.data x) rfl
    have hready : s.cmdReady (encode (.data x)) = true := by simp [State.cmdReady, hp]
    have hstep := (stepRunsTheDecodedCommand s _ _ _ hc hd hr (by simp [hp]) (by simp [hp]) hready).1 hs
    have hkept := hstep.trans (runCommand_payload_err (s := { s with cmd := (pseudoPayload d).map encode }) hp _)
    exact (runs_succ hkept _).trans (ih (s := { s with cmd := (pseudoPayload d).map encode }) hp hr hs rfl)

end

/-! ### UPLOAD (R85, R127, R181) -/

theorem pseudoUpload_eq_some_iff {codes : List Imm} {bytes : List Byte} {cmds : List Instr} :
    pseudoUpload codes bytes = some cmds ↔ bytes.length ≤ 16777215 ∧
      .clr :: pseudoName codes ++ [.setlen (BitVec.ofNat 24 bytes.length), .start] ++ pseudoPayload bytes = cmds := by
  simp only [pseudoUpload, Option.ite_none_right_eq_some, Option.some.injEq]
  rfl

/-- `s` with `UPLOAD` loaded: START and the payload are still presented. -/
def State.loaded (s : State) (codes : List Imm) (bytes : List Byte) : State :=
  { s with toBlock := Block.loaded codes bytes.length, cmd := encode .start :: (pseudoPayload bytes).map encode }

/-- `s` where START has begun the header of an upload, and the payload is still presented. -/
def State.begun (s : State) (codes : List Imm) (bytes : List Byte) : State :=
  { s with toBlock := (Block.loaded codes bytes.length).started, cmd := (pseudoPayload bytes).map encode }

/-- A state in which the words of `UPLOAD` are presented and CLR is accepted, with nothing scheduled and a fair sink
that has not failed. -/
structure State.Uploads (s : State) (codes : List Imm) (bytes : List Byte) : Prop where
  words : ∃ cmds, pseudoUpload codes bytes = some cmds ∧ s.cmd = cmds.map encode
  not_hdr : s.phase ≠ .hdr
  not_dck : s.phase ≠ .dck
  inRange : s.inRange = true
  unscheduled : s.schedule = []
  fair : s.sinkFair = true
  not_failed : s.sink.NotFailed

section
variable {s : State} {codes : List Imm} {bytes : List Byte} (h : s.Uploads codes bytes)
include h

theorem State.Uploads.length_le : bytes.length ≤ 16777215 := by
  obtain ⟨cmds, hcmds, -⟩ := h.words
  exact (pseudoUpload_eq_some_iff.1 hcmds).1

theorem State.Uploads.runs_loaded : runs (codes.length + 1 + 1) s = .next (s.loaded codes bytes) := by
  obtain ⟨cmds, hcmds, hc⟩ := h.words
  obtain ⟨-, rfl⟩ := pseudoUpload_eq_some_iff.1 hcmds
  refine runs_load codes bytes.length h.not_hdr h.not_dck h.inRange h.unscheduled (hc.trans ?_)
  simp

theorem State.Uploads.step_start :
    step (s.loaded codes bytes) =
      .next (startEffect { s.loaded codes bytes with cmd := (pseudoPayload bytes).map encode }) := by
  have hp : (s.loaded codes bytes).phase = .idle := Block.loaded_phase codes _
  exact (step_idle_command rfl hp (Block.loaded_inv codes _).inRange h.unscheduled rfl).trans
    (exec_start_idle (s := { s.loaded codes bytes with cmd := (pseudoPayload bytes).map encode }) hp)

/-- START that finds ENC or BIG enters ERR, where the payload is dropped (R112, R179, R181). -/
theorem State.Uploads.runs_fault (hfault : encname codes = none ∨ 65535 < bytes.length) :
    ∃ n, runs n s = .next
      { s with toBlock := { Block.loaded codes bytes.length with phase := .err }, cmd := [] } := by
  have hinv := Block.loaded_inv codes bytes.length
  have hl := Block.loaded_len codes h.length_le
  have henc := Block.loaded_enc codes bytes.length
  have hstart : step (s.loaded codes bytes) = .next
      { s.loaded codes bytes with cmd := (pseudoPayload bytes).map encode, phase := .err } := by
    rw [h.step_start]
    rcases startEffect_cases { s.loaded codes bytes with cmd := (pseudoPayload bytes).map encode } with
      ⟨-, e⟩ | ⟨-, -, e⟩ | ⟨hok, hfits, -⟩
    · exact congrArg _ e
    · exact congrArg _ e
    · rcases hfault with hn | hb
      · exact absurd ((henc.2 hn).symm.trans hok) nofun
      · exact absurd (hl ▸ hfits) (Nat.not_le.2 hb)
  have hdrop := runs_payload_dropped bytes
    (s := { s.loaded codes bytes with cmd := (pseudoPayload bytes).map encode, phase := .err }) rfl
    ((Block.inRange_iff _).2 ⟨hinv.ncnt_le, by simp, hinv.rem_le, by simp⟩) h.unscheduled rfl
  exact ⟨_, (runs_add h.runs_loaded (bytes.length + 1)).trans ((runs_succ hstart _).trans hdrop)⟩

section
variable {n12 : List Byte} (hname : encname codes = some n12) (hmax : bytes.length ≤ 65535)
include hname hmax

/-- START that finds an ASCII name and a length that fits begins the header (R112). -/
theorem State.Uploads.runs_begun : runs (codes.length + 1 + 1 + 1) s = .next (s.begun codes bytes) := by
  have hl : (Block.loaded codes bytes.length).len.toNat ≤ 65535 := (Block.loaded_len codes h.length_le).le.trans hmax
  rw [runs_add h.runs_loaded, runs_one h.step_start]
  exact congrArg _ (startEffect_begins (Block.loaded_enc_false bytes.length hname) hl)

/-- The upload sends the frame of `build_upload`, with the sink that got ready for it (R83, R127). -/
theorem State.Uploads.runs_frame :
    ∃ n k, k.outReady = true ∧ (s.sink.Unused → k.Unused) ∧
      runs n s = .next
        { s with toBlock := (Block.loaded codes bytes.length).started.afterFrame bytes, cmd := [],
                 trace := s.trace ++ markLast (frame n12 bytes),
                 sink := (markLast (frame n12 bytes)).foldl Sink.take k } := by
  have hinv := Block.loaded_inv codes bytes.length
  have hp := Block.loaded_phase codes bytes.length
  obtain ⟨m, k, hsink, hready, hunused⟩ :=
    runs_until_ready (s := s.begun codes bytes) rfl h.unscheduled h.fair h.not_failed
  have hframe := Block.sends_frame (Block.started_inRange hinv.inRange) rfl (hinv.idx_zero (by simp [hp])) rfl
    (hinv.rem_zero (by simp [hp])) (Block.loaded_len codes h.length_le).symm hmax []
  rw [show (Block.loaded codes bytes.length).started.nameBytes = n12 from Block.loaded_nameBytes bytes.length hname,
    List.append_nil] at hframe
  have hsent := hframe { s.begun codes bytes with sink := k } rfl rfl hready
    (State.blockMovesNext_of_nil h.unscheduled _)
  refine ⟨_, k, hready, hunused, (runs_add (h.runs_begun hname hmax) (m + (frame n12 bytes).length)).trans ?_⟩
  rw [runs_add hsink, hsent]
  simp [State.moved, State.begun, h.unscheduled]

end

end

/-! ### The three ends of `build_upload` (R83, R114, R170) -/

section
variable {codes : List Imm} {bytes : List Byte}

theorem buildUpload_encodingError (h : encname codes = none) : buildUpload codes bytes = .error .encodingError := by
  simp [buildUpload, h]

theorem buildUpload_fileTooLargeError {n12 : List Byte} (h : encname codes = some n12) (hb : 65535 < bytes.length) :
    buildUpload codes bytes = .error .fileTooLargeError := by
  simp [buildUpload, h, Config.maxData, hb]

theorem buildUpload_ok {n12 : List Byte} (h : encname codes = some n12) (hb : bytes.length ≤ 65535) :
    buildUpload codes bytes = .ok (frame n12 bytes) := by
  simp [buildUpload, h, Config.maxData, Nat.not_lt.2 hb]

/-- A frame that is built is the frame of the encoded name, and the payload fits. -/
theorem buildUpload_eq_ok {f : List Byte} (h : buildUpload codes bytes = .ok f) :
    ∃ n12, encname codes = some n12 ∧ bytes.length ≤ 65535 ∧ f = frame n12 bytes := by
  cases hn : encname codes with
  | none => simp [buildUpload_encodingError hn] at h
  | some n12 =>
    rcases Nat.lt_or_ge 65535 bytes.length with hb | hb
    · simp [buildUpload_fileTooLargeError hn hb] at h
    · rw [buildUpload_ok hn hb] at h
      exact ⟨n12, rfl, hb, (Except.ok.inj h).symm⟩

end

/-- The first fourteen bytes of a frame are those its header checksum covers (R81). -/
theorem Block.frame_take_14 (b : Block) {d : List Byte} (hd : d.length = b.len.toNat) :
    (frame b.nameBytes d).take 14 = b.covered := by
  rw [b.frame_eq d hd]
  split
  · exact b.frameHeader_take_14
  · rw [List.append_assoc, List.take_append_of_le_length (by simp), b.frameHeader_take_14]

/-- Settles O47: by whether the name encodes and the payload fits, the run ends in ERR before a byte goes out, or in
DONE after the frame. -/
theorem uploadRefinesBuildUpload : Obligations.UploadRefinesBuildUpload := by
  intro s codes bytes cmds hcmds hc h₁ h₂ hr hs hf hk
  have h : s.Uploads codes bytes := ⟨⟨cmds, hcmds, hc⟩, h₁, h₂, hr, hs, hf, hk⟩
  have hl := Block.loaded_len codes h.length_le
  cases hn : encname codes with
  | none =>
    obtain ⟨n, hrun⟩ := h.runs_fault (.inl hn)
    refine ⟨n, _, hrun, rfl, rfl, ?_⟩
    rw [buildUpload_encodingError hn]
    exact ⟨rfl, rfl, (Block.loaded_enc codes bytes.length).2 hn⟩
  | some n12 =>
    rcases Nat.lt_or_ge 65535 bytes.length with hb | hb
    · obtain ⟨n, hrun⟩ := h.runs_fault (.inr hb)
      refine ⟨n, _, hrun, rfl, rfl, ?_⟩
      rw [buildUpload_fileTooLargeError hn hb]
      refine ⟨rfl, rfl, ?_, (Block.big_iff _).2 (hl.symm ▸ hb)⟩
      exact Block.loaded_enc_false bytes.length hn
    · obtain ⟨n, k, -, -, hrun⟩ := h.runs_frame hn hb
      refine ⟨n, _, hrun, rfl, rfl, ?_⟩
      rw [buildUpload_ok hn hb]
      refine ⟨rfl, rfl, rfl, hl, ?_⟩
      have hcovered : (frame n12 bytes).take 14 = (Block.loaded codes bytes.length).started.covered := by
        rw [← Block.loaded_nameBytes bytes.length hn]
        exact Block.frame_take_14 (Block.loaded codes bytes.length) hl.symm
      rw [hcovered]
      simp only [Block.afterFrame, List.length_eq_zero_iff]

/-! ### On to the line (R158 to R161) -/

/-- A sink that has taken the bytes of a whole frame, one after another (R161). -/
theorem Sink.take_frame (k : Sink) {f : List Byte} (hf : f ≠ []) :
    (markLast f).foldl Sink.take k = { k with count := k.count + f.length, uart := k.uart ++ f, ended := true } := by
  obtain ⟨bs, x, rfl⟩ := (List.eq_nil_or_concat' f).resolve_left hf
  have hlast : (markLast (bs ++ [x])).any (·.last) = true := by simp [markLast_snoc]
  rw [Sink.take_foldl, markLast_length, markLast_bytes, hlast, Bool.or_true]

/-- With no word presented outside HDR and DCK, a fair sink that has taken a frame finishes it in two moves. -/
theorem runs_finish {s : State} (h₁ : s.phase ≠ .hdr) (h₂ : s.phase ≠ .dck) (hc : s.cmd = []) (hs : s.schedule = [])
    (hf : s.sinkFair = true) (hk : s.sink.state = .writing) (he : s.sink.ended = true) :
    runs 2 s = .next { s with sink := s.sink.finish } := by
  have hflush := step_fairMove hs hf (State.blockEnabled_nil h₁ h₂ hc) (Sink.fairMove_ended hk he _)
  rw [Sink.move_flush hk he] at hflush
  have hsettle := step_fairMove (s := { s with sink := { s.sink with state := .settling, ready := false } }) hs hf
    (State.blockEnabled_nil h₁ h₂ hc) (Sink.fairMove_settling rfl _)
  rw [Sink.move_settleDone rfl] at hsettle
  exact (runs_succ hflush 1).trans (runs_one hsettle)

/-- Settles O48: the run of the frame, with a sink that has carried nothing else, and the two moves that finish it. -/
theorem uploadReachesTheLine : Obligations.UploadReachesTheLine := by
  intro s codes bytes f cmds hcmds hbuild hc h₁ h₂ hr hs hf hsink
  have h : s.Uploads codes bytes := ⟨⟨cmds, hcmds, hc⟩, h₁, h₂, hr, hs, hf, by rw [hsink]; nofun⟩
  obtain ⟨n12, hn, hb, rfl⟩ := buildUpload_eq_ok hbuild
  obtain ⟨n, k, hready, hunused, hrun⟩ := h.runs_frame hn hb
  obtain ⟨hcount, huart, hline⟩ := hunused (by rw [hsink]; exact ⟨rfl, rfl, rfl⟩)
  obtain ⟨hwriting, -, -⟩ := k.outReady_iff.1 hready
  have hne : frame n12 bytes ≠ [] := by simp [frame_fields, le16]
  rw [k.take_frame hne] at hrun
  refine ⟨n + 2, _, (runs_add hrun 2).trans (runs_finish nofun nofun rfl hs hf hwriting rfl), rfl, rfl, rfl, ?_, ?_⟩
  · simp [Sink.finish, Sink.release, huart, hline]
  · simp [Sink.finish, Sink.release, hcount]

end Sys2Proof.Machine
end

section
/-! PROOFS. The system commands NOP, CLR and READ, command by command (R140 to R142), and the register views as
numbers (R34, R36, R37). -/

namespace Sys2Proof.Machine

/-! ### NOP (R140) -/

/-- Settles O14: held in HDR and DCK, and elsewhere a system command whose effect is none. -/
theorem nopChangesNothing : Obligations.NopChangesNothing := by
  refine ⟨by decide, fun s => ?_, fun w hop hz => takesIll_of_formZ (by decide) hop hz⟩
  by_cases hp : s.phase = .hdr ∨ s.phase = .dck
  · exact exec_held hp .nop
  · obtain ⟨h₁, h₂⟩ := not_or.1 hp
    exact (exec_nop s).trans (runCommand_system h₁ h₂ nopEffect)

/-! ### CLR (R141) -/

/-- Outside HDR and DCK, CLR gives the block its reset values and keeps everything else (R141). -/
theorem exec_clr_accepting {s : State} (h₁ : s.phase ≠ .hdr) (h₂ : s.phase ≠ .dck) :
    exec .clr s = .next { s with toBlock := Block.reset } :=
  (exec_clr s).trans (runCommand_system h₁ h₂ State.clear)

/-- Settles O15: a system command whose effect is the reset state of the block; `BIG` is read off its `LEN`. -/
theorem clrGivesTheResetState : Obligations.ClrGivesTheResetState := by
  refine ⟨by decide, fun s => ⟨fun h₁ h₂ => ⟨exec_clr_accepting h₁ h₂, fun t ht => ?_⟩, fun hp => exec_held hp .clr⟩,
    fun w hop hz => takesIll_of_formZ (by decide) hop hz⟩
  obtain rfl := Host.Outcome.next.inj ((exec_clr_accepting h₁ h₂).symm.trans ht)
  exact ⟨rfl, Block.big_eq_false.2 (Nat.zero_le _)⟩

/-! ### READ (R142) -/

/-- STATUS as the sum of the weights of the flags that are set (R35), `BIG` as the test on `LEN` (R30). -/
theorem Block.status_toNat_weights (b : Block) :
    b.status.toNat = b.phase.code.toNat + (if b.enc then 16 else 0) + (if 65535 < b.len.toNat then 32 else 0) +
      (if b.seq then 64 else 0) + (if b.ill then 128 else 0) + 256 * b.ncnt.toNat := by
  simp only [Block.status_toNat, Bool.toNat, Bool.cond_eq_ite, mul_ite, mul_one, mul_zero, Block.big_iff]

/-- `NAMEw` as a number (R37): the byte sent first at the lowest weight. -/
theorem Block.nameView_toNat (b : Block) (w : Nat) :
    (b.nameView w).toNat =
      (b.nameByte (4 * w + 3)).toNat * 2 ^ 24 + (b.nameByte (4 * w + 2)).toNat * 2 ^ 16 +
        (b.nameByte (4 * w + 1)).toNat * 2 ^ 8 + (b.nameByte (4 * w)).toNat := by
  simp only [Block.nameView, append_toNat]
  omega

/-- Outside HDR and DCK, a READ of a register that exists responds with its view and changes nothing else (R142). -/
theorem exec_read_accepting {r : Byte} {s : State} (hr : r.toNat ≤ 6) (h₁ : s.phase ≠ .hdr) (h₂ : s.phase ≠ .dck) :
    exec (.read r) s = .next { s with responses := s.responses ++ [s.regView r.toNat] } :=
  (exec_read hr s).trans (runCommand_system h₁ h₂ (readEffect r))

/-- A READ word of a register above 6 is malformed (R74). -/
theorem takesIll_of_noSuchRegister {w : Word} (hop : w.toNat / 2 ^ 24 = 0x08) (hr : 6 < w.toNat % 2 ^ 8) :
    TakesIll w := by
  refine (wellFormedWordsAreTheOnesThatDecode w).2 fun hd => ?_
  have hfields := (decodes_iff w).1 hd
  simp only [List.mem_cons, List.not_mem_nil, or_false] at hfields
  omega

/-- Settles O22: the response is the view of the register, and each view is read as a number. -/
theorem readRespondsWithOneView : Obligations.ReadRespondsWithOneView := by
  refine ⟨fun r => encode_formB_toNat (k := 8) rfl rfl, fun r s hr h₁ h₂ => ⟨s.regView r.toNat,
    exec_read_accepting hr h₁ h₂, ?_, ?_, ?_, ?_, fun k _ hk => ?_⟩, fun r s hp => exec_held hp (.read r),
    fun r s hr => ⟨fun hp => ?_, fun hp => ?_⟩, fun w hop => ?_⟩
  · rintro rfl
    exact s.status_toNat_weights
  · rintro rfl
    exact BitVec.toNat_setWidth_of_le (by decide)
  · rintro rfl
    exact BitVec.toNat_setWidth_of_le (by decide)
  · rintro rfl
    exact BitVec.toNat_setWidth_of_le (by decide)
  · rw [hk, Nat.add_comm]
    exact s.nameView_toNat k
  · exact (exec_read_malformed hr s).trans (takeMalformed_ill hp)
  · exact (exec_read_malformed hr s).trans (takeMalformed_err hp)
  · rintro (hhigh | hr)
    · exact takesIll_of_formB (by decide) hop hhigh
    · exact takesIll_of_noSuchRegister hop hr

end Sys2Proof.Machine
end

section
/-! PROOFS. The transmitter (R150 to R161): what it opens, that what it holds is a scoped resource, and that `send`
always ends released. -/

namespace Sys2Proof.Machine

/-! ### The sink is opened with the fixed line discipline (R153) -/

/-- A byte sink opened with the fixed line discipline and the bounded read timeout (R153). -/
def ByteSink.HasDiscipline (b : ByteSink) : Prop :=
  b.args.baud = 900 ∧ b.args.dataBits = 8 ∧ b.args.parity = .none ∧ b.args.stopBits = 1 ∧
    b.args.timeout = Config.readTimeout

theorem ByteSink.hasDiscipline_openArgs (c : Config.SinkConfig) :
    ByteSink.HasDiscipline ⟨Config.openArgs c⟩ := ⟨rfl, rfl, rfl, rfl, rfl⟩

/-- Settles O56: the two answers of the `open` primitive. -/
theorem openAcquiresTheFixedLineDiscipline : Obligations.OpenAcquiresTheFixedLineDiscipline := by
  intro k c hs
  rw [Sink.openSink_idle hs, Sink.openSink_idle hs]
  exact ⟨⟨rfl, ⟨Config.openArgs c⟩, rfl, rfl, ByteSink.hasDiscipline_openArgs c⟩, rfl, rfl, rfl⟩

/-! ### The ready line and the settle delay (R156, R161) -/

/-- Settles O54: what readiness says, and that the byte with `last = 1` ends it. -/
theorem readyOnlyWhileWriting : Obligations.ReadyOnlyWhileWriting := by
  refine fun s => ⟨fun h => ?_, fun b => ?_⟩
  · obtain ⟨hwriting, -, hended⟩ := s.sink.outReady_iff.1 h
    exact ⟨hwriting, hended⟩
  · rw [State.emit_outReady, Bool.not_true, Bool.and_false]

/-- The one byte that leaves the UART is its first, if there is one. -/
theorem Sink.drain_eq (k : Sink) :
    k.drain = { k with uart := k.uart.drop 1, line := k.line ++ k.uart.take 1 } := Sink.drains_eq 1 k

/-- The settle delay of `n` bytes, with the throughput and the guard of R9. -/
theorem settleSeconds_eq (n : Nat) : Config.settleSeconds n = (n : Rat) / 90 + 1 / 2 := by
  norm_num [Config.settleSeconds, Config.throughputBps, Config.guardS]

/-- Settles O53: the count of the bytes taken is the delay's argument, and of the moves only two end `Settling`. -/
theorem settleDelay : Obligations.SettleDelay := by
  refine ⟨fun k f => ?_, fun k m hs hleft => ?_⟩
  · rw [Sink.take_foldl]
    exact settleSeconds_eq (k.count + f.length)
  · cases m with
    | settleDone => exact .inl rfl
    | restart => exact .inr rfl
    | drain => exact absurd (by rw [Sink.move, Sink.drain_eq, hs]) hleft
    | openSink | beginWrite | setReady | writeFails | flush =>
      exact absurd (by simp [Sink.move, Sink.openSink, Sink.beginWrite, Sink.setReady, Sink.writeFails, Sink.flush, hs])
        hleft

/-! ### The resource rule (R157, R158, R161) -/

/-- Whatever went before, a released sink obeys the rule. -/
theorem Sink.release_inv (k : Sink) (r : SendResult) : (k.release r).Inv where
  held_iff := by simp [Sink.release]
  result_iff := by simp [Sink.release]
  ready_writing := nofun
  uart_live := fun h => absurd rfl h
  discipline := nofun
  settling_ended := nofun
  ended_late := by simp [Sink.release]

/-- Whatever went before, so does a sink that is started again. -/
theorem Sink.restart_inv (k : Sink) : k.restart.Inv where
  held_iff := by simp [Sink.restart, Sink.fresh]
  result_iff := by simp [Sink.restart, Sink.fresh]
  ready_writing := nofun
  uart_live := fun h => absurd rfl h
  discipline := nofun
  settling_ended := nofun
  ended_late := nofun

namespace Sink.Inv

variable {k : Sink}

theorem result_isSome_false (hk : k.Inv) (hs : k.state ≠ .closed) : k.result.isSome = false :=
  Bool.eq_false_iff.2 (mt hk.result_iff.1 hs)

theorem ended_false (hk : k.Inv) (hs : k.state = .idle ∨ k.state = .opened) : k.ended = false := by
  refine Bool.eq_false_iff.2 fun he => ?_
  have hlate := hk.ended_late he
  rcases hs with hs | hs <;> simp [hs] at hlate

theorem uart_nil (hk : k.Inv) (hs : k.state = .idle ∨ k.state = .opened) : k.uart = [] := by
  by_contra hu
  have hlive := hk.uart_live hu
  rcases hs with hs | hs <;> simp [hs] at hlive

theorem ready_false (hk : k.Inv) (hs : k.state ≠ .writing) : k.ready = false :=
  Bool.eq_false_iff.2 (mt hk.ready_writing hs)

theorem held (hk : k.Inv) (hs : k.state = .opened ∨ k.state = .writing) : k.held = true :=
  hk.held_iff.2 (by rcases hs with hs | hs <;> simp [hs])

/-- `Idle → Open`: the sink acquired has the fixed line discipline. -/
theorem opened (hk : k.Inv) (hs : k.state = .idle) (c : Config.SinkConfig) :
    ({ k with state := .opened, acquired := some ⟨Config.openArgs c⟩ } : Sink).Inv where
  held_iff := by simp
  result_iff := by simp [hk.result_isSome_false (by simp [hs])]
  ready_writing := by simp [hk.ready_false (by simp [hs])]
  uart_live := fun h => absurd (hk.uart_nil (.inl hs)) h
  discipline := by
    rintro b ⟨⟩
    exact ByteSink.hasDiscipline_openArgs c
  settling_ended := nofun
  ended_late := by simp [hk.ended_false (.inl hs)]

/-- `Open → Writing`. -/
theorem writing (hk : k.Inv) (hs : k.state = .opened) : ({ k with state := .writing } : Sink).Inv where
  held_iff := by simpa using hk.held (.inl hs)
  result_iff := by simp [hk.result_isSome_false (by simp [hs])]
  ready_writing := fun _ => rfl
  uart_live := by simp
  discipline := hk.discipline
  settling_ended := nofun
  ended_late := by simp

/-- `Writing → Settling`, after the byte that ends the frame. -/
theorem settling (hk : k.Inv) (hs : k.state = .writing) (he : k.ended = true) :
    ({ k with state := .settling, ready := false } : Sink).Inv where
  held_iff := by simpa using hk.held (.inr hs)
  result_iff := by simp [hk.result_isSome_false (by simp [hs])]
  ready_writing := nofun
  uart_live := by simp
  discipline := hk.discipline
  settling_ended := fun _ => he
  ended_late := by simp

/-- The ready line may go up and down in `Writing`. -/
theorem setReady (hk : k.Inv) (hs : k.state = .writing) (b : Bool) : ({ k with ready := b } : Sink).Inv :=
  { hk with ready_writing := fun _ => hs }

/-- A byte that leaves the UART leaves no more in it than there was. -/
theorem drain (hk : k.Inv) : k.drain.Inv := by
  rw [Sink.drain_eq]
  exact { hk with uart_live := fun h => hk.uart_live fun hnil => h (by simp [hnil]) }

/-- In `Writing` a byte may come in, and it may be the last. -/
theorem take (hk : k.Inv) (hs : k.state = .writing) (o : OutByte) : (k.take o).Inv :=
  { hk with
    uart_live := fun _ => by simp [Sink.take, hs]
    settling_ended := fun h => absurd (hs.symm.trans h) nofun
    ended_late := fun _ => by simp [Sink.take, hs] }

/-- Every move of the sink keeps the rule, taken or not. -/
theorem move (hk : k.Inv) (m : SinkMove) : (k.move m).Inv := by
  cases m with
  | openSink c ok =>
    by_cases hs : k.state = .idle
    · rw [Sink.move, Sink.openSink_idle hs]
      cases ok with
      | true => exact hk.opened hs c
      | false => exact k.release_inv _
    · rwa [Sink.move, Sink.openSink, if_neg hs]
  | beginWrite =>
    rw [Sink.move, Sink.beginWrite]
    split_ifs with hs
    · exact hk.writing hs
    · exact hk
  | setReady b =>
    rw [Sink.move, Sink.setReady]
    split_ifs with hs
    · exact hk.setReady hs b
    · exact hk
  | drain => exact hk.drain
  | writeFails =>
    rw [Sink.move, Sink.writeFails]
    split_ifs
    · exact k.release_inv _
    · exact hk
  | flush ok =>
    by_cases hs : k.state = .writing ∧ k.ended = true
    · rw [Sink.move, Sink.flush, if_pos hs]
      cases ok with
      | true => exact hk.settling hs.1 hs.2
      | false => exact k.release_inv _
    · rwa [Sink.move, Sink.flush, if_neg hs]
  | settleDone =>
    rw [Sink.move, Sink.settleDone]
    split_ifs
    · exact Sink.release_inv _ _
    · exact hk
  | restart => exact k.restart_inv

end Sink.Inv

/-- Settles O44: a step leaves the sink alone, makes one of its moves, or hands it a byte while it is `Writing`. -/
theorem sinkResourceRuleKept : Obligations.SinkResourceRuleKept := by
  refine ⟨Sink.fresh.restart_inv, fun s t hk h => ?_⟩
  rcases step_sink h with e | ⟨m, -, e⟩ | ⟨ho, o, -, e⟩ <;> rw [e]
  · exact hk
  · exact hk.move m
  · exact hk.take (s.sink.outReady_iff.1 ho).1 o

/-! ### `send` (R151, R153 to R160) -/

/-- A fresh sink that `send` has opened and that is ready for the first byte (R153, R158, R161). -/
def Sink.startedFor (c : Config.SinkConfig) : Sink :=
  { Sink.fresh with state := .writing, acquired := some ⟨Config.openArgs c⟩, ready := true }

/-- The same sink when it has taken `f`, of which `n` bytes, or all, have left on the line. -/
def Sink.carrying (c : Config.SinkConfig) (f : List OutByte) (n : Nat) : Sink :=
  (f.foldl Sink.take (Sink.startedFor c)).drains n

theorem Sink.carrying_eq (c : Config.SinkConfig) (f : List OutByte) (n : Nat) :
    Sink.carrying c f n =
      { Sink.startedFor c with count := f.length, uart := (f.map (·.byte)).drop n,
                               line := (f.map (·.byte)).take n, ended := f.any (·.last) } := by
  rw [Sink.carrying, Sink.take_foldl, Sink.drains_eq]
  simp [Sink.startedFor, Sink.fresh]

theorem markLast_any_last {f : List Byte} (hf : f ≠ []) : (markLast f).any (·.last) = true := by
  simpa [Sink.take_foldl, Sink.fresh] using congrArg Sink.ended (Sink.fresh.take_frame hf)

section
variable (c : Config.SinkConfig) (f : List OutByte) (writeOk flushOk : Bool) (written delivered : Nat)

/-- The open fails (R153, R159). -/
theorem Sink.send_open_fails :
    Sink.fresh.send c f false writeOk flushOk written delivered = Sink.fresh.release (.failed .openFailed) := rfl

/-- A write fails (R154, R159): what was taken before it is all the sink has had. -/
theorem Sink.send_write_fails :
    Sink.fresh.send c f true false flushOk written delivered =
      (Sink.carrying c (f.take written) delivered).release (.failed .writeFailed) := by
  refine if_pos ?_
  change (Sink.carrying c (f.take written) delivered).state = .writing
  rw [Sink.carrying_eq]
  rfl

variable {f}

theorem Sink.carrying_flush (hf : f.any (·.last) = true) :
    (Sink.carrying c f delivered).flush flushOk =
      if flushOk then { Sink.carrying c f delivered with state := .settling, ready := false }
      else (Sink.carrying c f delivered).release (.failed Config.flushErrKind) := by
  refine if_pos ?_
  rw [Sink.carrying_eq]
  exact ⟨rfl, hf⟩

/-- The flush of a whole frame fails (R155, R159). -/
theorem Sink.send_flush_fails (hf : f.any (·.last) = true) :
    Sink.fresh.send c f true true false written delivered =
      (Sink.carrying c f delivered).release (.failed Config.flushErrKind) :=
  congrArg Sink.settleDone (Sink.carrying_flush c false delivered hf)

/-- Nothing fails, and the settle delay runs (R156, R160). -/
theorem Sink.send_succeeds (hf : f.any (·.last) = true) :
    Sink.fresh.send c f true true true written delivered = (Sink.carrying c f delivered).finish :=
  congrArg Sink.settleDone (Sink.carrying_flush c true delivered hf)

end

/-- Settles O52: at each of the four ends the sink is released, and its line is what it had carried by then. -/
theorem sendAlwaysEndsClosed : Obligations.SendAlwaysEndsClosed := by
  intro c f openOk writeOk flushOk written delivered hf
  have hlast := markLast_any_last hf
  cases openOk with
  | false =>
    rw [Sink.send_open_fails]
    exact ⟨rfl, rfl, fun _ => ⟨rfl, rfl⟩, nofun, nofun, nofun⟩
  | true =>
    cases writeOk with
    | false =>
      rw [Sink.send_write_fails, Sink.carrying_eq, List.map_take, markLast_bytes, List.take_take,
        Nat.min_comm]
      exact ⟨rfl, rfl, nofun, fun _ _ => ⟨rfl, rfl⟩, nofun, nofun⟩
    | true =>
      cases flushOk with
      | false =>
        rw [Sink.send_flush_fails c written delivered hlast, Sink.carrying_eq, markLast_bytes]
        exact ⟨rfl, rfl, nofun, nofun, fun _ _ _ => ⟨rfl, rfl⟩, nofun⟩
      | true =>
        rw [Sink.send_succeeds c written delivered hlast, Sink.carrying_eq, markLast_bytes]
        exact ⟨rfl, rfl, nofun, nofun, nofun, fun _ _ _ => ⟨rfl, List.take_append_drop delivered f⟩⟩

end Sys2Proof.Machine
end

section
/-! PROOFS. Exceptions: what fault entry changes (R176), what an accepted malformed word does (R174), and what phase
ERR does with each word (R179). -/

namespace Sys2Proof.Machine

/-! ### Fault entry (R176) -/

/-- A command enters ERR by fault entry and by nothing else; for ENC and BIG with the cause that START found (R112). -/
theorem exec_raises {i : Instr} {s t : State} (h : exec i s = .next t) (hp : s.phase ≠ .err) (ht : t.phase = .err) :
    ∃ k, t = s.raiseFault k ∧ (k = .enc → s.enc = true) ∧ (k = .big → 65535 < s.len.toNat) := by
  rcases exec_cases h with rfl | ⟨-, -, -, rfl⟩ | ⟨-, -, r, -, -, rfl⟩ | ⟨-, -, rfl⟩ | ⟨-, b, -, rfl⟩ | ⟨-, c, -, rfl⟩ |
    ⟨-, n, -, rfl⟩ | ⟨-, -, rfl⟩ | ⟨hdata, -, b, -, rfl⟩ | ⟨-, rfl | rfl⟩
  · exact absurd ht hp
  · exact absurd ht (by simp)
  · exact absurd ht hp
  · exact absurd ht hp
  · exact absurd ht hp
  · rw [namechEffect_eq_loadChar] at ht
    exact absurd ((s.loadChar_phase c).symm.trans ht) hp
  · exact absurd ht hp
  · rcases startEffect_cases s with ⟨henc, e⟩ | ⟨-, hbig, e⟩ | ⟨-, -, e⟩
    · exact ⟨.enc, e, fun _ => henc, nofun⟩
    · exact ⟨.big, e, nofun, fun _ => hbig⟩
    · exact absurd ht (by simp [e])
  · exact absurd ht (dataEffect_phase hdata)
  · exact ⟨.seq, rfl, nofun, nofun⟩
  · exact ⟨.ill, rfl, nofun, nofun⟩

/-- A step enters ERR by fault entry alone, on a word taken from the channel: the emit steps have no edge to ERR
(R120). -/
theorem step_raises {s t : State} (h : step s = .next t) (hp : s.phase ≠ .err) (ht : t.phase = .err) :
    ∃ k, t = (s.accepting s.cmd.tail).raiseFault k ∧ (k = .enc → s.enc = true) ∧
      (k = .big → 65535 < s.len.toNat) := by
  obtain ⟨-, -, -, -, hedge, -⟩ := phaseChangesOnlyAlongTheGraph s t h fun e => hp (e.symm.trans ht)
  obtain ⟨hfrom, -⟩ := hedge ht
  rcases step_inv h with rfl | ⟨-, rfl⟩ | ⟨m, rfl⟩ | ⟨k, -, rfl⟩ | ⟨-, hhdr, -⟩ | ⟨-, hdck, -⟩ |
    ⟨-, w, ws, hc, -, -, -, ⟨i, -, he⟩ | rfl | ⟨-, -, rfl⟩⟩
  · exact absurd ht hp
  · exact absurd ht (by simp)
  · exact absurd ((congrArg Block.phase (hostMove_toBlock m s.scheduled)).symm.trans ht) hp
  · exact absurd ht hp
  · exact absurd hfrom (by simp [hhdr])
  · exact absurd hfrom (by simp [hdck])
  · rw [hc]
    exact exec_raises he hp ht
  · exact absurd ht hp
  · rw [hc]
    exact ⟨.ill, rfl, nofun, nofun⟩

/-- Settles O29: each of the four faults writes `PHASE` and its own flag, if it has one. -/
theorem faultEntryChangesNothingElse : Obligations.FaultEntryChangesNothingElse := by
  intro s t h hp ht
  refine ⟨decide_eq_true ht, ?_⟩
  obtain ⟨k, rfl, henc, hbig⟩ := step_raises h hp ht
  cases k with
  | enc => exact ⟨rfl, .inr (.inr ⟨rfl, rfl, .inl (henc rfl)⟩)⟩
  | big => exact ⟨rfl, .inr (.inr ⟨rfl, rfl, .inr (hbig rfl)⟩)⟩
  | seq => exact ⟨rfl, .inl ⟨rfl, rfl⟩⟩
  | ill => exact ⟨rfl, .inr (.inl ⟨rfl, rfl⟩)⟩

/-! ### Accepted words: the malformed ones (R174), and all of them in ERR (R179) -/

section
variable {s : State} {w : Word} {ws : List Word} {ms : List Move}

/-- Outside HDR and DCK the block's scheduled move takes the word presented, unless it is a DATA in phase DATA
(R62). -/
theorem step_scheduled_accept (hc : s.cmd = w :: ws) (hr : s.inRange = true) (hs : s.schedule = .block :: ms)
    (h₁ : s.phase ≠ .hdr) (h₂ : s.phase ≠ .dck) (hdata : s.phase = .data → isDataWord w = false) :
    step s = acceptWord w { s with cmd := ws, schedule := ms } :=
  (step_scheduled_block hs).trans (blockMove_accept (s := { s with schedule := ms }) hr h₁ h₂ hc
    (State.cmdReady_of_not_data h₁ h₂ hdata))

/-- A malformed word is not a DATA word (R73). -/
theorem isDataWord_of_error {e : Malformed} (hd : decode w = .error e) : isDataWord w = false :=
  Bool.eq_false_iff.2 fun hw => nomatch hd.symm.trans (data_of_word ((isDataWord_iff w).1 hw))

/-- In ERR every command but CLR and READ is dropped (R179). -/
theorem exec_dropped_err {i : Instr} (hp : s.phase = .err) (hclr : i ≠ .clr) (hread : ∀ r, i ≠ .read r) :
    exec i s = .next s := by
  cases i with
  | nop => exact runCommand_system (by simp [hp]) (by simp [hp]) nopEffect
  | clr => exact absurd rfl hclr
  | ckclr => exact runCommand_load_err hp ckclrEffect
  | ckadd b => exact runCommand_load_err hp (ckaddEffect b)
  | namech c => exact runCommand_load_err hp (namechEffect c)
  | setlen n => exact runCommand_load_err hp (setlenEffect n)
  | start => exact runCommand_load_err hp startEffect
  | data b => exact runCommand_payload_err hp (dataEffect b)
  | read r => exact absurd rfl (hread r)

/-- In ERR every word that is neither CLR nor READ of a register is dropped, well-formed or not (R179). -/
theorem acceptWord_dropped_err (hp : s.phase = .err) (hclr : decode w ≠ .ok .clr)
    (hread : ∀ r, decode w ≠ .ok (.read r)) : acceptWord w s = .next s := by
  cases hd : decode w with
  | ok i =>
    exact (acceptWord_ok hd s).trans (exec_dropped_err hp (fun e => hclr (e ▸ hd)) fun r e => hread r (e ▸ hd))
  | error e => exact (takesIll_of_error hd s).2 hp

end

/-- Settles O8: the word is taken in all four phases, and then the phase decides. -/
theorem malformedWordTakesIll : Obligations.MalformedWordTakesIll := by
  intro s w ws ms e hc hd hr hs
  have haccept (h₁ : s.phase ≠ .hdr) (h₂ : s.phase ≠ .dck) :=
    step_scheduled_accept hc hr hs h₁ h₂ fun _ => isDataWord_of_error hd
  obtain ⟨hill, hdrop⟩ := takesIll_of_error hd { s with cmd := ws, schedule := ms }
  refine ⟨fun hp => (haccept ?_ ?_).trans (hill hp), fun hp => (haccept ?_ ?_).trans (hdrop hp)⟩
  · exact fun h => by simp [h] at hp
  · exact fun h => by simp [h] at hp
  · simp [hp]
  · simp [hp]

/-- Settles O10: the word is taken, and the rows of CLR and READ (R73) tell the two words that are performed from those
that are dropped. -/
theorem errPhaseActsOnClrAndReadOnly : Obligations.ErrPhaseActsOnClrAndReadOnly := by
  intro s w ws ms hc hp hr hs
  have h₁ : s.phase ≠ .hdr := by simp [hp]
  have h₂ : s.phase ≠ .dck := by simp [hp]
  obtain ⟨-, -, -, -, -, -, -, -, hread⟩ := wordIsCommandOfItsRow w
  rw [step_scheduled_accept hc hr hs h₁ h₂ (by simp [hp])]
  refine ⟨?_, fun hrow hreg => ?_, fun hclr hn => ?_⟩
  · rintro rfl
    exact (acceptWord_ok (decodeOfEncodeIsTheCommand .clr rfl) _).trans (exec_clr_accepting h₁ h₂)
  · obtain ⟨r, hr₈⟩ : ∃ r : Byte, r.toNat = w.toNat % 2 ^ 8 := ⟨BitVec.ofNat 8 w.toNat, BitVec.toNat_ofNat ..⟩
    have hd := (hread r).2 ⟨hrow, hr₈, hreg⟩
    rw [← hr₈] at hreg ⊢
    exact (acceptWord_ok hd _).trans (exec_read_accepting hreg h₁ h₂)
  · refine acceptWord_dropped_err hp (fun hd => hclr (word_of_clr hd)) fun r hd => ?_
    obtain ⟨hrow, -, hreg⟩ := (hread r).1 hd
    exact hn ⟨hrow, hreg⟩

end Sys2Proof.Machine
end

section
/-! PROOFS. Reset (R200, R201), and the waits of a block that is stuck on its sink or on its host (R206, R207). -/

namespace Sys2Proof.Machine

/-! ### Waits (R61, R206, R207) -/

/-- With nothing scheduled, no step of the block enabled and a sink that does not go on by itself, the step is a
wait. -/
theorem step_wait {s : State} (hs : s.schedule = []) (hf : s.sinkFair = false) (he : s.blockEnabled = false) :
    step s = .next s := by
  simp [step, hs, defaultMove, he, hf]

/-- A state that steps to itself stays for ever. -/
theorem runs_of_step_self {s : State} (h : step s = .next s) (n : Nat) : runs n s = .next s := by
  induction n with
  | zero => exact runs_zero s
  | succ n ih => exact (runs_succ h n).trans ih

/-- Settles O49: in each of the three cases no step of the block is enabled, so one step is a wait, and so is every
later one. -/
theorem waitsChangeNothing : Obligations.WaitsChangeNothing := by
  intro s n hs hf hstuck
  have he : s.blockEnabled = false := by
    rcases hstuck with ⟨ho, hp⟩ | ⟨ho, hp, w, ws, hc, hw⟩ | ⟨hc, hp⟩
    · exact (State.blockEnabled_emit hp).trans ho
    · rw [State.blockEnabled_cmd (by simp [hp]) (by simp [hp]) hc, State.cmdReady_data hp hw, ho]
    · exact State.blockEnabled_nil (fun h => by simp [h] at hp) (fun h => by simp [h] at hp) hc
  exact runs_of_step_self (step_wait hs hf he) n

/-! ### Reset (R200, R201) -/

/-- `STATUS` is 0 at the reset values of the items it shows (R35, R201). -/
theorem Block.reset_status : Block.reset.status = 0 := by decide

/-- In IDLE the block accepts every word (R62). -/
theorem State.cmdReady_idle {s : State} (hp : s.phase = .idle) (w : Word) : s.cmdReady w = true :=
  State.cmdReady_of_not_data (by simp [hp]) (by simp [hp]) (by simp [hp])

/-- In IDLE the block presents no byte (R59). -/
theorem State.presented_idle {s : State} (hp : s.phase = .idle) : s.presented = none := by
  simp [State.presented, hp]

/-- Settles O12: the items are those of `Block.reset`, and the phase IDLE gives the outputs. -/
theorem stateAfterReset : Obligations.StateAfterReset := by
  have hp : State.reset.phase = .idle := rfl
  refine ⟨rfl, rfl, fun i _ => Block.reset_nameByte i, rfl, rfl, hp, rfl, rfl, rfl, rfl, ?big, ?ofs,
    Block.reset_status, ?done, ?fault, State.cmdReady_idle hp, State.presented_idle hp⟩
  case big => exact Block.big_eq_false.2 (Nat.zero_le _)
  case ofs => exact Block.ofs_idle hp
  case done => simp [Block.doneOut, hp]
  case fault => simp [Block.faultOut, hp]

/-- Settles O13: the scheduled move is `hardReset`, which writes `Block.reset` and empties the trace in any state. -/
theorem hardwareResetFromAnyState : Obligations.HardwareResetFromAnyState := by
  intro s ms hs
  rw [step_scheduled hs]
  rfl

end Sys2Proof.Machine
end
